-- ==== Sys2Proof/Word.lean ====
section
/-! DEFINITION. The widths of the block: 16-bit words everywhere, the 32-bit image-buffer address (R8), and the
bytes that text and the serialised wire are made of. -/

namespace Sys2Proof

/-- A buffer slot, wire word, opcode, parameter, register address or register value (R8). -/
abbrev Word := BitVec 16

/-- The image-buffer address (R8). -/
abbrev Addr32 := BitVec 32

/-- One octet of device-info text (R55), of a request line (R97) or of the serialised bus (R53). -/
abbrev Byte := BitVec 8

end Sys2Proof
end

