-- ==== Sys2Proof/Config.lean ====
section
/-! DEFINITION. What an implementation fixes (R7, R14): the OPEN parameters as one record of plain data, the values the
spec fixes, and the free values, opaque constants of which nothing is known. -/

namespace Sys2Proof

/-- The order of the two bytes of a word (R7: `P_TEXT_BYTE_ORDER`, `P_WIRE_ORDER`). -/
inductive ByteOrder where
  | lowByteFirst
  | highByteFirst
  deriving DecidableEq, Repr, Inhabited

/-- A level of the busy line or the reset line (R26, R30). -/
inductive Level where
  | high
  | low
  deriving DecidableEq, Repr, Inhabited

/-- The values of the ghost tracker of the controller's power state (R32). -/
inductive Power where
  | active
  | standby
  | sleep
  | unknown
  deriving DecidableEq, Repr, Inhabited

/-- The implementation parameters of R7 that are OPEN. They are configuration, fixed at construction (R14, R22). -/
structure Config where
  /-- `C`, the capacity of each transaction buffer in words. -/
  capacity : Nat
  /-- `N_CALLERS`, the number of caller contexts. -/
  callers : Nat
  /-- `P_TEXT_BYTE_ORDER` (R55). -/
  textOrder : ByteOrder
  /-- `P_WIRE_ORDER`, as far as bytes show it; it lies outside the block (R53). -/
  wireOrder : ByteOrder
  /-- `REG_IMG_BASE`: register address of the low half of the image-buffer address. -/
  regImgBase : Word
  /-- `REG_LUT_STATUS`: the register `isDisplayReady` polls. -/
  regLutStatus : Word
  /-- `REG_PACK`: the register `enableParameterPack` writes. -/
  regPack : Word
  /-- `VAL_PACK`: the value `enableParameterPack` writes. -/
  valPack : Word
  /-- `P_IMAGE_FORMAT`: the `format` parameter of LOAD_IMAGE_AREA. -/
  imageFormat : Word
  /-- `P_POWER_AFTER_RESET`: the power tracker's value after the `reset` request. -/
  powerAfterReset : Power
  deriving DecidableEq, Repr, Inhabited

/-- `BUSY_IDLE_LEVEL` (R7, R128). -/
def Config.busyIdleLevel : Level := .high

/-- `P_DUMMY_WORD` (R7). -/
def Config.dummyWord : Word := 0x0000

/-- `RESET_HOLD_MS` (R7). -/
def Config.resetHoldMs : Nat := 10

/-- `DEVINFO_WORDS` (R7). -/
def Config.devInfoWords : Nat := 20

/-- `VCOM_SCALE` (R7). -/
def Config.vcomScale : Rat := 1000

/-- `VCOM_MIN` (R7): the smallest accepted VCOM value, -65.535. -/
def Config.vcomMin : Rat := -65535 / 1000

/-- FREE VALUE (log entry 5): the OPEN parameters of the constructed instance, before the two lower bounds. -/
opaque Config.implementation : Config

/-- The configuration of the constructed instance: every parameter free, but `C >= 2` and `N_CALLERS >= 1` (R7). -/
def Config.board : Config :=
  { Config.implementation with
    capacity := Config.implementation.capacity + 2
    callers := Config.implementation.callers + 1 }

/-- FREE VALUE (log entry 6): the contents of `out[i]` at construction (R44: "unspecified; each slot is a draw"). -/
opaque Config.outAtConstruction : Nat → Word

/-- FREE VALUE (log entry 6): the contents of `in[i]` at construction (R44). -/
opaque Config.inAtConstruction : Nat → Word

/-- FREE VALUE (log entry 7): the busy line's level at construction (R44: "environment; either level"). -/
opaque Config.busyAtConstruction : Level

/-- FREE VALUE (log entries 8 and 9): the n-th free word, taken for a received word no answer fixes and for a slot of
`in` after a failed transfer (R64). -/
opaque Config.freeWord : Nat → Word

end Sys2Proof
end

