-- ==== Sys2Proof/Syntax.lean ====
section
/-! DEFINITION. The instruction set: one constructor for each row of spec/opcode_table.json. The first thirteen are
the frames of R81 and R85; the other eighteen are the closed set of request kinds of R18. -/

namespace Sys2Proof

/-- An instruction of the block: a frame of the wire protocol, or a request of the request port. -/
inductive Instr where
  /-- CMD frame WAKE_UP, opcode 0x0001 (R85). -/
  | cmdWakeUp
  /-- CMD frame STANDBY, opcode 0x0002 (R85). -/
  | cmdStandby
  /-- CMD frame SLEEP, opcode 0x0003 (R85). -/
  | cmdSleep
  /-- CMD frame READ_REGISTER, opcode 0x0010 (R85). -/
  | cmdReadRegister
  /-- CMD frame WRITE_REGISTER, opcode 0x0011 (R85). -/
  | cmdWriteRegister
  /-- CMD frame LOAD_IMAGE_AREA, opcode 0x0021 (R85). -/
  | cmdLoadImageArea
  /-- CMD frame END_LOAD_IMAGE, opcode 0x0022 (R85). -/
  | cmdEndLoadImage
  /-- CMD frame DISPLAY_AREA, opcode 0x0034 (R85). -/
  | cmdDisplayArea
  /-- CMD frame SET_VCOM, opcode 0x0039 (R85). -/
  | cmdSetVcom
  /-- CMD frame GET_DEVICE_INFO, opcode 0x0302 (R85). -/
  | cmdGetDeviceInfo
  /-- PARAM frame `[0x0000, p]` (R81). -/
  | param (p : Word)
  /-- WDATA frame `[0x0000] ++ ds` (R81). -/
  | wdata (ds : List Word)
  /-- RDATA frame of `len + 2` words (R81). -/
  | rdata (len : Nat)
  /-- R108. -/
  | sendCommand (op : Word)
  /-- R109. -/
  | sendCommandParams (op : Word) (ps : List Word)
  /-- R110. -/
  | writeData (ds : List Word)
  /-- R111. -/
  | readData (len : Nat)
  /-- R146. -/
  | writeRegister (addr val : Word)
  /-- R147. -/
  | readRegister (addr : Word)
  /-- R152. -/
  | wakeUp
  /-- R153. -/
  | standby
  /-- R154. -/
  | sleep
  /-- R157: pulses the controller's reset line. -/
  | reset
  /-- R159. -/
  | getDeviceInfo
  /-- R164: a voltage in volts, an exact rational. -/
  | setVcom (v : Rat)
  /-- R167. -/
  | getVcom
  /-- R169. -/
  | enableParameterPack
  /-- R170. -/
  | isDisplayReady
  /-- R171. -/
  | writeImage (addr : Addr32) (pixels : List Word) (x y w h : Word)
  /-- R173. -/
  | display (x y w h : Word)
  /-- R174. -/
  | clear (x y w h : Word)
  deriving DecidableEq, Repr, Inhabited

end Sys2Proof
end

