-- ==== Sys2Proof/WellFormed.lean ====
section
/-! DEFINITION. The checks on terms: the configuration's bounds (R7, R193), and which instruction a frame's words name
where two rows have the same words (R83). -/

namespace Sys2Proof

/-- R7, R193: `C >= 2` and `N_CALLERS >= 1`. -/
def Config.wellFormed (cfg : Config) : Bool :=
  decide (2 ≤ cfg.capacity) && decide (1 ≤ cfg.callers)

/-- R83: a WDATA frame with a one-word payload is the same two words as a PARAM frame, and the decoder answers PARAM for
them. Such a WDATA is the one instruction whose words name another; it still has its meaning. -/
def Instr.wellFormed : Instr → Bool
  | .wdata ds => decide (ds.length ≠ 1)
  | .cmdWakeUp | .cmdStandby | .cmdSleep | .cmdReadRegister | .cmdWriteRegister | .cmdLoadImageArea => true
  | .cmdEndLoadImage | .cmdDisplayArea | .cmdSetVcom | .cmdGetDeviceInfo | .param _ | .rdata _ => true
  | .sendCommand _ | .sendCommandParams _ _ | .writeData _ | .readData _ => true
  | .writeRegister _ _ | .readRegister _ | .wakeUp | .standby | .sleep | .reset | .getDeviceInfo => true
  | .setVcom _ | .getVcom | .enableParameterPack | .isDisplayReady => true
  | .writeImage _ _ _ _ _ _ | .display _ _ _ _ | .clear _ _ _ _ => true

end Sys2Proof
end

