-- ==== Sys2Proof/Decode.lean ====
section
/-! DEFINITION. The encodings: the words of a frame (30_encoding.md sections 1 and 2) and the request syntax (R97), each
with its decoder and, after it, its encoder. Both decoders are total and reject what they do not know. -/

namespace Sys2Proof

/-! ## The words the protocol fixes -/

/-- R82. -/
def preambleWriteCommand : Word := 0x6000
/-- R82. -/
def preambleWriteData : Word := 0x0000
/-- R82. -/
def preambleReadData : Word := 0x1000

/-- R85. -/
def opWakeUp : Word := 0x0001
/-- R85. -/
def opStandby : Word := 0x0002
/-- R85. -/
def opSleep : Word := 0x0003
/-- R85. -/
def opReadRegister : Word := 0x0010
/-- R85. -/
def opWriteRegister : Word := 0x0011
/-- R85. -/
def opLoadImageArea : Word := 0x0021
/-- R85. -/
def opEndLoadImage : Word := 0x0022
/-- R85. -/
def opDisplayArea : Word := 0x0034
/-- R85. -/
def opSetVcom : Word := 0x0039
/-- R85. -/
def opGetDeviceInfo : Word := 0x0302

/-- R86: the refresh mode of `clear`. -/
def modeClear : Word := 0x0000
/-- R86: the refresh mode of `display`. -/
def modeGrayscale : Word := 0x0002
/-- R87: VCOM mode "set". -/
def vcomModeSet : Word := 0x0001
/-- R87: VCOM mode "get". -/
def vcomModeGet : Word := 0x0000

/-! ## Words and bytes -/

/-- The two bytes of a word in an order (R53, R55). -/
def bytesOfWord : ByteOrder → Word → List Byte
  | .lowByteFirst, w => [w.extractLsb' 0 8, w.extractLsb' 8 8]
  | .highByteFirst, w => [w.extractLsb' 8 8, w.extractLsb' 0 8]

/-- The word two bytes make in an order. -/
def wordOfBytes : ByteOrder → Byte → Byte → Word
  | .lowByteFirst, a, b => b ++ a
  | .highByteFirst, a, b => a ++ b

/-- A word sequence as bytes (R53). -/
def bytesOfWords (o : ByteOrder) : List Word → List Byte
  | [] => []
  | w :: ws => bytesOfWord o w ++ bytesOfWords o ws

/-- The word sequence of an even number of bytes. -/
def wordsOfBytes (o : ByteOrder) : List Byte → Option (List Word)
  | [] => some []
  | [_] => none
  | a :: b :: bs => (wordsOfBytes o bs).map (wordOfBytes o a b :: ·)

/-! ## Frames -/

/-- Why a word sequence is no frame of R81. -/
inductive DecodeError where
  /-- no word at all: every frame begins with a preamble (R79). -/
  | emptyFrame
  /-- word 0 is none of the three preambles (R92). -/
  | unknownPreamble (w : Word)
  /-- a CMD frame is always two words (R96). -/
  | badCommandLength
  /-- an RDATA frame has at least two words (R81). -/
  | truncatedRead
  /-- word 1 of an RDATA frame is `P_DUMMY_WORD` (R81). -/
  | badDummyWord (w : Word)
  /-- an odd number of bytes is no sequence of 16-bit words (R80). -/
  | oddByteCount
  deriving DecidableEq, Repr

/-- The instruction a CMD frame names: the row of R85, and for an opcode in no row the raw request that alone can send
it (R93). -/
def decodeCommand (op : Word) : Instr :=
  if op = opWakeUp then .cmdWakeUp
  else if op = opStandby then .cmdStandby
  else if op = opSleep then .cmdSleep
  else if op = opReadRegister then .cmdReadRegister
  else if op = opWriteRegister then .cmdWriteRegister
  else if op = opLoadImageArea then .cmdLoadImageArea
  else if op = opEndLoadImage then .cmdEndLoadImage
  else if op = opDisplayArea then .cmdDisplayArea
  else if op = opSetVcom then .cmdSetVcom
  else if op = opGetDeviceInfo then .cmdGetDeviceInfo
  else .sendCommand op

/-- The instruction the words of one frame name (R81). The two words `[0x0000, p]` are both a PARAM and a one-word WDATA
(R83): the answer is PARAM. The stale words of an RDATA frame (R63) carry nothing but their number. -/
def decodeFrame : List Word → Except DecodeError Instr
  | [] => .error .emptyFrame
  | w :: ws =>
    if w = preambleWriteCommand then
      match ws with
      | [op] => .ok (decodeCommand op)
      | _ => .error .badCommandLength
    else if w = preambleWriteData then
      match ws with
      | [p] => .ok (.param p)
      | ds => .ok (.wdata ds)
    else if w = preambleReadData then
      match ws with
      | [] => .error .truncatedRead
      | d :: stale => if d = Config.dummyWord then .ok (.rdata stale.length) else .error (.badDummyWord d)
    else .error (.unknownPreamble w)

/-- The instruction the serialised bytes of one frame name, under a wire order (R53). -/
def decodeBytes (o : ByteOrder) (bs : List Byte) : Except DecodeError Instr :=
  match wordsOfBytes o bs with
  | none => .error .oddByteCount
  | some ws => decodeFrame ws

/-- The words of a frame row (R81, R85), and of a raw command whose opcode is in no row of R85. The slots of an RDATA frame
after word 1 are whatever `out` holds (R63): they are written here as zeros. No other request is one frame. -/
def encodeFrame : Instr → Option (List Word)
  | .cmdWakeUp => some [preambleWriteCommand, opWakeUp]
  | .cmdStandby => some [preambleWriteCommand, opStandby]
  | .cmdSleep => some [preambleWriteCommand, opSleep]
  | .cmdReadRegister => some [preambleWriteCommand, opReadRegister]
  | .cmdWriteRegister => some [preambleWriteCommand, opWriteRegister]
  | .cmdLoadImageArea => some [preambleWriteCommand, opLoadImageArea]
  | .cmdEndLoadImage => some [preambleWriteCommand, opEndLoadImage]
  | .cmdDisplayArea => some [preambleWriteCommand, opDisplayArea]
  | .cmdSetVcom => some [preambleWriteCommand, opSetVcom]
  | .cmdGetDeviceInfo => some [preambleWriteCommand, opGetDeviceInfo]
  | .param p => some [preambleWriteData, p]
  | .wdata ds => some (preambleWriteData :: ds)
  | .rdata len => some (preambleReadData :: Config.dummyWord :: List.replicate len 0)
  | .sendCommand op => if decodeCommand op = .sendCommand op then some [preambleWriteCommand, op] else none
  | .sendCommandParams _ _ | .writeData _ | .readData _ | .writeRegister _ _ | .readRegister _ => none
  | .wakeUp | .standby | .sleep | .reset | .getDeviceInfo | .setVcom _ | .getVcom => none
  | .enableParameterPack | .isDisplayReady | .writeImage _ _ _ _ _ _ | .display _ _ _ _ | .clear _ _ _ _ => none

/-- The bytes of a frame under a wire order (R53). -/
def encodeBytes (o : ByteOrder) (i : Instr) : Option (List Byte) :=
  (encodeFrame i).map (bytesOfWords o)

/-! ## The opcode table's numbering -/

/-- The words of a frame whose bits are `w`, numbered as spec/opcode_table.json numbers them ("the 32-bit concatenation
word0:word1 (word0 in bits 31:16)"): the first word is the most significant (log entry 16). -/
def tableWordsAux (w : Nat) : Nat → List Word
  | 0 => []
  | n + 1 => BitVec.ofNat 16 (w >>> (16 * n)) :: tableWordsAux w n

/-- The words of a frame of `nbits` bits, where that is a whole number of words. -/
def tableWords (nbits w : Nat) : Option (List Word) :=
  if nbits % 16 = 0 then some (tableWordsAux w (nbits / 16)) else none

/-- What the decoder answers for a row of spec/opcode_table.json: the words are laid out as bytes, the first word first,
and given to the byte decoder. -/
def decodeTableWord (nbits w : Nat) : Option Instr :=
  match tableWords nbits w with
  | none => none
  | some ws =>
    match decodeBytes .highByteFirst (bytesOfWords .highByteFirst ws) with
    | .ok i => some i
    | .error _ => none

/-! ## The request syntax (R97) -/

/-- A lexical unit of a request line. -/
inductive Token where
  | ident (name : String)
  | num (n : Nat)
  | dec (q : Rat)
  | comma
  | colon
  | lbracket
  | rbracket
  deriving DecidableEq, Repr

/-- The bytes of a text (its characters' codes). -/
def ascii (t : String) : List Byte := t.toList.map fun ch => BitVec.ofNat 8 ch.toNat

def isDigitByte (b : Byte) : Bool := 0x30 ≤ b && b ≤ 0x39
def isLetterByte (b : Byte) : Bool := (0x41 ≤ b && b ≤ 0x5A) || (0x61 ≤ b && b ≤ 0x7A)

/-- The bytes a word of a line is made of: letters, digits, the decimal point and the minus sign. -/
def isLexemeByte (b : Byte) : Bool := isDigitByte b || isLetterByte b || b == 0x2E || b == 0x2D

/-- The value of a hexadecimal digit. -/
def digitValue (b : Byte) : Option Nat :=
  if isDigitByte b then some (b.toNat - 0x30)
  else if 0x41 ≤ b && b ≤ 0x46 then some (b.toNat - 0x37)
  else if 0x61 ≤ b && b ≤ 0x66 then some (b.toNat - 0x57)
  else none

/-- The number the digits of a base continue from `acc`. -/
def readDigits (base acc : Nat) : List Byte → Option Nat
  | [] => some acc
  | b :: bs =>
    match digitValue b with
    | some d => if d < base then readDigits base (base * acc + d) bs else none
    | none => none

/-- A non-empty sequence of digits as a number. -/
def readNumber (base : Nat) : List Byte → Option Nat
  | [] => none
  | bs => readDigits base 0 bs

/-- A decimal `a` or `a.b` as an exact rational (R97). -/
def readDecimal (bs : List Byte) : Option Rat :=
  let whole := bs.takeWhile isDigitByte
  match bs.dropWhile isDigitByte with
  | [] => (readNumber 10 whole).map fun n => (n : Rat)
  | p :: frac =>
    if p = 0x2E then
      match readNumber 10 whole, readNumber 10 frac with
      | some a, some b => some (a + mkRat b (10 ^ frac.length))
      | _, _ => none
    else none

/-- One word of a line: a name, a decimal or hexadecimal number, or a decimal with a sign or a point. -/
def readLexeme : List Byte → Option Token
  | [] => none
  | b :: bs =>
    if isLetterByte b then
      if bs.all isLetterByte then some (.ident (String.ofList ((b :: bs).map fun x => Char.ofNat x.toNat))) else none
    else if b = 0x2D then (readDecimal bs).map fun q => .dec (-q)
    else
      match b :: bs with
      | 0x30 :: 0x78 :: hex => (readNumber 16 hex).map .num
      | ds => if ds.all isDigitByte then (readNumber 10 ds).map .num else (readDecimal ds).map .dec

/-- The token of a punctuation byte. -/
def punctuation (b : Byte) : Option Token :=
  if b = 0x2C then some .comma
  else if b = 0x3A then some .colon
  else if b = 0x5B then some .lbracket
  else if b = 0x5D then some .rbracket
  else none

/-- The tokens of a line; spaces separate. The first argument bounds the number of steps. -/
def lexLine : Nat → List Byte → Option (List Token)
  | _, [] => some []
  | 0, _ :: _ => none
  | n + 1, b :: bs =>
    if b = 0x20 then lexLine n bs
    else if isLexemeByte b then
      match readLexeme (b :: bs.takeWhile isLexemeByte) with
      | some t => (lexLine n (bs.dropWhile isLexemeByte)).map (t :: ·)
      | none => none
    else
      match punctuation b with
      | some t => (lexLine n bs).map (t :: ·)
      | none => none

/-- An argument of a request: a number, a decimal, or a word list in brackets (R97). -/
inductive Arg where
  | num (n : Nat)
  | dec (q : Rat)
  | words (ns : List Nat)
  deriving DecidableEq, Repr

/-- The rest of a bracketed list that has at least one element. -/
def readWordList : List Token → Option (List Nat × List Token)
  | .num n :: .rbracket :: ts => some ([n], ts)
  | .num n :: .comma :: ts => (readWordList ts).map fun r => (n :: r.1, r.2)
  | _ => none

/-- One argument and what follows it. -/
def readArg : List Token → Option (Arg × List Token)
  | .num n :: ts => some (.num n, ts)
  | .dec q :: ts => some (.dec q, ts)
  | .lbracket :: .rbracket :: ts => some (.words [], ts)
  | .lbracket :: ts => (readWordList ts).map fun r => (.words r.1, r.2)
  | _ => none

/-- A non-empty list of arguments with commas between. The first argument bounds the number of steps. -/
def readArgs : Nat → List Token → Option (List Arg)
  | 0, _ => none
  | n + 1, ts =>
    match readArg ts with
    | some (a, []) => some [a]
    | some (a, .comma :: rest) => (readArgs n rest).map (a :: ·)
    | _ => none

/-- A number as a `Word` argument; request arguments are typed (R18, R88). -/
def wordArg (n : Nat) : Option Word := if n < 2 ^ 16 then some (BitVec.ofNat 16 n) else none

/-- A number as an `Addr32` argument (R18). -/
def addrArg (n : Nat) : Option Addr32 := if n < 2 ^ 32 then some (BitVec.ofNat 32 n) else none

/-- Numbers as a word-list argument (R18). -/
def wordArgs : List Nat → Option (List Word)
  | [] => some []
  | n :: ns =>
    match wordArg n, wordArgs ns with
    | some w, some ws => some (w :: ws)
    | _, _ => none

/-- Four numbers as the four words of an area (R18). -/
def areaArgs (f : Word → Word → Word → Word → Instr) (x y w h : Nat) : Option Instr :=
  match wordArg x, wordArg y, wordArg w, wordArg h with
  | some x, some y, some w, some h => some (f x y w h)
  | _, _, _, _ => none

/-- The request of a name and its arguments (R18). A name or an argument list of no request kind is refused (R99). -/
def requestOf (name : String) (args : List Arg) : Option Instr :=
  match name, args with
  | "sendCommand", [.num op] => (wordArg op).map .sendCommand
  | "sendCommandParams", [.num op, .words ps] =>
    match wordArg op, wordArgs ps with
    | some op, some ps => some (.sendCommandParams op ps)
    | _, _ => none
  | "writeData", [.words ds] => (wordArgs ds).map .writeData
  | "readData", [.num len] => some (.readData len)
  | "writeRegister", [.num addr, .num val] =>
    match wordArg addr, wordArg val with
    | some addr, some val => some (.writeRegister addr val)
    | _, _ => none
  | "readRegister", [.num addr] => (wordArg addr).map .readRegister
  | "wakeUp", [] => some .wakeUp
  | "standby", [] => some .standby
  | "sleep", [] => some .sleep
  | "reset", [] => some .reset
  | "getDeviceInfo", [] => some .getDeviceInfo
  | "setVcom", [.dec v] => some (.setVcom v)
  | "setVcom", [.num n] => some (.setVcom (n : Rat))
  | "getVcom", [] => some .getVcom
  | "enableParameterPack", [] => some .enableParameterPack
  | "isDisplayReady", [] => some .isDisplayReady
  | "writeImage", [.num addr, .words px, .num x, .num y, .num w, .num h] =>
    match addrArg addr, wordArgs px with
    | some addr, some px => areaArgs (.writeImage addr px) x y w h
    | _, _ => none
  | "display", [.num x, .num y, .num w, .num h] => areaArgs .display x y w h
  | "clear", [.num x, .num y, .num w, .num h] => areaArgs .clear x y w h
  | _, _ => none

/-- The request a name and its argument tokens make. -/
def requestOfTokens (name : String) : List Token → Option Instr
  | [] => requestOf name []
  | t :: ts =>
    match readArgs (ts.length + 1) (t :: ts) with
    | some args => requestOf name args
    | none => none

/-- A line `[c:] name arg, arg, ...` as tokens: the caller context, by default 0, and the request (R97). -/
def decodeTokens : List Token → Option (Nat × Instr)
  | .num c :: .colon :: .ident name :: ts => (requestOfTokens name ts).map fun i => (c, i)
  | .ident name :: ts => (requestOfTokens name ts).map fun i => (0, i)
  | _ => none

/-- A request line as bytes (R97). Total: every other byte sequence is refused (R99). -/
def decodeLine (text : List Byte) : Option (Nat × Instr) :=
  match lexLine text.length text with
  | some ts => decodeTokens ts
  | none => none

/-- A word list as tokens. -/
def tokensOfWords : List Word → List Token
  | [] => [.rbracket]
  | [w] => [.num w.toNat, .rbracket]
  | w :: ws => .num w.toNat :: .comma :: tokensOfWords ws

/-- Four area words as tokens. -/
def tokensOfArea (x y w h : Word) : List Token :=
  [.num x.toNat, .comma, .num y.toNat, .comma, .num w.toNat, .comma, .num h.toNat]

/-- The name and the arguments of a request; a frame row is no request kind (R18, R97). -/
def encodeRequest : Instr → Option (List Token)
  | .sendCommand op => some [.ident "sendCommand", .num op.toNat]
  | .sendCommandParams op ps =>
    some (.ident "sendCommandParams" :: .num op.toNat :: .comma :: .lbracket :: tokensOfWords ps)
  | .writeData ds => some (.ident "writeData" :: .lbracket :: tokensOfWords ds)
  | .readData len => some [.ident "readData", .num len]
  | .writeRegister addr val => some [.ident "writeRegister", .num addr.toNat, .comma, .num val.toNat]
  | .readRegister addr => some [.ident "readRegister", .num addr.toNat]
  | .wakeUp => some [.ident "wakeUp"]
  | .standby => some [.ident "standby"]
  | .sleep => some [.ident "sleep"]
  | .reset => some [.ident "reset"]
  | .getDeviceInfo => some [.ident "getDeviceInfo"]
  | .setVcom v => some [.ident "setVcom", .dec v]
  | .getVcom => some [.ident "getVcom"]
  | .enableParameterPack => some [.ident "enableParameterPack"]
  | .isDisplayReady => some [.ident "isDisplayReady"]
  | .writeImage addr px x y w h =>
    some (.ident "writeImage" :: .num addr.toNat :: .comma :: .lbracket ::
      (tokensOfWords px ++ .comma :: tokensOfArea x y w h))
  | .display x y w h => some (.ident "display" :: tokensOfArea x y w h)
  | .clear x y w h => some (.ident "clear" :: tokensOfArea x y w h)
  | .cmdWakeUp | .cmdStandby | .cmdSleep | .cmdReadRegister | .cmdWriteRegister | .cmdLoadImageArea => none
  | .cmdEndLoadImage | .cmdDisplayArea | .cmdSetVcom | .cmdGetDeviceInfo => none
  | .param _ | .wdata _ | .rdata _ => none

/-- A request line with its caller context, as tokens (R97). -/
def encodeTokens (c : Nat) (i : Instr) : Option (List Token) :=
  (encodeRequest i).map fun ts => .num c :: .colon :: ts

end Sys2Proof
end

