-- ==== Sys2Proof/Machine/State.lean ====
section
/-! DEFINITION. The state of one driver instance as plain data (10_state.md), the inputs its host, its notifier and its
environment give it, the reasons a step can stop, and the state after construction (R44). -/

namespace Sys2Proof.Machine

/-! ## Values of the state's parts -/

/-- R26: the level last driven on the reset line. -/
inductive DrivenLevel where
  /-- the block has not yet driven the line. -/
  | undriven
  | driven (l : Level)
  deriving DecidableEq, Repr, Inhabited

/-- R11: the status of a result. -/
inductive Status where
  | ok
  | busy
  | error
  deriving DecidableEq, Repr, Inhabited

/-- R192: the ghost cause of a `busy` or an `error`, never visible to a caller. -/
inductive Cause where
  | exclHeld
  | invalidArgument
  | capacity
  /-- with the index of the failing frame. -/
  | busFailure (k : Nat)
  deriving DecidableEq, Repr, Inhabited

/-- R24: the notification slot. A handle is named by its index in `State.handles`. -/
inductive Slot where
  | inert
  | handler (h : Nat)
  deriving DecidableEq, Repr, Inhabited

/-- R25: a one-shot handle. -/
structure Handle where
  delivered : Bool
  signalled : Bool
  deriving DecidableEq, Repr, Inhabited

/-- R37: the sequencer positions. The frame index of `Fill(k)` to `Xfer(k)` is the field `Caller.k`, the sub-step index
of `Sub(i)` the field `Caller.sub`. -/
inductive Pos where
  | idle
  | validate
  | sub
  | acquire
  | check
  | fill
  | waitSample
  | waitRegister
  | waitSuspend
  | waitDeregister
  | xfer
  | deliver
  | release (r : Status)
  | lineLow
  | hold
  | lineHigh
  | ret (r : Status)
  deriving DecidableEq, Repr, Inhabited

/-- R35: the value of a getDeviceInfo. -/
structure DeviceInfo where
  width : Word
  height : Word
  imageBufferAddress : Addr32
  firmwareVersion : List Byte
  lutVersion : List Byte
  deriving DecidableEq, Repr, Inhabited

/-- R18: the result values. -/
inductive Value where
  | words (ws : List Word)
  | word (w : Word)
  | info (d : DeviceInfo)
  | volts (v : Rat)
  | ready (b : Bool)
  deriving DecidableEq, Repr

/-- R45: the events of the ghost trace. -/
inductive Event where
  | xfer (sent received : List Word) (ok : Bool)
  | sample (l : Level)
  | register (h : Nat)
  | deregister
  | line (l : Level)
  | delay (ms : Nat)
  | result (c : Nat) (r : Status) (v : Option Value)
  deriving DecidableEq, Repr

/-- R33: the state of a caller context. -/
structure Caller where
  /-- the request in progress. -/
  req : Option Instr
  /-- the sequencer position. -/
  pos : Pos
  /-- the index of the frame within the current primitive. -/
  k : Nat
  /-- the index of the sub-step within the request (R39): of its framer primitives (log entry 14), or of the line steps of
  `reset` (log entry 29). -/
  sub : Nat
  /-- the handle of the current wait. -/
  hnd : Option Nat
  /-- the words the request has read so far. -/
  acc : List Word
  /-- the status of the last finished sub-step, and of the last request once it has returned (R34). -/
  st : Status
  /-- the ghost cause of a status that is not `ok` (R192). -/
  cause : Option Cause
  deriving DecidableEq, Repr, Inhabited

/-- R44: a caller context with no request. -/
def Caller.idle : Caller :=
  { req := none, pos := .idle, k := 0, sub := 0, hnd := none, acc := [], st := .ok, cause := none }

/-! ## Inputs -/

/-- R132: the two exits of `WaitSuspend`. -/
inductive WaitExit where
  | signal
  | observedIdle
  deriving DecidableEq, Repr, Inhabited

/-- R27: the bus collaborator's answer to one transfer: the success bit, and the received words as far as the answer
fixes them (a word it does not fix is free, log entry 8). -/
structure Answer where
  ok : Bool
  words : List Word
  deriving DecidableEq, Repr, Inhabited

/-- R13, R213, R214: what may happen next. The host issues requests, a caller context takes a micro-step, the
environment sets the busy line or answers a transfer, the notifier invokes a handle. -/
inductive Move where
  /-- context `c` issues a request and runs it until it returns or blocks. -/
  | request (c : Nat) (i : Instr)
  /-- the host submits a request line in the syntax of R97; it then runs as by `request`. -/
  | line (text : List Byte)
  /-- the host submits the words of one frame for context `c`; it then runs as by `request`. -/
  | frame (c : Nat) (ws : List Word)
  /-- context `c` issues a request and takes no further step yet. -/
  | start (c : Nat) (i : Instr)
  /-- context `c` takes one atomic micro-step; at `WaitSuspend` by the exit named. -/
  | advance (c : Nat) (x : WaitExit)
  /-- context `c` takes micro-steps until its request returns or blocks. -/
  | run (c : Nat)
  /-- the environment sets the busy line (R30). -/
  | busyLine (l : Level)
  /-- the bus collaborator has an answer for the next transfer that has none yet (R212). -/
  | answer (a : Answer)
  /-- the notifier context runs `Invoke(h)` (R135). -/
  | invoke (h : Nat)
  deriving DecidableEq, Repr, Inhabited

end Sys2Proof.Machine

namespace Sys2Proof

/-- FREE VALUE (log entry 2): the n-th move of the agents where the input queue names none (R199: "a free choice of
the schedule"). -/
opaque Config.freeMove : Nat → Machine.Move

end Sys2Proof

namespace Sys2Proof.Machine

/-! ## The state -/

/-- R16: the state of one driver instance. The last five fields are the model's own. -/
structure State where
  /-- the configuration, fixed at construction (R14, R22). -/
  cfg : Config
  /-- the outgoing transaction buffer `out`, `C` words (R20). -/
  outBuf : List Word
  /-- the incoming transaction buffer `in`, `C` words (R21). -/
  inBuf : List Word
  /-- the exclusivity flag (R23). -/
  excl : Bool
  /-- the notification slot of the busy line (R24). -/
  slot : Slot
  /-- the one-shot handles made so far; a handle's name is its index (R25). -/
  handles : List Handle
  /-- ghost: the handles an edge has reached, each once (R31). -/
  edgeTargets : List Nat
  /-- the level last driven on the reset line (R26). -/
  resetLevel : DrivenLevel
  /-- the level of the busy line (R30). -/
  busyLevel : Level
  /-- ghost: the controller's power state as the block tracks it (R32). -/
  power : Power
  /-- the caller contexts `0 .. N_CALLERS-1` (R33, R208). -/
  callers : List Caller
  /-- ghost: the event trace, oldest event first (R45). -/
  trace : List Event
  /-- model: the context an instruction runs on (log entry 26). -/
  active : Nat
  /-- model: the moves to come, the next one first (log entry 2). -/
  inputs : List Move
  /-- model: the answers no transfer has used yet, oldest first (log entry 8). -/
  answers : List Answer
  /-- model: how many free moves have been drawn (log entry 2). -/
  ticks : Nat
  /-- model: how many free words have been drawn (log entries 8, 9). -/
  draws : Nat
  deriving DecidableEq, Repr

/-- Why the machine stops. No rule of the block produces a fault (R211). -/
inductive Fault where
  /-- Raised by a caller's step (`advance`, `run`) of a primitive past its capacity check that needs more than `C` words:
  it would touch a buffer slot that does not exist (R47). No run reaches such a state. Safe. -/
  | bufferIndex
  deriving DecidableEq, Repr

/-- Why a step has no meaning. -/
inductive Refusal where
  /-- Raised by an arm of `exec` that has no meaning yet. Safe. -/
  | notModelled (mnemonic : String)
  /-- Raised by every step of an instance with `C < 2`: "the model refuses that configuration: no state exists and no
  request has a step" (R193). Safe. -/
  | capacityBelowTwo
  /-- Raised by the move `line` for a text that is no request of R18 (R99). Safe. -/
  | unknownRequest
  /-- Raised by the move `frame` for words that are no frame of R81 (R92). Safe. -/
  | unknownFrame (e : DecodeError)
  deriving DecidableEq, Repr

/-! ## Construction -/

/-- `n` consecutive values of a family, from index `i`. -/
def drawSlots (f : Nat → Word) (i : Nat) : Nat → List Word
  | 0 => []
  | n + 1 => f i :: drawSlots f (i + 1) n

/-- R44: the state construction leaves, for a configuration. It drives no line and makes no transfer. -/
def State.construct (cfg : Config) : State :=
  { cfg := cfg
    outBuf := drawSlots Config.outAtConstruction 0 cfg.capacity
    inBuf := drawSlots Config.inAtConstruction 0 cfg.capacity
    excl := false
    slot := .inert
    handles := []
    edgeTargets := []
    resetLevel := .undriven
    busyLevel := Config.busyAtConstruction
    power := .unknown
    callers := List.replicate cfg.callers Caller.idle
    trace := []
    active := 0
    inputs := []
    answers := []
    ticks := 0
    draws := 0 }

/-- R215: the block's one reset is the construction of the instance. -/
def State.reset : State := State.construct Config.board

end Sys2Proof.Machine
end

