-- ==== Sys2Proof/Machine/Ops.lean ====
section
/-! DEFINITION. The named operations over the state: caller contexts, the buffers (R10), the atomics on the exclusivity
flag (R70), the three ports (R27 to R29), the handles, the environment's moves, and the end of a primitive by a status
that is not `ok`, which stands where other machines take an exception (R195). -/

namespace Sys2Proof.Machine

/-! ## Caller contexts and the trace -/

/-- Context `c`; a context that does not exist has no request. -/
def State.caller (s : State) (c : Nat) : Caller := s.callers.getD c Caller.idle

/-- Context `c` replaced; nothing where there is no such context. -/
def State.setCaller (s : State) (c : Nat) (u : Caller) : State := { s with callers := s.callers.set c u }

/-- R45: one event appended to the trace. -/
def State.log (s : State) (e : Event) : State := { s with trace := s.trace ++ [e] }

/-! ## The transaction buffers -/

/-- R10 `MemRead`: the words `[i, i+n)` of a buffer. -/
def memRead (buf : List Word) (i n : Nat) : List Word := (buf.drop i).take n

/-- R10 `MemWrite`: `buf[i+k] <- ws[k]` for every `k < |ws|`. A buffer never changes its length (R22): a word past its
end is written nowhere. -/
def memWrite : List Word → Nat → List Word → List Word
  | [], _, _ => []
  | b :: bs, 0, [] => b :: bs
  | _ :: bs, 0, w :: ws => w :: memWrite bs 0 ws
  | b :: bs, i + 1, ws => b :: memWrite bs i ws

/-- R20, R21, R22: both buffers have exactly `C` words. -/
abbrev Memory.wf (s : State) : Prop := s.outBuf.length = s.cfg.capacity ∧ s.inBuf.length = s.cfg.capacity

/-- The `n` free words from draw `d` on. -/
def freeWords (d n : Nat) : List Word := drawSlots Config.freeWord d n

/-- R27: exactly `n` received words: those the answer fixes, then free ones from draw `d` on. -/
def response : List Word → Nat → Nat → List Word
  | _, _, 0 => []
  | [], d, n + 1 => Config.freeWord d :: response [] (d + 1) n
  | w :: ws, d, n + 1 => w :: response ws (d + 1) n

/-! ## The exclusivity flag -/

/-- R70 `TryAcquire`: a compare-and-swap of `excl`. -/
def State.tryAcquire (s : State) : Bool × State := if s.excl then (false, s) else (true, { s with excl := true })

/-- R70 `Release`. -/
def State.releaseExcl (s : State) : State := { s with excl := false }

/-! ## The ports -/

/-- R29 `SampleBusy`: records the sample; the level is `busyLevel`. -/
def State.sampleBusy (s : State) : State := s.log (.sample s.busyLevel)

/-- R128: the busy line is idle. -/
def State.lineIdle (s : State) : Bool := s.busyLevel == Config.busyIdleLevel

/-- R28 `WriteLine(reset, l)`. -/
def State.writeLine (s : State) (l : Level) : State := State.log { s with resetLevel := .driven l } (.line l)

/-- R206 `Delay`: one step that records its length. -/
def State.delay (s : State) (ms : Nat) : State := s.log (.delay ms)

/-- R27, R64 `Transfer(n)` with the environment's answer: sends `out[0..n)`, and `in[0..n)` is the response if the
transfer succeeds and free words if it fails. -/
def State.transfer (s : State) (n : Nat) (a : Answer) : State :=
  let r := response a.words s.draws n
  State.log
    { s with
      inBuf := memWrite s.inBuf 0 (if a.ok then r else freeWords (s.draws + n) n)
      draws := s.draws + 2 * n }
    (.xfer (memRead s.outBuf 0 n) r a.ok)

/-! ## Handles and the notification slot -/

/-- R25, R130: a fresh handle, and the slot set to it. Its name is the number of handles made before. -/
def State.registerHandle (s : State) : State :=
  State.log
    { s with
      handles := s.handles ++ [{ delivered := false, signalled := false }]
      slot := .handler s.handles.length }
    (.register s.handles.length)

/-- R133: the slot made inert. -/
def State.deregister (s : State) : State := State.log { s with slot := .inert } .deregister

/-- R25: whether a handle's wake-up has been delivered. -/
def State.signalled (s : State) (h : Nat) : Bool :=
  match s.handles[h]? with
  | some g => g.signalled
  | none => false

/-- R71, R136: the handler body: the atomic exchange of `delivered`, and the wake-up if it was not yet set. -/
def Handle.deliver (g : Handle) : Handle :=
  { delivered := true, signalled := if g.delivered then g.signalled else true }

/-- R135, R136 `Invoke(h)`: enabled only if `h` is in `edgeTargets`. -/
def State.invoke (s : State) (h : Nat) : State :=
  if h ∈ s.edgeTargets then { s with handles := s.handles.modify h Handle.deliver } else s

/-! ## The environment's moves -/

/-- R31: the handles reached once the line goes from `old` to `new`. -/
def reachedBy (slot : Slot) (old new : Level) (targets : List Nat) : List Nat :=
  match slot, old, new with
  | .handler h, .low, .high => if h ∈ targets then targets else targets ++ [h]
  | .handler _, .low, .low => targets
  | .handler _, .high, _ => targets
  | .inert, _, _ => targets

/-- R30, R31: the environment sets the busy line; a rising edge reaches the registered handle. -/
def State.driveBusy (s : State) (l : Level) : State :=
  { s with busyLevel := l, edgeTargets := reachedBy s.slot s.busyLevel l s.edgeTargets }

/-- R212: the bus collaborator has one more answer. -/
def State.pushAnswer (s : State) (a : Answer) : State := { s with answers := s.answers ++ [a] }

/-! ## The end of a primitive by a status that is not `ok` -/

/-- R10, R103 `raise Error(cause)` at a position that holds `excl`: the ghost cause is recorded and the context goes to
the release. -/
def State.raiseError (s : State) (c : Nat) (why : Cause) : State :=
  s.setCaller c { s.caller c with pos := .release .error, cause := some why }

end Sys2Proof.Machine
end

