-- ==== Sys2Proof/Machine/Operands.lean ====
section
/-! DEFINITION. Operands: what the block assembles for a frame (30_encoding.md section 3, 43_command_set.md) and what it
makes of the words it has read. -/

namespace Sys2Proof.Machine

/-! ## The image-buffer address -/

/-- R54: `addr[15:0]`. -/
def addrLow (addr : Addr32) : Word := addr.extractLsb' 0 16

/-- R54: `addr[31:16]`. -/
def addrHigh (addr : Addr32) : Word := addr.extractLsb' 16 16

/-- R58: `trunc_16(REG_IMG_BASE + 2)`. -/
def regImgHigh (cfg : Config) : Word := cfg.regImgBase + 2

/-! ## VCOM -/

/-- R164, R166: `-65535/1000 <= v < 0`, exactly. -/
def vcomInRange (v : Rat) : Bool := decide (Config.vcomMin ≤ v) && decide (v < 0)

/-- R165: the nearest integer, halves away from zero. -/
def roundHalfAway (x : Rat) : Int := if 0 ≤ x then (x + 1 / 2).floor else -((-x + 1 / 2).floor)

/-- R9: `n mod 2^16`. -/
def truncTo16 (n : Int) : Word := BitVec.ofInt 16 n

/-- R165: `trunc_16(round(v * -1000))`. -/
def vcomWord (v : Rat) : Word := truncTo16 (roundHalfAway (v * -Config.vcomScale))

/-- R168: the exact rational `-(w / 1000)`, the word taken unsigned. -/
def vcomVolts (w : Word) : Rat := -((w.toNat : Rat) / Config.vcomScale)

/-! ## Device information -/

/-- R55: the bytes of a text field. -/
def textBytes (o : ByteOrder) (ws : List Word) : List Byte := bytesOfWords o ws

/-- R161: the bytes up to the first terminator, all of them if there is none. -/
def upToTerminator : List Byte → List Byte
  | [] => []
  | b :: bs => if b = 0 then [] else b :: upToTerminator bs

/-- R161 `text`. -/
def textOf (o : ByteOrder) (ws : List Word) : List Byte := upToTerminator (textBytes o ws)

/-- R160 `parse`: the device-info block's fields, `w[0]` to `w[3]` and the two text fields of eight words. -/
def parseDeviceInfo (o : ByteOrder) : List Word → Option DeviceInfo
  | w0 :: w1 :: w2 :: w3 :: texts =>
    some
      { width := w0
        height := w1
        imageBufferAddress := w3 ++ w2
        firmwareVersion := textOf o (texts.take 8)
        lutVersion := textOf o ((texts.drop 8).take 8) }
  | _ => none

/-! ## Results -/

/-- What a request makes of the words it has read when it returns `ok`. -/
inductive Conversion where
  /-- no value (R18). -/
  | none
  /-- the words themselves (readData, R111). -/
  | words
  /-- the one word (readRegister, R147). -/
  | register
  /-- the parsed block (getDeviceInfo, R159). -/
  | info
  /-- the voltage (getVcom, R167). -/
  | volts
  /-- whether the word is exactly zero (isDisplayReady, R170). -/
  | ready
  deriving DecidableEq, Repr

/-- The result value of a request that returns `ok`, from the words it has read. -/
def Conversion.apply (v : Conversion) (cfg : Config) (acc : List Word) : Option Value :=
  match v, acc with
  | .none, _ => Option.none
  | .words, ws => some (.words ws)
  | .register, w :: _ => some (.word w)
  | .info, ws => (parseDeviceInfo cfg.textOrder ws).map .info
  | .volts, w :: _ => some (.volts (vcomVolts w))
  | .ready, w :: _ => some (.ready (w == 0))
  | .register, [] | .volts, [] | .ready, [] => Option.none

end Sys2Proof.Machine
end

