-- ==== Sys2Proof/Machine/Flags.lean ====
section
/-! DEFINITION. The flag-like state (R34): how a request's status drives its sub-steps (R39) and the ghost power
tracker (R120, R155). -/

namespace Sys2Proof.Machine

/-- R39, R175: where a request goes after sub-step `sub` of `n` finished with status `r`: the next sub-step if there is
one and the status is `ok`, else the return of that status. -/
def afterSubStep (n sub : Nat) (r : Status) : Pos × Nat :=
  if r = .ok ∧ sub + 1 < n then (.sub, sub + 1) else (.ret r, sub)

/-- How a request's return changes the ghost power tracker. -/
inductive PowerEffect where
  /-- not at all (R186). -/
  | keeps
  /-- a raw power opcode: unknown, unless the request returned `busy` (R120). -/
  | untracked
  /-- a power request: the named state on `ok`, unknown on `error` (R155). -/
  | enters (p : Power)
  deriving DecidableEq, Repr

/-- The tracker after a request with this effect has returned `r`. -/
def PowerEffect.apply (e : PowerEffect) (r : Status) (p : Power) : Power :=
  match e, r with
  | .keeps, _ => p
  | .untracked, .busy => p
  | .untracked, .ok | .untracked, .error => .unknown
  | .enters q, .ok => q
  | .enters _, .error => .unknown
  | .enters _, .busy => p

/-- R120: a raw command frame with opcode 0x0001, 0x0002 or 0x0003 reaches the controller without the tracker's
bookkeeping; no other raw primitive changes `power`. -/
def rawPowerEffect (op : Word) : PowerEffect :=
  if op = opWakeUp ∨ op = opStandby ∨ op = opSleep then .untracked else .keeps

end Sys2Proof.Machine
end

