-- ==== Sys2Proof/Machine/Framer.lean ====
section
/-! DEFINITION. The frames (R81), the four framer primitives as lists of frames (R100, R108 to R111), and the shape of a
request: a fixed expansion into primitives (R98). -/

namespace Sys2Proof.Machine

/-- R81: a frame: the words `Fill` writes, and the number of words transferred in each direction. -/
structure Frame where
  words : List Word
  len : Nat
  deriving DecidableEq, Repr

/-- R81 CMD: `[0x6000, op]`. -/
def cmdFrame (op : Word) : Frame := { words := [preambleWriteCommand, op], len := 2 }

/-- R81 PARAM: `[0x0000, p]`. -/
def paramFrame (p : Word) : Frame := { words := [preambleWriteData, p], len := 2 }

/-- R81 WDATA: `[0x0000] ++ ds`, `len + 1` words. -/
def wdataFrame (ds : List Word) : Frame := { words := preambleWriteData :: ds, len := ds.length + 1 }

/-- R81, R111 RDATA: `Fill` writes only the preamble and the dummy word; `len + 2` words are transferred. -/
def rdataFrame (len : Nat) : Frame := { words := [preambleReadData, Config.dummyWord], len := len + 2 }

/-- R100: the four framer primitives. -/
inductive Primitive where
  | sendCommand (op : Word)
  | sendCommandParams (op : Word) (ps : List Word)
  | writeData (ds : List Word)
  | readData (len : Nat)
  deriving DecidableEq, Repr

/-- R108 to R111 `frames(P)`. -/
def Primitive.frames : Primitive → List Frame
  | .sendCommand op => [cmdFrame op]
  | .sendCommandParams op ps => cmdFrame op :: ps.map paramFrame
  | .writeData ds => [wdataFrame ds]
  | .readData len => [rdataFrame len]

/-- R118 `need(P)`. -/
def Primitive.need : Primitive → Nat
  | .sendCommand _ => 2
  | .sendCommandParams _ _ => 2
  | .writeData ds => ds.length + 1
  | .readData len => len + 2

/-- R111, R121: how many words the primitive delivers out of `in`, if it is a read. -/
def Primitive.delivers : Primitive → Option Nat
  | .sendCommand _ => none
  | .sendCommandParams _ _ => none
  | .writeData _ => none
  | .readData len => some len

/-- R98: a request as the sequencer runs it. -/
structure Expansion where
  /-- the position it begins at. -/
  start : Pos
  /-- what `Validate` finds (R178). -/
  argumentOk : Bool
  /-- the primitives, one for each sub-step (R39). -/
  prims : List Primitive
  /-- the result value of an `ok` return. -/
  conversion : Conversion
  /-- the change of the power tracker at the return. -/
  power : PowerEffect
  deriving DecidableEq, Repr

/-- A raw framer request: one primitive, entered at `Acquire` (R101). -/
def Expansion.raw (p : Primitive) (v : Conversion) (e : PowerEffect) : Expansion :=
  { start := .acquire, argumentOk := true, prims := [p], conversion := v, power := e }

/-- A composite request with no argument check (R39, R178). -/
def Expansion.composite (ps : List Primitive) (v : Conversion) (e : PowerEffect) : Expansion :=
  { start := .sub, argumentOk := true, prims := ps, conversion := v, power := e }

/-- The frames a request sends if every sub-step runs to its end. -/
def Expansion.frames (e : Expansion) : List Frame := e.prims.flatMap Primitive.frames

/-- A bound on a request's micro-steps: at most six for a frame, six more for a primitive, and four around them. -/
def Expansion.budget (e : Expansion) : Nat := 4 + (e.prims.map fun p => 6 + 6 * p.frames.length).sum

end Sys2Proof.Machine
end

