-- ==== Sys2Proof/Machine/Sequencer.lean ====
section
/-! DEFINITION. The sequencer: one atomic micro-step of a caller context for each position of R37 (R101, R129 to R133,
R157), and a request run from its issue until it returns or blocks. -/

namespace Sys2Proof.Machine

/-- The primitive a context is in. -/
def Expansion.primitive (e : Expansion) (u : Caller) : Option Primitive := e.prims[u.sub]?

/-- The frame a context is at. -/
def Expansion.frame (e : Expansion) (u : Caller) : Option Frame :=
  (e.primitive u).bind fun p => p.frames[u.k]?

/-- The end of a primitive with status `r`, and with it of its sub-step (R39). -/
def finishPrimitive (e : Expansion) (c : Nat) (r : Status) (s : State) : State :=
  let u := s.caller c
  let next := afterSubStep e.prims.length u.sub r
  s.setCaller c { u with pos := next.1, sub := next.2, k := 0, st := r }

/-- R164, R178: `Validate`. -/
def stepValidate (e : Expansion) (c : Nat) (s : State) : State :=
  let u := s.caller c
  if e.argumentOk then s.setCaller c { u with pos := .sub }
  else s.setCaller c { u with pos := .ret .error, st := .error, cause := some .invalidArgument }

/-- R39: `Sub(i)` enters the primitive of sub-step `i`. -/
def stepSub (c : Nat) (s : State) : State := s.setCaller c { s.caller c with pos := .acquire }

/-- R102: `Acquire`. -/
def stepAcquire (e : Expansion) (c : Nat) (s : State) : State :=
  match s.tryAcquire with
  | (true, t) => t.setCaller c { t.caller c with pos := .check }
  | (false, t) => finishPrimitive e c .busy (t.setCaller c { t.caller c with cause := some .exclHeld })

/-- R104: `Check`. -/
def stepCheck (e : Expansion) (c : Nat) (s : State) : State :=
  match e.primitive (s.caller c) with
  | none => s
  | some p =>
    if s.cfg.capacity < p.need then s.raiseError c .capacity
    else s.setCaller c { s.caller c with pos := .fill, k := 0 }

/-- R114: `Fill(k)`. -/
def stepFill (e : Expansion) (c : Nat) (s : State) : State :=
  match e.frame (s.caller c) with
  | none => s
  | some f =>
    State.setCaller { s with outBuf := memWrite s.outBuf 0 f.words } c { s.caller c with pos := .waitSample }

/-- R129: `WaitSample(k)`. -/
def stepWaitSample (c : Nat) (s : State) : State :=
  s.sampleBusy.setCaller c { s.caller c with pos := if s.lineIdle then .xfer else .waitRegister }

/-- R130: `WaitRegister(k)`. -/
def stepWaitRegister (c : Nat) (s : State) : State :=
  s.registerHandle.setCaller c { s.caller c with hnd := some s.handles.length, pos := .waitSuspend }

/-- Whether the signal exit of a context's wait is enabled (R132). -/
def State.woken (s : State) (u : Caller) : Bool :=
  match u.hnd with
  | some h => s.signalled h
  | none => false

/-- R132: `WaitSuspend(k)` by the exit named; nothing where that exit is not enabled (log entry 3). -/
def stepWaitSuspend (c : Nat) (x : WaitExit) (s : State) : State :=
  let u := s.caller c
  match x with
  | .signal => if s.woken u then s.setCaller c { u with pos := .waitDeregister } else s
  | .observedIdle => if s.lineIdle then s.sampleBusy.setCaller c { u with pos := .waitDeregister } else s

/-- R133: `WaitDeregister(k)`. The wait is over, so the context has no handle (log entry 11). -/
def stepWaitDeregister (c : Nat) (s : State) : State :=
  s.deregister.setCaller c { s.caller c with hnd := none, pos := .xfer }

/-- R101: where a primitive goes after frame `k` was transferred: the next frame, `Deliver`, or the release. -/
def Primitive.afterFrame (p : Primitive) (k : Nat) : Pos × Nat :=
  if k + 1 < p.frames.length then (.fill, k + 1)
  else
    match p.delivers with
    | some _ => (.deliver, k)
    | none => (.release .ok, k)

/-- R27, R106: `Xfer(k)`. It waits for the environment's answer (R212). -/
def stepXfer (e : Expansion) (c : Nat) (s : State) : State :=
  let u := s.caller c
  match e.primitive u, e.frame u, s.answers with
  | some p, some f, a :: as =>
    let t : State := { s.transfer f.len a with answers := as }
    if a.ok then t.setCaller c { u with pos := (p.afterFrame u.k).1, k := (p.afterFrame u.k).2 }
    else t.raiseError c (.busFailure u.k)
  | _, _, _ => s

/-- R111, R121: `Deliver`. -/
def stepDeliver (e : Expansion) (c : Nat) (s : State) : State :=
  match (e.primitive (s.caller c)).bind Primitive.delivers with
  | none => s
  | some len => s.setCaller c { s.caller c with acc := memRead s.inBuf 2 len, pos := .release .ok }

/-- R103: `Release(r)`, the last step of a primitive that touches shared state. -/
def stepRelease (e : Expansion) (c : Nat) (r : Status) (s : State) : State := finishPrimitive e c r s.releaseExcl

/-- R39: a context after a line step, which always ends with `ok` (R158) and which another line step follows: the next
sub-step, at that step's own position of R157 (log entry 29). -/
def Caller.toLineStep (u : Caller) (next : Pos) : Caller := { u with pos := next, sub := u.sub + 1, st := .ok }

/-- R157, R39: `LineLow`, sub-step 0 of `reset`. -/
def stepLineLow (c : Nat) (s : State) : State :=
  (s.writeLine .low).setCaller c ((s.caller c).toLineStep .hold)

/-- R157, R39: `Hold`, sub-step 1 of `reset`. -/
def stepHold (c : Nat) (s : State) : State :=
  (s.delay Config.resetHoldMs).setCaller c ((s.caller c).toLineStep .lineHigh)

/-- R157, R39, R155: `LineHigh`, sub-step 2 of `reset` and its last, with the tracker's value after a reset. -/
def stepLineHigh (c : Nat) (s : State) : State :=
  State.setCaller { s.writeLine .high with power := s.cfg.powerAfterReset } c
    { s.caller c with pos := .ret .ok, st := .ok }

/-- R19, R38, R155: `Return(r)`. A value is returned only with `ok` (R11). -/
def stepReturn (e : Expansion) (c : Nat) (r : Status) (s : State) : State :=
  let u := s.caller c
  let v := if r = .ok then e.conversion.apply s.cfg u.acc else none
  let t := State.log { s with power := e.power.apply r s.power } (.result c r v)
  t.setCaller c { Caller.idle with st := r, cause := u.cause }

/-- One atomic micro-step of context `c`, whose request has expansion `e`. It changes nothing where the context's step
is not enabled (R211 "Blocked"). -/
def microStep (e : Expansion) (c : Nat) (x : WaitExit) (s : State) : State :=
  match (s.caller c).pos with
  | .idle => s
  | .validate => stepValidate e c s
  | .sub => stepSub c s
  | .acquire => stepAcquire e c s
  | .check => stepCheck e c s
  | .fill => stepFill e c s
  | .waitSample => stepWaitSample c s
  | .waitRegister => stepWaitRegister c s
  | .waitSuspend => stepWaitSuspend c x s
  | .waitDeregister => stepWaitDeregister c s
  | .xfer => stepXfer e c s
  | .deliver => stepDeliver e c s
  | .release r => stepRelease e c r s
  | .lineLow => stepLineLow c s
  | .hold => stepHold c s
  | .lineHigh => stepLineHigh c s
  | .ret r => stepReturn e c r s

/-- The exit a run takes at `WaitSuspend`: the signal exit if it is enabled, else the observed-idle exit. A single
micro-step may take either (log entry 25). -/
def State.firstExit (s : State) (c : Nat) : WaitExit :=
  if s.woken (s.caller c) then .signal else .observedIdle

/-- `n` micro-steps of context `c`; a context that has returned or is blocked takes none. -/
def runSteps (e : Expansion) (c : Nat) : Nat → State → State
  | 0, s => s
  | n + 1, s => runSteps e c n (microStep e c (s.firstExit c) s)

/-- R17: context `c` issues a request; nothing where one of its own is in progress. -/
def issue (i : Instr) (e : Expansion) (c : Nat) (s : State) : State :=
  match (s.caller c).req with
  | none => s.setCaller c { Caller.idle with req := some i, pos := e.start }
  | some _ => s

/-- A request `i` with expansion `e`, issued by the active context and run until it returns or blocks. R193: an
instance with `C < 2` has no step. R17: a context with a request in progress issues no other. -/
def runRequest (i : Instr) (e : Expansion) (s : State) : Host.Outcome State Fault Refusal :=
  if s.cfg.capacity < 2 then .refused .capacityBelowTwo
  else
    match (s.caller s.active).req with
    | some _ => .next s
    | none => .next (runSteps e s.active e.budget (issue i e s.active s))

/-- The positions between a primitive's capacity check and its release: the buffers are its own (R69). -/
def Pos.usesBuffers : Pos → Bool
  | .fill | .waitSample | .waitRegister | .waitSuspend | .waitDeregister | .xfer | .deliver => true
  | .idle | .validate | .sub | .acquire | .check | .release _ | .lineLow | .hold | .lineHigh | .ret _ => false

/-- The positions at which a context holds `excl` (R102, R103). -/
def Pos.holdsExcl : Pos → Bool
  | .check | .release _ => true
  | .fill | .waitSample | .waitRegister | .waitSuspend | .waitDeregister | .xfer | .deliver => true
  | .idle | .validate | .sub | .acquire | .lineLow | .hold | .lineHigh | .ret _ => false

/-- R43: context `c` holds `excl`. -/
def State.holds (s : State) (c : Nat) : Bool := (s.caller c).pos.holdsExcl

/-- R47: context `c` is past a capacity check its primitive cannot have passed: its next accesses would be to buffer
slots that do not exist. -/
def overruns (e : Expansion) (c : Nat) (s : State) : Bool :=
  (s.caller c).pos.usesBuffers &&
    match e.primitive (s.caller c) with
    | some p => decide (s.cfg.capacity < p.need)
    | none => false

end Sys2Proof.Machine
end

