-- ==== Sys2Proof/Machine/Device.lean ====
section
/-! DEFINITION. Device information and VCOM (43_command_set.md sections 3 and 4). -/

namespace Sys2Proof.Machine

/-- R159: GET_DEVICE_INFO, then the fixed block of 20 words. -/
def expandGetDeviceInfo : Expansion :=
  .composite [.sendCommand opGetDeviceInfo, .readData Config.devInfoWords] .info .keeps

/-- R164: `Validate`, then SET_VCOM with the parameters `[1, vcomWord v]`. -/
def expandSetVcom (v : Rat) : Expansion :=
  { start := .validate
    argumentOk := vcomInRange v
    prims := [.sendCommandParams opSetVcom [vcomModeSet, vcomWord v]]
    conversion := .none
    power := .keeps }

/-- R167: SET_VCOM with the parameter `[0]`, then one data word. -/
def expandGetVcom : Expansion := .composite [.sendCommandParams opSetVcom [vcomModeGet], .readData 1] .volts .keeps

/-- `getDeviceInfo` (R159). -/
def execGetDeviceInfo (s : State) : Host.Outcome State Fault Refusal := runRequest .getDeviceInfo expandGetDeviceInfo s

/-- `setVcom v` (R164). -/
def execSetVcom (v : Rat) (s : State) : Host.Outcome State Fault Refusal := runRequest (.setVcom v) (expandSetVcom v) s

/-- `getVcom` (R167). -/
def execGetVcom (s : State) : Host.Outcome State Fault Refusal := runRequest .getVcom expandGetVcom s

end Sys2Proof.Machine
end

