-- ==== Sys2Proof/Machine/FramerRequests.lean ====
section
/-! DEFINITION. The four framer primitives as requests (R100, R108 to R111): each its expansion and its meaning. -/

namespace Sys2Proof.Machine

/-- R108, R120. -/
def expandSendCommand (op : Word) : Expansion := .raw (.sendCommand op) .none (rawPowerEffect op)

/-- R109, R120. -/
def expandSendCommandParams (op : Word) (ps : List Word) : Expansion :=
  .raw (.sendCommandParams op ps) .none (rawPowerEffect op)

/-- R110. -/
def expandWriteData (ds : List Word) : Expansion := .raw (.writeData ds) .none .keeps

/-- R111. -/
def expandReadData (len : Nat) : Expansion := .raw (.readData len) .words .keeps

/-- `sendCommand op` (R108). -/
def execSendCommand (op : Word) (s : State) : Host.Outcome State Fault Refusal :=
  runRequest (.sendCommand op) (expandSendCommand op) s

/-- `sendCommandParams op, ps` (R109). -/
def execSendCommandParams (op : Word) (ps : List Word) (s : State) : Host.Outcome State Fault Refusal :=
  runRequest (.sendCommandParams op ps) (expandSendCommandParams op ps) s

/-- `writeData ds` (R110). -/
def execWriteData (ds : List Word) (s : State) : Host.Outcome State Fault Refusal :=
  runRequest (.writeData ds) (expandWriteData ds) s

/-- `readData len` (R111). -/
def execReadData (len : Nat) (s : State) : Host.Outcome State Fault Refusal :=
  runRequest (.readData len) (expandReadData len) s

end Sys2Proof.Machine
end

