-- ==== Sys2Proof/Machine/FrameRows.lean ====
section
/-! DEFINITION. The frame rows of the opcode table (R81, R85). A frame reaches the bus only inside a framer primitive
(R100), so a frame run on its own is the raw primitive that sends exactly that frame (log entry 4): a CMD frame is
`sendCommand` of its opcode (R108), a PARAM frame is the one-word `writeData` it equals on the wire (R83), a WDATA frame
is `writeData` (R110), an RDATA frame is `readData` (R111). -/

namespace Sys2Proof.Machine

/-- The CMD frame WAKE_UP (R85, R108). -/
def execCmdWakeUp (s : State) : Host.Outcome State Fault Refusal :=
  runRequest (.sendCommand opWakeUp) (expandSendCommand opWakeUp) s

/-- The CMD frame STANDBY (R85, R108). -/
def execCmdStandby (s : State) : Host.Outcome State Fault Refusal :=
  runRequest (.sendCommand opStandby) (expandSendCommand opStandby) s

/-- The CMD frame SLEEP (R85, R108). -/
def execCmdSleep (s : State) : Host.Outcome State Fault Refusal :=
  runRequest (.sendCommand opSleep) (expandSendCommand opSleep) s

/-- The CMD frame READ_REGISTER (R85, R108). -/
def execCmdReadRegister (s : State) : Host.Outcome State Fault Refusal :=
  runRequest (.sendCommand opReadRegister) (expandSendCommand opReadRegister) s

/-- The CMD frame WRITE_REGISTER (R85, R108). -/
def execCmdWriteRegister (s : State) : Host.Outcome State Fault Refusal :=
  runRequest (.sendCommand opWriteRegister) (expandSendCommand opWriteRegister) s

/-- The CMD frame LOAD_IMAGE_AREA (R85, R108). -/
def execCmdLoadImageArea (s : State) : Host.Outcome State Fault Refusal :=
  runRequest (.sendCommand opLoadImageArea) (expandSendCommand opLoadImageArea) s

/-- The CMD frame END_LOAD_IMAGE (R85, R108). -/
def execCmdEndLoadImage (s : State) : Host.Outcome State Fault Refusal :=
  runRequest (.sendCommand opEndLoadImage) (expandSendCommand opEndLoadImage) s

/-- The CMD frame DISPLAY_AREA (R85, R108). -/
def execCmdDisplayArea (s : State) : Host.Outcome State Fault Refusal :=
  runRequest (.sendCommand opDisplayArea) (expandSendCommand opDisplayArea) s

/-- The CMD frame SET_VCOM (R85, R108). -/
def execCmdSetVcom (s : State) : Host.Outcome State Fault Refusal :=
  runRequest (.sendCommand opSetVcom) (expandSendCommand opSetVcom) s

/-- The CMD frame GET_DEVICE_INFO (R85, R108). -/
def execCmdGetDeviceInfo (s : State) : Host.Outcome State Fault Refusal :=
  runRequest (.sendCommand opGetDeviceInfo) (expandSendCommand opGetDeviceInfo) s

/-- The PARAM frame `[0x0000, p]` as a transaction of its own (R83, R109). -/
def execParam (p : Word) (s : State) : Host.Outcome State Fault Refusal :=
  runRequest (.writeData [p]) (expandWriteData [p]) s

/-- The WDATA frame `[0x0000] ++ ds` (R110). -/
def execWdata (ds : List Word) (s : State) : Host.Outcome State Fault Refusal :=
  runRequest (.writeData ds) (expandWriteData ds) s

/-- The RDATA frame of `len + 2` words (R111). -/
def execRdata (len : Nat) (s : State) : Host.Outcome State Fault Refusal :=
  runRequest (.readData len) (expandReadData len) s

end Sys2Proof.Machine
end

