-- ==== Sys2Proof/Machine/Registers.lean ====
section
/-! DEFINITION. The register access layer (42_register_access.md). -/

namespace Sys2Proof.Machine

/-- R146: WRITE_REGISTER with the parameters `[addr, val]`. -/
def writeRegisterPrim (addr val : Word) : Primitive := .sendCommandParams opWriteRegister [addr, val]

/-- R147: READ_REGISTER with the parameter `[addr]`, then one data word. -/
def readRegisterPrims (addr : Word) : List Primitive := [.sendCommandParams opReadRegister [addr], .readData 1]

/-- R146. -/
def expandWriteRegister (addr val : Word) : Expansion := .composite [writeRegisterPrim addr val] .none .keeps

/-- R147. -/
def expandReadRegister (addr : Word) : Expansion := .composite (readRegisterPrims addr) .register .keeps

/-- `writeRegister addr, val` (R146). -/
def execWriteRegister (addr val : Word) (s : State) : Host.Outcome State Fault Refusal :=
  runRequest (.writeRegister addr val) (expandWriteRegister addr val) s

/-- `readRegister addr` (R147). -/
def execReadRegister (addr : Word) (s : State) : Host.Outcome State Fault Refusal :=
  runRequest (.readRegister addr) (expandReadRegister addr) s

end Sys2Proof.Machine
end

