-- ==== Sys2Proof/Machine/Panel.lean ====
section
/-! DEFINITION. Parameter pack, readiness, image load and refresh (43_command_set.md sections 5 and 6). -/

namespace Sys2Proof.Machine

/-- R169: `writeRegister REG_PACK, VAL_PACK`. -/
def expandEnableParameterPack (cfg : Config) : Expansion :=
  .composite [writeRegisterPrim cfg.regPack cfg.valPack] .none .keeps

/-- R170: `readRegister REG_LUT_STATUS`; ready iff the word is zero. -/
def expandIsDisplayReady (cfg : Config) : Expansion := .composite (readRegisterPrims cfg.regLutStatus) .ready .keeps

/-- R171, R172: the high half of the address, the low half, LOAD_IMAGE_AREA, the whole payload, END_LOAD_IMAGE. -/
def expandWriteImage (cfg : Config) (addr : Addr32) (pixels : List Word) (x y w h : Word) : Expansion :=
  .composite
    [ writeRegisterPrim (regImgHigh cfg) (addrHigh addr),
      writeRegisterPrim cfg.regImgBase (addrLow addr),
      .sendCommandParams opLoadImageArea [cfg.imageFormat, x, y, w, h],
      .writeData pixels,
      .sendCommand opEndLoadImage ]
    .none .keeps

/-- R173: DISPLAY_AREA in grayscale mode. -/
def expandDisplay (x y w h : Word) : Expansion :=
  .composite [.sendCommandParams opDisplayArea [x, y, w, h, modeGrayscale]] .none .keeps

/-- R174: DISPLAY_AREA in clear mode. -/
def expandClear (x y w h : Word) : Expansion :=
  .composite [.sendCommandParams opDisplayArea [x, y, w, h, modeClear]] .none .keeps

/-- `enableParameterPack` (R169). -/
def execEnableParameterPack (s : State) : Host.Outcome State Fault Refusal :=
  runRequest .enableParameterPack (expandEnableParameterPack s.cfg) s

/-- `isDisplayReady` (R170). -/
def execIsDisplayReady (s : State) : Host.Outcome State Fault Refusal :=
  runRequest .isDisplayReady (expandIsDisplayReady s.cfg) s

/-- `writeImage addr, pixels, x, y, w, h` (R171). -/
def execWriteImage (addr : Addr32) (pixels : List Word) (x y w h : Word) (s : State) :
    Host.Outcome State Fault Refusal :=
  runRequest (.writeImage addr pixels x y w h) (expandWriteImage s.cfg addr pixels x y w h) s

/-- `display x, y, w, h` (R173). -/
def execDisplay (x y w h : Word) (s : State) : Host.Outcome State Fault Refusal :=
  runRequest (.display x y w h) (expandDisplay x y w h) s

/-- `clear x, y, w, h` (R174). -/
def execClear (x y w h : Word) (s : State) : Host.Outcome State Fault Refusal :=
  runRequest (.clear x y w h) (expandClear x y w h) s

end Sys2Proof.Machine
end

