-- ==== Sys2Proof/Machine/PowerCommands.lean ====
section
/-! DEFINITION. The power-state commands and the reset of the controller (43_command_set.md sections 1 and 2). -/

namespace Sys2Proof.Machine

/-- R152, R155. -/
def expandWakeUp : Expansion := .composite [.sendCommand opWakeUp] .none (.enters .active)

/-- R153, R155. -/
def expandStandby : Expansion := .composite [.sendCommand opStandby] .none (.enters .standby)

/-- R154, R155. -/
def expandSleep : Expansion := .composite [.sendCommand opSleep] .none (.enters .sleep)

/-- R157: the three line steps, which are its sub-steps 0, 1 and 2 (R39); no primitive. -/
def expandReset : Expansion :=
  { start := .lineLow, argumentOk := true, prims := [], conversion := .none, power := .keeps }

/-- `wakeUp` (R152). -/
def execWakeUp (s : State) : Host.Outcome State Fault Refusal := runRequest .wakeUp expandWakeUp s

/-- `standby` (R153). -/
def execStandby (s : State) : Host.Outcome State Fault Refusal := runRequest .standby expandStandby s

/-- `sleep` (R154). -/
def execSleep (s : State) : Host.Outcome State Fault Refusal := runRequest .sleep expandSleep s

/-- `reset` (R157, R158). -/
def execReset (s : State) : Host.Outcome State Fault Refusal := runRequest .reset expandReset s

end Sys2Proof.Machine
end

