-- ==== Sys2Proof/Machine/Moves.lean ====
section
/-! DEFINITION. The request an instruction is issued as, the expansion of every request (R98), and the moves that are
not a whole instruction: a request issued without running, a caller's micro-steps, the environment's and the notifier's
moves. -/

namespace Sys2Proof.Machine

/-- The request kind of R18 an instruction is issued as: itself, and for a frame row the raw primitive that sends
exactly that frame (log entry 4). -/
def asRequest : Instr → Instr
  | .cmdWakeUp => .sendCommand opWakeUp
  | .cmdStandby => .sendCommand opStandby
  | .cmdSleep => .sendCommand opSleep
  | .cmdReadRegister => .sendCommand opReadRegister
  | .cmdWriteRegister => .sendCommand opWriteRegister
  | .cmdLoadImageArea => .sendCommand opLoadImageArea
  | .cmdEndLoadImage => .sendCommand opEndLoadImage
  | .cmdDisplayArea => .sendCommand opDisplayArea
  | .cmdSetVcom => .sendCommand opSetVcom
  | .cmdGetDeviceInfo => .sendCommand opGetDeviceInfo
  | .param p => .writeData [p]
  | .wdata ds => .writeData ds
  | .rdata len => .readData len
  | .sendCommand op => .sendCommand op
  | .sendCommandParams op ps => .sendCommandParams op ps
  | .writeData ds => .writeData ds
  | .readData len => .readData len
  | .writeRegister addr val => .writeRegister addr val
  | .readRegister addr => .readRegister addr
  | .wakeUp => .wakeUp
  | .standby => .standby
  | .sleep => .sleep
  | .reset => .reset
  | .getDeviceInfo => .getDeviceInfo
  | .setVcom v => .setVcom v
  | .getVcom => .getVcom
  | .enableParameterPack => .enableParameterPack
  | .isDisplayReady => .isDisplayReady
  | .writeImage addr px x y w h => .writeImage addr px x y w h
  | .display x y w h => .display x y w h
  | .clear x y w h => .clear x y w h

/-- R98: the expansion of an instruction, under a configuration. -/
def expansionOf (cfg : Config) : Instr → Expansion
  | .cmdWakeUp => expandSendCommand opWakeUp
  | .cmdStandby => expandSendCommand opStandby
  | .cmdSleep => expandSendCommand opSleep
  | .cmdReadRegister => expandSendCommand opReadRegister
  | .cmdWriteRegister => expandSendCommand opWriteRegister
  | .cmdLoadImageArea => expandSendCommand opLoadImageArea
  | .cmdEndLoadImage => expandSendCommand opEndLoadImage
  | .cmdDisplayArea => expandSendCommand opDisplayArea
  | .cmdSetVcom => expandSendCommand opSetVcom
  | .cmdGetDeviceInfo => expandSendCommand opGetDeviceInfo
  | .param p => expandWriteData [p]
  | .wdata ds => expandWriteData ds
  | .rdata len => expandReadData len
  | .sendCommand op => expandSendCommand op
  | .sendCommandParams op ps => expandSendCommandParams op ps
  | .writeData ds => expandWriteData ds
  | .readData len => expandReadData len
  | .writeRegister addr val => expandWriteRegister addr val
  | .readRegister addr => expandReadRegister addr
  | .wakeUp => expandWakeUp
  | .standby => expandStandby
  | .sleep => expandSleep
  | .reset => expandReset
  | .getDeviceInfo => expandGetDeviceInfo
  | .setVcom v => expandSetVcom v
  | .getVcom => expandGetVcom
  | .enableParameterPack => expandEnableParameterPack cfg
  | .isDisplayReady => expandIsDisplayReady cfg
  | .writeImage addr px x y w h => expandWriteImage cfg addr px x y w h
  | .display x y w h => expandDisplay x y w h
  | .clear x y w h => expandClear x y w h

/-- The move `start`: context `c` issues an instruction and takes no further step yet (R17). -/
def startMove (c : Nat) (i : Instr) (s : State) : State := issue (asRequest i) (expansionOf s.cfg i) c s

/-- The move `advance`: one micro-step of context `c`, if it has a request in progress. -/
def advanceMove (c : Nat) (x : WaitExit) (s : State) : Host.Outcome State Fault Refusal :=
  match (s.caller c).req with
  | none => .next s
  | some i =>
    let e := expansionOf s.cfg i
    if overruns e c s then .fault .bufferIndex else .next (microStep e c x s)

/-- The move `run`: micro-steps of context `c` until its request returns or blocks. -/
def runMove (c : Nat) (s : State) : Host.Outcome State Fault Refusal :=
  match (s.caller c).req with
  | none => .next s
  | some i =>
    let e := expansionOf s.cfg i
    if overruns e c s then .fault .bufferIndex else .next (runSteps e c e.budget s)

/-- The next move and the state without it: the head of the input queue, and where the queue is empty the next free
move (log entry 2). -/
def takeMove (s : State) : Move × State :=
  match s.inputs with
  | m :: ms => (m, { s with inputs := ms })
  | [] => (Config.freeMove s.ticks, { s with ticks := s.ticks + 1 })

/-- The first context, from `n` on, with no request in progress; `d` if there is none. -/
def firstIdle (d : Nat) : Nat → List Caller → Nat
  | _, [] => d
  | n, u :: us => if u.req = none then n else firstIdle d (n + 1) us

/-- `s` with the words of a frame as its next input, for the first context that is free to take it. -/
def withFrameInput (s : State) (ws : List Word) : State :=
  { s with inputs := .frame (firstIdle s.active 0 s.callers) ws :: s.inputs }

end Sys2Proof.Machine
end

