-- ==== Sys2Proof/Machine/Dispatch.lean ====
section
/-! DEFINITION. One arm for each instruction: its meaning. -/

namespace Sys2Proof.Machine

/-- The meaning of an instruction, run by the active context. -/
def exec (i : Instr) (s : State) : Host.Outcome State Fault Refusal :=
  match i with
  | .cmdWakeUp => Sys2Proof.Machine.execCmdWakeUp s
  | .cmdStandby => Sys2Proof.Machine.execCmdStandby s
  | .cmdSleep => Sys2Proof.Machine.execCmdSleep s
  | .cmdReadRegister => Sys2Proof.Machine.execCmdReadRegister s
  | .cmdWriteRegister => Sys2Proof.Machine.execCmdWriteRegister s
  | .cmdLoadImageArea => Sys2Proof.Machine.execCmdLoadImageArea s
  | .cmdEndLoadImage => Sys2Proof.Machine.execCmdEndLoadImage s
  | .cmdDisplayArea => Sys2Proof.Machine.execCmdDisplayArea s
  | .cmdSetVcom => Sys2Proof.Machine.execCmdSetVcom s
  | .cmdGetDeviceInfo => Sys2Proof.Machine.execCmdGetDeviceInfo s
  | .param p => Sys2Proof.Machine.execParam p s
  | .wdata ds => Sys2Proof.Machine.execWdata ds s
  | .rdata len => Sys2Proof.Machine.execRdata len s
  | .sendCommand op => Sys2Proof.Machine.execSendCommand op s
  | .sendCommandParams op ps => Sys2Proof.Machine.execSendCommandParams op ps s
  | .writeData ds => Sys2Proof.Machine.execWriteData ds s
  | .readData len => Sys2Proof.Machine.execReadData len s
  | .writeRegister addr val => Sys2Proof.Machine.execWriteRegister addr val s
  | .readRegister addr => Sys2Proof.Machine.execReadRegister addr s
  | .wakeUp => Sys2Proof.Machine.execWakeUp s
  | .standby => Sys2Proof.Machine.execStandby s
  | .sleep => Sys2Proof.Machine.execSleep s
  | .reset => Sys2Proof.Machine.execReset s
  | .getDeviceInfo => Sys2Proof.Machine.execGetDeviceInfo s
  | .setVcom v => Sys2Proof.Machine.execSetVcom v s
  | .getVcom => Sys2Proof.Machine.execGetVcom s
  | .enableParameterPack => Sys2Proof.Machine.execEnableParameterPack s
  | .isDisplayReady => Sys2Proof.Machine.execIsDisplayReady s
  | .writeImage addr pixels x y w h => Sys2Proof.Machine.execWriteImage addr pixels x y w h s
  | .display x y w h => Sys2Proof.Machine.execDisplay x y w h s
  | .clear x y w h => Sys2Proof.Machine.execClear x y w h s

end Sys2Proof.Machine
end

