-- ==== Sys2Proof/Machine/Step.lean ====
section
/-! DEFINITION. One step of the machine: the next move of its agents (R13), and the input that makes the next step run
an instruction given as table bits. -/

namespace Sys2Proof.Machine

/-- The effect of one move. -/
def applyMove (m : Move) (s : State) : Host.Outcome State Fault Refusal :=
  match m with
  | .request c i => exec i { s with active := c }
  | .line text =>
    match decodeLine text with
    | some (c, i) => exec i { s with active := c }
    | none => .refused .unknownRequest
  | .frame c ws =>
    match decodeFrame ws with
    | .ok i => exec i { s with active := c }
    | .error e => .refused (.unknownFrame e)
  | .start c i => .next (startMove c i s)
  | .advance c x => advanceMove c x s
  | .run c => runMove c s
  | .busyLine l => .next (s.driveBusy l)
  | .answer a => .next (s.pushAnswer a)
  | .invoke h => .next (s.invoke h)

/-- One step: the next move is taken and has its effect. An instance with `C < 2` has no step (R193). -/
def step (s : State) : Host.Outcome State Fault Refusal :=
  if s.cfg.capacity < 2 then .refused .capacityBelowTwo
  else applyMove (takeMove s).1 (takeMove s).2

/-- `s` with the instruction of these table bits as its next input. Bits that are no whole number of words are stored
as the frame of no words, which no step accepts. -/
def State.withFetchWord (s : State) (nbits w : Nat) : State := withFrameInput s ((tableWords nbits w).getD [])

end Sys2Proof.Machine
end

