-- ==== Sys2Proof/Safety.lean ====
section
/-! DEFINITION. The terms claims use: the launch premise and the end of a run (R239, R240), blocked contexts (R211), the
undisturbed run of a list of frames on an idle line, the invariants of the state, and weak fairness of a schedule
(R142). -/

namespace Sys2Proof.Machine

/-! ## Launch, end, blocking -/

/-- R240: the clean launch premise. -/
abbrev State.cleanLaunch (s : State) : Prop :=
  s.excl = false ∧ s.slot = .inert ∧ ∀ u ∈ s.callers, u.req = none ∧ u.pos = .idle ∧ u.hnd = none

/-- R239: every context is at `Idle` and no request is outstanding. -/
abbrev State.runOver (s : State) : Prop := ∀ u ∈ s.callers, u.req = none ∧ u.pos = .idle

/-- R211: context `c` has no enabled step: at `WaitSuspend` with neither exit enabled, or at `Xfer` with no answer. -/
def State.blocked (s : State) (c : Nat) : Bool :=
  match (s.caller c).pos with
  | .waitSuspend => !s.woken (s.caller c) && !s.lineIdle
  | .xfer => s.answers.isEmpty
  | .idle | .validate | .sub | .acquire | .check | .fill | .waitSample | .waitRegister | .waitDeregister => false
  | .deliver | .release _ | .lineLow | .hold | .lineHigh | .ret _ => false

/-- Context `c` has no request in progress, or is blocked. -/
def State.atRest (s : State) (c : Nat) : Bool := (s.caller c).req.isNone || s.blocked c

/-! ## The undisturbed run of frames -/

/-- The first `n` transfers to come are answered, and each succeeds (R122). The answers stand in a queue (log entry 8). -/
abbrev State.busAccepts (s : State) (n : Nat) : Prop :=
  n ≤ s.answers.length ∧ ∀ a ∈ s.answers.take n, a.ok = true

/-- The active context exists and has no request in progress, in an instance that can be constructed (R17, R193). -/
abbrev State.accepting (s : State) : Prop :=
  2 ≤ s.cfg.capacity ∧ s.active < s.callers.length ∧ (s.caller s.active).req = none

/-- The active context accepts a request, `excl` is free, the line is idle, and the bus accepts `n` transfers: where a
request that sends `n` frames runs undisturbed. -/
abbrev State.ready (s : State) (n : Nat) : Prop :=
  s.accepting ∧ s.excl = false ∧ s.lineIdle = true ∧ s.busAccepts n

/-- One frame filled, its idle sample taken on the fast path, and transferred with the next answer (R101, R129). -/
def sendFrame (s : State) (f : Frame) : State :=
  match s.answers with
  | [] => s
  | a :: as =>
    { (State.sampleBusy { s with outBuf := memWrite s.outBuf 0 f.words }).transfer f.len a with answers := as }

/-- Frames sent one after the other. -/
def sendFrames (s : State) (fs : List Frame) : State := fs.foldl sendFrame s

/-- The return of the active context's request with status `r` and value `v`; the ghost cause is `why` (R19). What the
context keeps at `Idle` besides its position is the model's choice (log entries 12 and 28). -/
def returnWith (s : State) (r : Status) (why : Option Cause) (v : Option Value) : State :=
  (s.log (.result s.active r v)).setCaller s.active { Caller.idle with st := r, cause := why }

/-- The return of `ok` with a value. -/
def returnOk (s : State) (v : Option Value) : State := returnWith s .ok none v

/-! ## Invariants -/

/-- R69, R141: at most one context holds `excl`, and only while `excl` is set (R23, R69). -/
def State.exclusive (s : State) : Prop :=
  (∀ c, s.holds c = true → s.excl = true) ∧ ∀ c d, s.holds c = true → s.holds d = true → c = d

/-- R25, R31, R137: handle names are names of handles made (indices of `State.handles`: log entry 10), an edge reaches
each handle once in the record, and a handle has woken its waiter only if it has been delivered. -/
def State.handlesSound (s : State) : Prop :=
  (∀ h ∈ s.edgeTargets, h < s.handles.length) ∧ s.edgeTargets.Nodup ∧
    (∀ h, s.slot = .handler h → h < s.handles.length) ∧
    (∀ c h, (s.caller c).hnd = some h → h < s.handles.length) ∧
    ∀ g ∈ s.handles, g.signalled = true → g.delivered = true

/-- R104: a context past its primitive's capacity check is in a primitive that fits the buffers. -/
def State.fits (s : State) : Prop :=
  ∀ c i, (s.caller c).req = some i → overruns (expansionOf s.cfg i) c s = false

/-! ## Schedules -/

/-- A run: a state for each time, each the step of the one before. -/
def IsRun (run : Nat → State) : Prop := ∀ n, step (run n) = .next (run (n + 1))

/-- R142: weak fairness of the exits of `WaitSuspend`: a context at `WaitSuspend` does not stay there for ever with the
line high, nor for ever with its handle signalled. The schedule is free (log entry 20), so this is a premise a claim may
take, not a rule of the step. -/
def WeaklyFair (run : Nat → State) : Prop :=
  ∀ c n, ((run n).caller c).pos = .waitSuspend →
    ¬ (∀ m, n ≤ m → ((run m).caller c).pos = .waitSuspend ∧ (run m).lineIdle = true) ∧
    ¬ (∀ m, n ≤ m → ((run m).caller c).pos = .waitSuspend ∧ (run m).woken ((run m).caller c) = true)

end Sys2Proof.Machine
end

