-- ==== Sys2Proof/Certificates/Slice0/Obligations.lean ====
section
/-! DEFINITION. The statements for the provers, each from the numbered rules it names. -/

open Sys2Proof Sys2Proof.Machine

/-! ## Encoding -/

/-- R81, R85, R53: the words the encoder gives a well-formed instruction decode to it, with every operand, and so do
their bytes in either wire order; and an RDATA frame decodes whatever its stale words are (R63). The frame rows and the
raw command whose opcode is in no row have words; a one-word WDATA is not well-formed, since its words are PARAM's
(`OneWordWdataIsParam`). Which row the decoder answers where several share words, and `sendCommand` for an opcode in no
row, are the model's choice (log entry 17), and so are the zeros the encoder writes for stale words (log entry 27). -/
def Obligations.FrameRoundTrip : Prop :=
  (∀ (i : Instr) (ws : List Word), i.wellFormed = true → encodeFrame i = some ws →
    decodeFrame ws = .ok i ∧ ∀ o, decodeBytes o (bytesOfWords o ws) = .ok i) ∧
  ∀ stale : List Word,
    decodeFrame (0x1000 :: 0x0000 :: stale) = .ok (.rdata stale.length) ∧
    ∀ o, decodeBytes o (bytesOfWords o (0x1000 :: 0x0000 :: stale)) = .ok (.rdata stale.length)

/-- R83: a one-word WDATA frame has the words of a PARAM frame; that the decoder answers PARAM for them is the model's
choice (log entry 17). -/
def Obligations.OneWordWdataIsParam : Prop :=
  ∀ p : Word, encodeFrame (.wdata [p]) = encodeFrame (.param p) ∧ encodeFrame (.param p) = some [0x0000, p] ∧
    decodeFrame [0x0000, p] = .ok (.param p)

/-- R82, R92, R96: words that decode are the words of the instruction they decode to, but for the stale words of an
RDATA frame; a preamble other than the three, and a CMD frame of other than two words, decode to nothing. Which
instruction the decoder answers where several share words, and the encoder's zeros for stale words, are the model's
choice (log entries 17, 27). -/
def Obligations.DecodeAcceptsOnlyFrames : Prop :=
  (∀ (ws : List Word) (i : Instr), decodeFrame ws = .ok i →
    encodeFrame i = some ws ∨ ∃ stale, ws = 0x1000 :: 0x0000 :: stale ∧ i = .rdata stale.length) ∧
  (∀ (w : Word) (ws : List Word), w ≠ 0x6000 → w ≠ 0x0000 → w ≠ 0x1000 →
    decodeFrame (w :: ws) = .error (.unknownPreamble w)) ∧
  ∀ ws : List Word, ws.length ≠ 1 → decodeFrame (0x6000 :: ws) = .error .badCommandLength

/-- R18, R97: the tokens of a request line give back its caller context and its request, for every request kind and
every argument; a line without a context names context 0; and `setVcom` also takes an integer. What a token is, and that
an integer is a rational, are the model's choice (log entry 18). -/
def Obligations.RequestTokensRoundTrip : Prop :=
  (∀ (c : Nat) (i : Instr) (ts : List Token), encodeTokens c i = some ts → decodeTokens ts = some (c, i)) ∧
  (∀ (i : Instr) (ts : List Token), encodeRequest i = some ts → decodeTokens ts = some (0, i)) ∧
  ∀ c n : Nat,
    decodeTokens [.num c, .colon, .ident "setVcom", .num n] = some (c, .setVcom (n : Rat)) ∧
    decodeTokens [.ident "setVcom", .num n] = some (0, .setVcom (n : Rat))

/-- R81, R85, R97: words and lines written out from the spec decode to what they stand for. The order of a frame's words
in the table's bits is read from the table's note (log entry 16); that the words of WAKE_UP and of `wakeUp` decode to the
frame row, and two data words to PARAM, is the model's choice (log entry 17). -/
def Obligations.SampleWordsDecode : Prop :=
  decodeTableWord 32 0x60000001 = some .cmdWakeUp ∧ decodeTableWord 32 0x60000302 = some .cmdGetDeviceInfo ∧
    decodeTableWord 32 0x00001234 = some (.param 0x1234) ∧ decodeTableWord 32 0x10000000 = some (.rdata 0) ∧
    decodeLine (ascii "display 0, 0, 100, 100") = some (0, .display 0 0 100 100) ∧
    decodeLine (ascii "readData 3") = some (0, .readData 3) ∧ decodeLine (ascii "sendData 3") = none

/-! ## Steps and construction -/

/-- R13, R99: a step takes the next input. A request, a request line that decodes and a frame that decodes are run by
`exec` for their context, with that context active; a line or a frame that decodes to nothing is refused by name. The
queue of inputs is the model's choice (log entry 2), and so are the field `active` that names the context `exec` runs on
(log entry 26), the run of a request as one burst (log entry 1), which instruction the words of a frame decode to (log
entry 17) and what a line's text is (log entry 18). -/
def Obligations.StepRunsDecodedInstruction : Prop :=
  ∀ (s : State) (rest : List Move), 2 ≤ s.cfg.capacity →
    (∀ c i, s.inputs = .request c i :: rest → step s = exec i { s with inputs := rest, active := c }) ∧
    (∀ text c i, s.inputs = .line text :: rest → decodeLine text = some (c, i) →
      step s = exec i { s with inputs := rest, active := c }) ∧
    (∀ c ws i, s.inputs = .frame c ws :: rest → decodeFrame ws = .ok i →
      step s = exec i { s with inputs := rest, active := c }) ∧
    (∀ text, s.inputs = .line text :: rest → decodeLine text = none → step s = .refused .unknownRequest) ∧
    ∀ c ws e, s.inputs = .frame c ws :: rest → decodeFrame ws = .error e → step s = .refused (.unknownFrame e)

/-- R44: the state construction leaves (the buffers' contents and the busy level are open). -/
def Obligations.ConstructionState : Prop :=
  ∀ cfg : Config, 2 ≤ cfg.capacity →
    (State.construct cfg).cfg = cfg ∧ (State.construct cfg).outBuf.length = cfg.capacity ∧
    (State.construct cfg).inBuf.length = cfg.capacity ∧ (State.construct cfg).excl = false ∧
    (State.construct cfg).slot = .inert ∧ (State.construct cfg).edgeTargets = [] ∧
    (State.construct cfg).resetLevel = .undriven ∧ (State.construct cfg).power = .unknown ∧
    (State.construct cfg).callers.length = cfg.callers ∧
    (∀ u ∈ (State.construct cfg).callers, u.pos = .idle ∧ u.req = none) ∧ (State.construct cfg).trace = []

/-- R193: an instance with `C < 2` has no step and no request. -/
def Obligations.CapacityBelowTwoRefused : Prop :=
  ∀ (s : State) (i : Instr), s.cfg.capacity < 2 →
    step s = .refused .capacityBelowTwo ∧ exec i s = .refused .capacityBelowTwo

/-! ## Invariants -/

/-- The invariants hold at reset, which is a clean launch state (R240). -/
def Obligations.ResetMeetsInvariants : Prop :=
  State.reset.cleanLaunch ∧ Memory.wf State.reset ∧ State.reset.exclusive ∧ State.reset.handlesSound ∧
    State.reset.fits ∧ State.reset.cfg.wellFormed = true

/-- R22: no step of any agent resizes a buffer. -/
def Obligations.StepKeepsBufferSizes : Prop :=
  ∀ s t : State, Memory.wf s → step s = .next t → Memory.wf t

/-- R23, R69: at most one context holds `excl`, and only while it is set; every step of every agent keeps that. -/
def Obligations.StepKeepsExclusivity : Prop :=
  ∀ s t : State, s.exclusive → step s = .next t → t.exclusive

/-- R22, R69: a context that does not hold `excl` touches no buffer, no handle and not the slot, and records no
sample, no registration and no transfer. -/
def Obligations.BuffersChangeOnlyUnderExclusivity : Prop :=
  ∀ (s : State) (e : Expansion) (c : Nat) (x : WaitExit), s.holds c = false →
    (microStep e c x s).outBuf = s.outBuf ∧ (microStep e c x s).inBuf = s.inBuf ∧
    (microStep e c x s).slot = s.slot ∧ (microStep e c x s).handles = s.handles ∧
    ∃ es, (microStep e c x s).trace = s.trace ++ es ∧
      ∀ ev ∈ es, (∃ l, ev = .line l) ∨ (∃ ms, ev = .delay ms) ∨ ∃ d r v, ev = .result d r v

/-- R25, R31, R137: every step keeps the handles sound (handles are named by index: log entry 10). -/
def Obligations.StepKeepsHandlesSound : Prop :=
  ∀ s t : State, s.handlesSound → step s = .next t → t.handlesSound

/-- R47, R104: every step keeps that a context past its capacity check fits the buffers, and in such a state no step
faults (R211; the fault is the model's own, log entry 19). -/
def Obligations.CapacityCheckGuards : Prop :=
  ∀ s : State, s.fits → (∀ r, step s ≠ .fault r) ∧ ∀ t, step s = .next t → t.fits

/-- R14, R45: no step changes the configuration or the number of contexts, and the trace only grows. -/
def Obligations.StepKeepsConfiguration : Prop :=
  ∀ s t : State, step s = .next t →
    t.cfg = s.cfg ∧ t.callers.length = s.callers.length ∧ s.trace <+: t.trace

/-- R137: a handle once signalled stays signalled, and no step makes a handle unmade. -/
def Obligations.SignalledForEver : Prop :=
  ∀ (s t : State) (h : Nat), step s = .next t → s.signalled h = true → t.signalled h = true

/-! ## Requests that run undisturbed -/

/-- R81, R85, R108, R120 (log entry 4): a CMD frame run on its own is the raw command with its opcode. The fields of the
context at `Idle` are the model's choice (log entries 12, 28). The answers of the bus are a queue (log entry 8). -/
def Obligations.CmdRowsComplete : Prop :=
  ∀ row ∈ ([(.cmdWakeUp, 0x0001), (.cmdStandby, 0x0002), (.cmdSleep, 0x0003), (.cmdReadRegister, 0x0010),
      (.cmdWriteRegister, 0x0011), (.cmdLoadImageArea, 0x0021), (.cmdEndLoadImage, 0x0022),
      (.cmdDisplayArea, 0x0034), (.cmdSetVcom, 0x0039), (.cmdGetDeviceInfo, 0x0302)] : List (Instr × Word)),
    ∀ s : State, s.ready 1 →
      exec row.1 s = .next (returnOk
        { sendFrame s ⟨[0x6000, row.2], 2⟩ with
          power := if row.2 = 0x0001 ∨ row.2 = 0x0002 ∨ row.2 = 0x0003 then .unknown else s.power } none)

/-- R81, R83, R110, R111 (log entry 4): a PARAM, a WDATA and an RDATA frame run on their own. The fields of the context
at `Idle` are the model's choice (log entries 12, 28). The answers of the bus are a queue (log entry 8). -/
def Obligations.DataRowsComplete : Prop :=
  ∀ s : State, s.ready 1 →
    (∀ p, exec (.param p) s = .next (returnOk (sendFrame s ⟨[0x0000, p], 2⟩) none)) ∧
    (∀ ds : List Word, ds.length + 1 ≤ s.cfg.capacity →
      exec (.wdata ds) s = .next (returnOk (sendFrame s ⟨0x0000 :: ds, ds.length + 1⟩) none)) ∧
    ∀ (len : Nat) (d0 d1 : Word) (ws : List Word) (as : List Answer), Memory.wf s → len + 2 ≤ s.cfg.capacity →
      ws.length = len → s.answers = ⟨true, d0 :: d1 :: ws⟩ :: as →
      exec (.rdata len) s = .next (returnOk (sendFrame s ⟨[0x1000, 0x0000], len + 2⟩) (some (.words ws)))

/-- R108, R120. The fields of the context at `Idle` are the model's choice (log entries 12, 28). The answers of the bus
are a queue (log entry 8). -/
def Obligations.SendCommandCompletes : Prop :=
  ∀ (s : State) (op : Word), s.ready 1 →
    exec (.sendCommand op) s = .next (returnOk
      { sendFrame s ⟨[0x6000, op], 2⟩ with
        power := if op = 0x0001 ∨ op = 0x0002 ∨ op = 0x0003 then .unknown else s.power } none)

/-- R109, R113, R120: the command frame, then one frame a parameter, each after its own idle sample. The fields of the
context at `Idle` are the model's choice (log entries 12, 28). The answers of the bus are a queue (log entry 8). -/
def Obligations.SendCommandParamsCompletes : Prop :=
  ∀ (s : State) (op : Word) (ps : List Word), s.ready (1 + ps.length) →
    exec (.sendCommandParams op ps) s = .next (returnOk
      { sendFrames s (⟨[0x6000, op], 2⟩ :: ps.map fun p => ⟨[0x0000, p], 2⟩) with
        power := if op = 0x0001 ∨ op = 0x0002 ∨ op = 0x0003 then .unknown else s.power } none)

/-- R110: a data write that fits. The fields of the context at `Idle` are the model's choice (log entries 12, 28). The
answers of the bus are a queue (log entry 8). -/
def Obligations.WriteDataCompletes : Prop :=
  ∀ (s : State) (ds : List Word), s.ready 1 → ds.length + 1 ≤ s.cfg.capacity →
    exec (.writeData ds) s = .next (returnOk (sendFrame s ⟨0x0000 :: ds, ds.length + 1⟩) none)

/-- R90, R111: a data read that fits delivers the received words after the first two. The fields of the context at
`Idle` are the model's choice (log entries 12, 28). The answers of the bus are a queue (log entry 8). -/
def Obligations.ReadDataCompletes : Prop :=
  ∀ (s : State) (len : Nat) (d0 d1 : Word) (ws : List Word) (as : List Answer), s.ready 1 → Memory.wf s →
    len + 2 ≤ s.cfg.capacity → ws.length = len → s.answers = ⟨true, d0 :: d1 :: ws⟩ :: as →
    exec (.readData len) s = .next (returnOk (sendFrame s ⟨[0x1000, 0x0000], len + 2⟩) (some (.words ws)))

/-- R146, R169: the three frames of a register write, and of the pack-mode write. The fields of the context at `Idle`
are the model's choice (log entries 12, 28). The answers of the bus are a queue (log entry 8). -/
def Obligations.WriteRegisterCompletes : Prop :=
  ∀ s : State, s.ready 3 →
    (∀ addr val : Word, exec (.writeRegister addr val) s =
      .next (returnOk (sendFrames s [⟨[0x6000, 0x0011], 2⟩, ⟨[0x0000, addr], 2⟩, ⟨[0x0000, val], 2⟩]) none)) ∧
    exec .enableParameterPack s =
      .next (returnOk
        (sendFrames s [⟨[0x6000, 0x0011], 2⟩, ⟨[0x0000, s.cfg.regPack], 2⟩, ⟨[0x0000, s.cfg.valPack], 2⟩]) none)

/-- R147, R167, R168, R170: the three frames of a register read, a VCOM query and a readiness poll, and what each makes
of the one word `w` read. The fields of the context at `Idle` are the model's choice (log entries 12, 28). The answers
of the bus are a queue (log entry 8). -/
def Obligations.ReadRequestsComplete : Prop :=
  ∀ (s : State) (a0 a1 : Answer) (d0 d1 w : Word) (as : List Answer), s.ready 3 → Memory.wf s → 3 ≤ s.cfg.capacity →
    s.answers = a0 :: a1 :: ⟨true, [d0, d1, w]⟩ :: as →
    (∀ addr : Word, exec (.readRegister addr) s =
      .next (returnOk (sendFrames s [⟨[0x6000, 0x0010], 2⟩, ⟨[0x0000, addr], 2⟩, ⟨[0x1000, 0x0000], 3⟩])
        (some (.word w)))) ∧
    exec .getVcom s =
      .next (returnOk (sendFrames s [⟨[0x6000, 0x0039], 2⟩, ⟨[0x0000, 0x0000], 2⟩, ⟨[0x1000, 0x0000], 3⟩])
        (some (.volts (-((w.toNat : Rat) / 1000))))) ∧
    exec .isDisplayReady s =
      .next (returnOk
        (sendFrames s [⟨[0x6000, 0x0010], 2⟩, ⟨[0x0000, s.cfg.regLutStatus], 2⟩, ⟨[0x1000, 0x0000], 3⟩])
        (some (.ready (decide (w = 0x0000)))))

/-- R152, R153, R154, R155: the power-state commands on success. The fields of the context at `Idle` are the model's
choice (log entries 12, 28). The answers of the bus are a queue (log entry 8). The tracker changes at the step `Return`
(log entry 13). -/
def Obligations.PowerCommandsComplete : Prop :=
  ∀ s : State, s.ready 1 →
    exec .wakeUp s =
      .next (returnOk { sendFrame s ⟨[0x6000, 0x0001], 2⟩ with power := .active } none) ∧
    exec .standby s =
      .next (returnOk { sendFrame s ⟨[0x6000, 0x0002], 2⟩ with power := .standby } none) ∧
    exec .sleep s = .next (returnOk { sendFrame s ⟨[0x6000, 0x0003], 2⟩ with power := .sleep } none)

/-- R157, R158, R216: `reset` returns `ok` whether or not `excl` is held and whatever the line's level, and changes
the reset line, the power tracker and the trace only. The fields of the context at `Idle` are the model's choice (log
entries 12, 28). -/
def Obligations.ResetCompletes : Prop :=
  ∀ s : State, s.accepting →
    exec .reset s = .next (returnOk
      { s with
        resetLevel := .driven .high
        power := s.cfg.powerAfterReset
        trace := s.trace ++ [.line .low, .delay 10, .line .high] } none)

/-- R159: the device-information query returns the parsed block. The fields of the context at `Idle` are the model's
choice (log entries 12, 28). The answers of the bus are a queue (log entry 8). -/
def Obligations.GetDeviceInfoCompletes : Prop :=
  ∀ (s : State) (a0 : Answer) (d0 d1 : Word) (w : List Word) (as : List Answer) (d : DeviceInfo), s.ready 2 →
    Memory.wf s → 22 ≤ s.cfg.capacity → w.length = 20 → s.answers = a0 :: ⟨true, d0 :: d1 :: w⟩ :: as →
    parseDeviceInfo s.cfg.textOrder w = some d →
    exec .getDeviceInfo s =
      .next (returnOk (sendFrames s [⟨[0x6000, 0x0302], 2⟩, ⟨[0x1000, 0x0000], 22⟩]) (some (.info d)))

/-- R164: a VCOM value in range is sent with mode 1. The fields of the context at `Idle` are the model's choice (log
entries 12, 28). The answers of the bus are a queue (log entry 8). -/
def Obligations.SetVcomCompletes : Prop :=
  ∀ (s : State) (v : Rat), s.ready 3 → -65535 / 1000 ≤ v → v < 0 →
    exec (.setVcom v) s =
      .next (returnOk (sendFrames s [⟨[0x6000, 0x0039], 2⟩, ⟨[0x0000, 0x0001], 2⟩, ⟨[0x0000, vcomWord v], 2⟩]) none)

/-- R171, R172, R54, R58: the fourteen frames of an image load, the high half of the address first. The fields of the
context at `Idle` are the model's choice (log entries 12, 28). The answers of the bus are a queue (log entry 8). -/
def Obligations.WriteImageCompletes : Prop :=
  ∀ (s : State) (addr : Addr32) (px : List Word) (x y w h : Word), s.ready 14 → px.length + 1 ≤ s.cfg.capacity →
    exec (.writeImage addr px x y w h) s =
      .next (returnOk
        (sendFrames s
          [⟨[0x6000, 0x0011], 2⟩, ⟨[0x0000, s.cfg.regImgBase + 2], 2⟩, ⟨[0x0000, addr.extractLsb' 16 16], 2⟩,
            ⟨[0x6000, 0x0011], 2⟩, ⟨[0x0000, s.cfg.regImgBase], 2⟩, ⟨[0x0000, addr.extractLsb' 0 16], 2⟩,
            ⟨[0x6000, 0x0021], 2⟩, ⟨[0x0000, s.cfg.imageFormat], 2⟩, ⟨[0x0000, x], 2⟩, ⟨[0x0000, y], 2⟩,
            ⟨[0x0000, w], 2⟩, ⟨[0x0000, h], 2⟩, ⟨0x0000 :: px, px.length + 1⟩, ⟨[0x6000, 0x0022], 2⟩])
        none)

/-- R173, R174, R180: the six frames of a refresh, in grayscale and in clear mode. The fields of the context at `Idle`
are the model's choice (log entries 12, 28). The answers of the bus are a queue (log entry 8). -/
def Obligations.RefreshCompletes : Prop :=
  ∀ (s : State) (x y w h : Word), s.ready 6 →
    exec (.display x y w h) s =
      .next (returnOk
        (sendFrames s
          [⟨[0x6000, 0x0034], 2⟩, ⟨[0x0000, x], 2⟩, ⟨[0x0000, y], 2⟩, ⟨[0x0000, w], 2⟩, ⟨[0x0000, h], 2⟩,
            ⟨[0x0000, 0x0002], 2⟩]) none) ∧
    exec (.clear x y w h) s =
      .next (returnOk
        (sendFrames s
          [⟨[0x6000, 0x0034], 2⟩, ⟨[0x0000, x], 2⟩, ⟨[0x0000, y], 2⟩, ⟨[0x0000, w], 2⟩, ⟨[0x0000, h], 2⟩,
            ⟨[0x0000, 0x0000], 2⟩]) none)

/-! ## Statuses that are not `ok` -/

/-- R102, R116, R194, R198: while `excl` is held, every request that reaches a framer primitive returns `busy` at once
and changes nothing but its own context and the trace, by its result. The fields of the context at `Idle` are the
model's choice (log entries 12, 28). A frame row is issued as the raw primitive that sends its frame (log entry 4). -/
def Obligations.BusyWhileHeld : Prop :=
  ∀ (s : State) (i : Instr), s.accepting → s.excl = true → i ≠ .reset →
    (∀ v, i = .setVcom v → -65535 / 1000 ≤ v ∧ v < 0) →
    exec i s = .next (returnWith s .busy (some .exclHeld) none)

/-- R164, R166: a VCOM value out of range is an `error` before any bus access, whether or not `excl` is held. The
fields of the context at `Idle` are the model's choice (log entries 12, 28). -/
def Obligations.SetVcomOutOfRangeErrors : Prop :=
  ∀ (s : State) (v : Rat), s.accepting → ¬ (-65535 / 1000 ≤ v ∧ v < 0) →
    exec (.setVcom v) s = .next (returnWith s .error (some .invalidArgument) none)

/-- R104, R118, R119: a data write or read that does not fit is an `error` before any sample and any transfer. The
fields of the context at `Idle` are the model's choice (log entries 12, 28). A frame row is issued as the raw primitive
that sends its frame (log entry 4). -/
def Obligations.OversizedDataErrors : Prop :=
  ∀ s : State, s.accepting → s.excl = false →
    (∀ ds : List Word, s.cfg.capacity < ds.length + 1 →
      exec (.writeData ds) s = .next (returnWith s .error (some .capacity) none) ∧
      exec (.wdata ds) s = .next (returnWith s .error (some .capacity) none)) ∧
    ∀ len : Nat, s.cfg.capacity < len + 2 →
      exec (.readData len) s = .next (returnWith s .error (some .capacity) none) ∧
      exec (.rdata len) s = .next (returnWith s .error (some .capacity) none)

/-- R149, R162, R171, R182: a composite request whose data frame does not fit has sent its earlier frames when it
returns `error`. The fields of the context at `Idle` are the model's choice (log entries 12, 28). The answers of the bus
are a queue (log entry 8). -/
def Obligations.OversizedCompositeErrors : Prop :=
  ∀ s : State,
    (s.ready 2 → s.cfg.capacity < 3 →
      (∀ addr, exec (.readRegister addr) s =
        .next (returnWith (sendFrames s [⟨[0x6000, 0x0010], 2⟩, ⟨[0x0000, addr], 2⟩]) .error (some .capacity) none)) ∧
      exec .getVcom s =
        .next (returnWith (sendFrames s [⟨[0x6000, 0x0039], 2⟩, ⟨[0x0000, 0x0000], 2⟩]) .error (some .capacity) none) ∧
      exec .isDisplayReady s =
        .next (returnWith (sendFrames s [⟨[0x6000, 0x0010], 2⟩, ⟨[0x0000, s.cfg.regLutStatus], 2⟩]) .error
          (some .capacity) none)) ∧
    (s.ready 1 → s.cfg.capacity < 22 →
      exec .getDeviceInfo s =
        .next (returnWith (sendFrame s ⟨[0x6000, 0x0302], 2⟩) .error (some .capacity) none)) ∧
    ∀ (addr : Addr32) (px : List Word) (x y w h : Word), s.ready 12 → s.cfg.capacity < px.length + 1 →
      exec (.writeImage addr px x y w h) s =
        .next (returnWith
          (sendFrames s
            [⟨[0x6000, 0x0011], 2⟩, ⟨[0x0000, s.cfg.regImgBase + 2], 2⟩, ⟨[0x0000, addr.extractLsb' 16 16], 2⟩,
              ⟨[0x6000, 0x0011], 2⟩, ⟨[0x0000, s.cfg.regImgBase], 2⟩, ⟨[0x0000, addr.extractLsb' 0 16], 2⟩,
              ⟨[0x6000, 0x0021], 2⟩, ⟨[0x0000, s.cfg.imageFormat], 2⟩, ⟨[0x0000, x], 2⟩, ⟨[0x0000, y], 2⟩,
              ⟨[0x0000, w], 2⟩, ⟨[0x0000, h], 2⟩])
          .error (some .capacity) none)

/-- R106, R175, R192, R200: the first transfer that fails ends the request with `error`. It is the transfer of frame `f`
of primitive `p`, with the frames `sent` of `p` before it: the frames of the earlier primitives and `sent` were
transferred, `f` was attempted, no later frame is, `excl` is released, and the ghost cause holds the index of `f` within
`p`. Only the primitives up to `p` need fit the buffers. The power tracker changes as the request's effect says
(`PowerTrackerFollowsStatus` says what that is). The fields of the context at `Idle` are the model's choice (log entries
12, 28). The answers of the bus are a queue (log entry 8). A frame row is issued as the raw primitive that sends its
frame (log entry 4). -/
def Obligations.FirstFailureEndsRequest : Prop :=
  ∀ (s : State) (i : Instr) (pre post : List Primitive) (p : Primitive) (sent later : List Frame) (f : Frame)
      (a : Answer) (as : List Answer),
    (∀ v, i = .setVcom v → -65535 / 1000 ≤ v ∧ v < 0) →
    (expansionOf s.cfg i).prims = pre ++ p :: post → p.frames = sent ++ f :: later →
    (∀ q ∈ pre ++ [p], q.need ≤ s.cfg.capacity) →
    s.ready (pre.flatMap Primitive.frames ++ sent).length →
    s.answers.drop (pre.flatMap Primitive.frames ++ sent).length = a :: as → a.ok = false →
    exec i s =
      .next (returnWith
        { sendFrame (sendFrames s (pre.flatMap Primitive.frames ++ sent)) f with
          power := (expansionOf s.cfg i).power.apply .error s.power }
        .error (some (.busFailure sent.length)) none)

/-! ## Waiting -/

/-- R129, R130, R139: on a busy line a request stops at its first wait with `excl` held, a fresh handle registered and
no transfer made; nothing of it runs on until the line or the handle changes. The fresh handle's name, the number of
handles made before, is the model's choice (log entry 10), and so are the fields of the context at `Idle` (log entries
12, 28). A frame row is issued as the raw primitive that sends its frame (log entry 4). -/
def Obligations.BusyLineSuspends : Prop :=
  ∀ (s : State) (i : Instr) (p : Primitive) (f : Frame) (fs : List Frame), s.accepting → s.excl = false →
    s.busyLevel = .low → (∀ v, i = .setVcom v → -65535 / 1000 ≤ v ∧ v < 0) →
    (expansionOf s.cfg i).prims.head? = some p → p.need ≤ s.cfg.capacity → p.frames = f :: fs →
    ∃ t, exec i s = .next t ∧
      t = State.setCaller
        { s with
          outBuf := memWrite s.outBuf 0 f.words
          excl := true
          slot := .handler s.handles.length
          handles := s.handles ++ [⟨false, false⟩]
          trace := s.trace ++ [.sample .low, .register s.handles.length] } s.active
        { Caller.idle with req := some (asRequest i), pos := .waitSuspend, hnd := some s.handles.length } ∧
      t.blocked s.active = true

/-- R212: on an idle line with no answer from the bus a request stops at its first transfer with `excl` held. The queue
of answers (log entry 8) and the fields of the context at `Idle` (log entries 12, 28) are the model's choice. A frame
row is issued as the raw primitive that sends its frame (log entry 4). -/
def Obligations.UnansweredTransferBlocks : Prop :=
  ∀ (s : State) (i : Instr) (p : Primitive) (f : Frame) (fs : List Frame), s.accepting → s.excl = false →
    s.busyLevel = .high → s.answers = [] → (∀ v, i = .setVcom v → -65535 / 1000 ≤ v ∧ v < 0) →
    (expansionOf s.cfg i).prims.head? = some p → p.need ≤ s.cfg.capacity → p.frames = f :: fs →
    ∃ t, exec i s = .next t ∧
      t = State.setCaller
        { s with
          outBuf := memWrite s.outBuf 0 f.words
          excl := true
          trace := s.trace ++ [.sample .high] } s.active
        { Caller.idle with req := some (asRequest i), pos := .xfer } ∧
      t.blocked s.active = true

/-- R129: the fast path: one sample is recorded, and an idle line leads to the transfer at once, a busy one to the
registration; nothing else changes. -/
def Obligations.WaitSampleFastPath : Prop :=
  ∀ (s : State) (c : Nat) (e : Expansion) (x : WaitExit), (s.caller c).pos = .waitSample →
    (s.busyLevel = .high →
      microStep e c x s =
        State.setCaller { s with trace := s.trace ++ [.sample .high] } c { s.caller c with pos := .xfer }) ∧
    (s.busyLevel = .low →
      microStep e c x s =
        State.setCaller { s with trace := s.trace ++ [.sample .low] } c { s.caller c with pos := .waitRegister })

/-- R130: the registration makes a fresh handle, unsignalled and undelivered, waits for it, replaces whatever the slot
held, and appends its event. -/
def Obligations.WaitRegisterMakesHandle : Prop :=
  ∀ (s : State) (c : Nat) (e : Expansion) (x : WaitExit), (s.caller c).pos = .waitRegister →
    ∃ h hs, s.handles[h]? = none ∧ hs[h]? = some ⟨false, false⟩ ∧ (∀ g, g ≠ h → hs[g]? = s.handles[g]?) ∧
      microStep e c x s =
        State.setCaller { s with handles := hs, slot := .handler h, trace := s.trace ++ [.register h] } c
          { s.caller c with hnd := some h, pos := .waitSuspend }

/-- R132: the two exits of `WaitSuspend` and nothing else: the signal exit if the handle is signalled, recording
nothing; the observed-idle exit if the line is high, recording a sample. That a step by an exit which is not enabled
changes nothing is the model's choice (log entry 3). -/
def Obligations.WaitSuspendExits : Prop :=
  ∀ (s : State) (c : Nat) (e : Expansion) (h : Nat), c < s.callers.length → (s.caller c).pos = .waitSuspend →
    (s.caller c).hnd = some h →
    microStep e c .signal s =
      (if s.signalled h then s.setCaller c { s.caller c with pos := .waitDeregister } else s) ∧
    microStep e c .observedIdle s =
      if s.busyLevel = .high then
        (s.log (.sample .high)).setCaller c { s.caller c with pos := .waitDeregister }
      else s

/-- R133: the deregistration makes the slot inert, appends its event, and takes the context to the transfer of the
same frame, without another sample and whatever the line's level; nothing else of the shared state changes. -/
def Obligations.DeregisterGoesToTransfer : Prop :=
  ∀ (s : State) (c : Nat) (e : Expansion) (x : WaitExit), (s.caller c).pos = .waitDeregister →
    ∃ u, microStep e c x s = State.setCaller { s with slot := .inert, trace := s.trace ++ [.deregister] } c u ∧
      u.pos = .xfer ∧ u.k = (s.caller c).k ∧ u.sub = (s.caller c).sub ∧ u.req = (s.caller c).req

/-- R136: `Invoke(h)` is the atomic exchange of `delivered`, and the wake-up if it was not set; it changes nothing
else. -/
def Obligations.InvokeRunsHandler : Prop :=
  ∀ (s : State) (h : Nat) (g : Handle), h ∈ s.edgeTargets → s.handles[h]? = some g →
    s.invoke h = { s with handles := s.handles.set h ⟨true, g.signalled || !g.delivered⟩ }

/-- R135, R137: an invocation of a handle no edge has reached is not enabled, and changes nothing (log entry 3); a second
invocation of a handle changes nothing. -/
def Obligations.InvokeDeliversOnce : Prop :=
  ∀ (s : State) (h : Nat), (h ∉ s.edgeTargets → s.invoke h = s) ∧ (s.invoke h).invoke h = s.invoke h

/-- R130, R131, R138: in every state, an invocation of a handle other than a context's own neither enables nor disables
the signal exit of that context's wait, and leaves the context where it is. And the handle a wait registers is new: it
is not signalled, no edge has reached it, and no invocation of another handle enables the exit. A handle's name, its
index, is the model's choice (log entry 10). -/
def Obligations.StaleInvocationCannotWake : Prop :=
  (∀ (s : State) (c g h : Nat), (s.caller c).hnd = some g → h ≠ g →
    (s.invoke h).caller c = s.caller c ∧ (s.invoke h).woken (s.caller c) = s.woken (s.caller c)) ∧
  ∀ (s : State) (c : Nat) (e : Expansion) (x : WaitExit), s.handlesSound → c < s.callers.length →
    (s.caller c).pos = .waitRegister →
    ((microStep e c x s).caller c).hnd = some s.handles.length ∧
    (microStep e c x s).slot = .handler s.handles.length ∧
    s.handles.length ∉ (microStep e c x s).edgeTargets ∧
    ∀ h, h ≠ s.handles.length →
      ((microStep e c x s).invoke h).woken ((microStep e c x s).caller c) = false

/-- R30, R31, R196: the environment's change of the line reaches the registered handle exactly on a rising edge, once,
and changes nothing else. -/
def Obligations.RisingEdgeReachesHandle : Prop :=
  ∀ (s : State) (l : Level),
    s.driveBusy l = { s with busyLevel := l, edgeTargets := (s.driveBusy l).edgeTargets } ∧
    ∀ h, h ∈ (s.driveBusy l).edgeTargets ↔
      h ∈ s.edgeTargets ∨ s.busyLevel = .low ∧ l = .high ∧ s.slot = .handler h

/-- R31, R132, R133, R136, R144, R196: a command that found the line busy, then a rising edge, the handle's invocation
and the context's steps: it wakes by the signal exit, deregisters, transfers and returns `ok`. The handle's name, the
number of handles made before, is the model's choice (log entry 10); the order of the moves is that of the queue of
inputs (log entry 2). At the move `run` both exits of R132 are enabled, the line being high and the handle signalled:
that the wait ends by the signal exit, so that no second sample stands in the trace, is the choice of a run (log entries
1, 25). The answers of the bus are a queue (log entry 8). -/
def Obligations.SignalledWaitCompletes : Prop :=
  ∀ (s : State) (op : Word) (a : Answer) (as : List Answer), s.accepting → s.excl = false → s.busyLevel = .low →
    Memory.wf s → s.handlesSound → s.answers = a :: as → a.ok = true →
    ∃ t r, Host.Core.run Sys2Proof.core 4
        { s with
          inputs := [.request s.active (.sendCommand op), .busyLine .high, .invoke s.handles.length, .run s.active] } =
          .next t ∧
      t.trace = s.trace ++ [.sample .low, .register s.handles.length, .deregister, .xfer [0x6000, op] r true,
        .result s.active .ok none] ∧
      t.excl = false ∧ t.slot = .inert ∧ t.edgeTargets = s.edgeTargets ++ [s.handles.length] ∧
      t.handles = s.handles ++ [⟨true, true⟩] ∧ (t.caller s.active).pos = .idle

/-! ## Concurrency -/

/-- R70, R199: of two contexts at `Acquire` with `excl` free, the one scheduled first gets it and the other returns
`busy`. The queue of inputs names the schedule (log entry 2). -/
def Obligations.FirstAcquirerWins : Prop :=
  ∀ (s : State) (c d : Nat) (i j : Instr) (x y : WaitExit) (rest : List Move), 2 ≤ s.cfg.capacity → c ≠ d →
    c < s.callers.length → d < s.callers.length → (s.caller c).req = some i → (s.caller d).req = some j →
    (s.caller c).pos = .acquire → (s.caller d).pos = .acquire → s.excl = false →
    s.inputs = .advance c x :: .advance d y :: rest →
    ∃ t r, step s = .next t ∧ step t = .next r ∧ r.excl = true ∧ (r.caller c).pos = .check ∧
      (r.caller d).pos = .ret .busy

/-- R102, R148, R177: the end of a primitive frees `excl`, also between two sub-steps of one request; and at whichever
sub-step `Acquire` then finds it held, the request returns `busy`. -/
def Obligations.CompositeReleasesBetweenSubSteps : Prop :=
  ∀ (s : State) (c : Nat) (e : Expansion) (x : WaitExit), c < s.callers.length →
    ((s.caller c).pos = .release .ok → (s.caller c).sub + 1 < e.prims.length →
      (microStep e c x s).excl = false ∧ ((microStep e c x s).caller c).pos = .sub ∧
      ((microStep e c x s).caller c).sub = (s.caller c).sub + 1) ∧
    ((s.caller c).pos = .acquire → s.excl = true →
      (microStep e c x s).excl = true ∧ ((microStep e c x s).caller c).pos = .ret .busy)

/-- R3, R13, R37: a request run by `exec` is a schedule of atomic steps of its context: its issue, then micro-steps,
each one step of the machine. That `exec` runs them as one burst is the model's choice (log entry 1), and so is the
queue of inputs that names a schedule (log entry 2). A frame row is issued as the raw primitive that sends its frame
(log entry 4). -/
def Obligations.ExecIsScheduleOfAtomicSteps : Prop :=
  ∀ (s : State) (i : Instr), s.accepting →
    ∃ xs : List WaitExit,
      Host.Core.run Sys2Proof.core (xs.length + 1)
        { s with inputs := .start s.active i :: (xs.map fun x => Move.advance s.active x) ++ s.inputs } = exec i s

/-- R38, R112, R211: a request runs until its context has returned or is blocked at `WaitSuspend` or `Xfer`; nothing
else stops it. That `exec` runs on until then is the model's choice (log entry 1). A frame row is issued as the raw
primitive that sends its frame (log entry 4). -/
def Obligations.ExecComesToRest : Prop :=
  ∀ (s : State) (i : Instr), s.accepting → ∃ t, exec i s = .next t ∧ t.atRest s.active = true

/-! ## What an instruction leaves unchanged -/

/-- R20, R21, R33, R64, R114, R143, R186, R216: what no instruction changes, and what only some do: the configuration,
the busy line and its edge record, the model's inputs, every other context, the handles made before, every slot of `out`
past the words its frames fill, every slot of `in` past the words its frames transfer; the reset line but by `reset`,
the power tracker but by the requests of R120 and R155 (those whose effect is not `keeps`, as
`PowerTrackerFollowsStatus` says). The fields `inputs`, `active`, `ticks` and `answers` are the model's own (log entries
2, 8, 26). A frame row is issued as the raw primitive that sends its frame (log entry 4). -/
def Obligations.ExecFrame : Prop :=
  ∀ (s t : State) (i : Instr), exec i s = .next t →
    t.cfg = s.cfg ∧ t.busyLevel = s.busyLevel ∧ t.edgeTargets = s.edgeTargets ∧ t.inputs = s.inputs ∧
    t.active = s.active ∧ t.ticks = s.ticks ∧ t.callers.length = s.callers.length ∧
    (∀ d, d ≠ s.active → t.caller d = s.caller d) ∧ s.trace <+: t.trace ∧ s.handles <+: t.handles ∧
    t.answers <:+ s.answers ∧
    (∀ j : Nat, (∀ f ∈ (expansionOf s.cfg i).frames, f.words.length ≤ j) → t.outBuf[j]? = s.outBuf[j]?) ∧
    (∀ j : Nat, (∀ f ∈ (expansionOf s.cfg i).frames, f.len ≤ j) → t.inBuf[j]? = s.inBuf[j]?) ∧
    (i ≠ .reset → t.resetLevel = s.resetLevel) ∧
    (i ≠ .reset → (expansionOf s.cfg i).power = .keeps → t.power = s.power)

/-- R120, R155, R186: what a request that has returned has done to the power tracker, by its status: a power request
enters its state on `ok`; it and a raw power opcode leave `unknown` on `error`, and nothing changes on `busy`; `reset`
enters the configured state; no other request changes the tracker. The status is read from the context after its return,
where the model keeps it (log entry 28; R34 defines it only during a request). A frame row is issued as the raw
primitive that sends its frame (log entry 4). -/
def Obligations.PowerTrackerFollowsStatus : Prop :=
  ∀ (s t : State) (i : Instr), s.accepting → exec i s = .next t → (t.caller s.active).req = none →
    t.power =
      match asRequest i, (t.caller s.active).st with
      | .reset, _ => s.cfg.powerAfterReset
      | .wakeUp, .ok => .active
      | .standby, .ok => .standby
      | .sleep, .ok => .sleep
      | .wakeUp, .error | .standby, .error | .sleep, .error => .unknown
      | .sendCommand op, .ok | .sendCommand op, .error | .sendCommandParams op _, .ok
      | .sendCommandParams op _, .error => if op = 0x0001 ∨ op = 0x0002 ∨ op = 0x0003 then .unknown else s.power
      | _, _ => s.power

/-! ## Values -/

/-- R164, R165: in range, the VCOM word is the integer nearest to `v * -1000`, halves away from zero, and fits 16 bits
without truncation. -/
def Obligations.VcomWordExact : Prop :=
  ∀ v : Rat, -65535 / 1000 ≤ v → v < 0 →
    0 < v * -1000 ∧ v * -1000 ≤ 65535 ∧
      ((vcomWord v).toNat : Rat) - 1 / 2 ≤ v * -1000 ∧ v * -1000 < ((vcomWord v).toNat : Rat) + 1 / 2

/-- R160: the fields of the device-information block. -/
def Obligations.DeviceInfoFields : Prop :=
  ∀ (o : ByteOrder) (w : List Word), w.length = 20 →
    ∃ d, parseDeviceInfo o w = some d ∧ w[0]? = some d.width ∧ w[1]? = some d.height ∧
      (∃ lo hi, w[2]? = some lo ∧ w[3]? = some hi ∧ d.imageBufferAddress.toNat = hi.toNat * 65536 + lo.toNat) ∧
      d.firmwareVersion = textOf o ((w.drop 4).take 8) ∧ d.lutVersion = textOf o ((w.drop 12).take 8)

/-- R55, R161: text is the bytes of its words in the text byte order, up to the first zero byte, all of them if there
is none. -/
def Obligations.TextStopsAtTerminator : Prop :=
  ∀ (o : ByteOrder) (ws : List Word),
    (∀ (j : Nat) (w : Word), ws[j]? = some w →
      (textBytes o ws)[2 * j]? = some (if o = .lowByteFirst then w.extractLsb' 0 8 else w.extractLsb' 8 8) ∧
      (textBytes o ws)[2 * j + 1]? = some (if o = .lowByteFirst then w.extractLsb' 8 8 else w.extractLsb' 0 8)) ∧
    (textBytes o ws).length = 2 * ws.length ∧ (0 : Byte) ∉ textOf o ws ∧
    (textOf o ws = textBytes o ws ∨ ∃ rest, textBytes o ws = textOf o ws ++ 0 :: rest)

/-- R27, R64: a transfer of `n` words sends `out[0..n)` and records what was sent and received; on success `in[0..n)`
is the `n` words received, on failure they are open, and in both cases `in[n..C)` is unchanged. -/
def Obligations.TransferEffect : Prop :=
  ∀ (s : State) (n : Nat) (a : Answer), Memory.wf s → n ≤ s.cfg.capacity → a.words.length = n →
    (s.transfer n a).trace = s.trace ++ [.xfer (s.outBuf.take n) a.words a.ok] ∧
    (s.transfer n a).outBuf = s.outBuf ∧
    (a.ok = true → (s.transfer n a).inBuf.take n = a.words) ∧
    ∀ j, n ≤ j → (s.transfer n a).inBuf[j]? = s.inBuf[j]?

/-! ## The other moves -/

/-- R13, R17, R30, R135, R212, R214: what a step does with every other move: the environment sets the busy line or has
one more answer to a transfer, the notifier invokes a handle, a context issues a request without running it, and a
context with a request in progress takes one micro-step, or micro-steps up to its budget. Where the queue of inputs is
empty the step takes the free move. The queues and the free move are the model's (log entries 2, 8), and so is that a
context with no request in progress does nothing (log entry 3) and that a step past the buffers' end faults (log entry
19). The fields of a context that has just issued a request, besides the request and its position, are the model's
choice (log entry 12), and a frame row is issued as the raw primitive that sends its frame (log entry 4). A run takes
the signal exit of a wait first (log entries 1, 25). -/
def Obligations.StepTakesOtherMoves : Prop :=
  ∀ (s : State) (rest : List Move), 2 ≤ s.cfg.capacity →
    (∀ l, s.inputs = .busyLine l :: rest → step s = .next (State.driveBusy { s with inputs := rest } l)) ∧
    (∀ a, s.inputs = .answer a :: rest → step s = .next { s with inputs := rest, answers := s.answers ++ [a] }) ∧
    (∀ h, s.inputs = .invoke h :: rest → step s = .next (State.invoke { s with inputs := rest } h)) ∧
    (∀ c i, s.inputs = .start c i :: rest → (s.caller c).req = none →
      step s = .next (State.setCaller { s with inputs := rest } c
        { Caller.idle with req := some (asRequest i), pos := (expansionOf s.cfg i).start })) ∧
    (∀ c i j, s.inputs = .start c i :: rest → (s.caller c).req = some j → step s = .next { s with inputs := rest }) ∧
    (∀ c x i, s.inputs = .advance c x :: rest → (s.caller c).req = some i →
      overruns (expansionOf s.cfg i) c s = false →
      step s = .next (microStep (expansionOf s.cfg i) c x { s with inputs := rest })) ∧
    (∀ c i, s.inputs = .run c :: rest → (s.caller c).req = some i → overruns (expansionOf s.cfg i) c s = false →
      step s =
        .next (runSteps (expansionOf s.cfg i) c (expansionOf s.cfg i).budget { s with inputs := rest })) ∧
    (∀ c x, s.inputs = .advance c x :: rest ∨ s.inputs = .run c :: rest → (s.caller c).req = none →
      step s = .next { s with inputs := rest }) ∧
    (∀ c x i, s.inputs = .advance c x :: rest ∨ s.inputs = .run c :: rest → (s.caller c).req = some i →
      overruns (expansionOf s.cfg i) c s = true → step s = .fault .bufferIndex) ∧
    (s.inputs = [] →
      step s = step { s with inputs := [Config.freeMove s.ticks], ticks := s.ticks + 1 })

/-! ## The sub-steps of `reset` -/

/-- R37, R39, R157: `reset` begins at `LineLow` with sub-step 0, and each of its line steps ends its sub-step with `ok`:
`LineLow` and `Hold` go to the next line step with `sub` counted on by one, `LineHigh`, the last, goes to `Return(ok)`.
What each writes is as R157 says. That the three positions are sub-steps 0, 1 and 2, each in the place of a `Sub(i)`, is
read from R37, R39 and R157 together (log entry 29). An issued request begins with sub-step index 0 (log entry 12). -/
def Obligations.ResetCountsLineSteps : Prop :=
  (∀ (s : State) (c : Nat), c < s.callers.length → (s.caller c).req = none →
    ((startMove c .reset s).caller c).pos = .lineLow ∧ ((startMove c .reset s).caller c).sub = 0) ∧
  ∀ (s : State) (c : Nat) (e : Expansion) (x : WaitExit),
    ((s.caller c).pos = .lineLow →
      microStep e c x s =
        State.setCaller { s with resetLevel := .driven .low, trace := s.trace ++ [.line .low] } c
          { s.caller c with pos := .hold, sub := (s.caller c).sub + 1, st := .ok }) ∧
    ((s.caller c).pos = .hold →
      microStep e c x s =
        State.setCaller { s with trace := s.trace ++ [.delay 10] } c
          { s.caller c with pos := .lineHigh, sub := (s.caller c).sub + 1, st := .ok }) ∧
    ((s.caller c).pos = .lineHigh →
      microStep e c x s =
        State.setCaller
          { s with
            resetLevel := .driven .high
            power := s.cfg.powerAfterReset
            trace := s.trace ++ [.line .high] } c
          { s.caller c with pos := .ret .ok, st := .ok })
end

