-- ==== Sys2Proof/Laws/State.lean ====
section
/-! SUPPORT. What each operation over the state does to each field: one lemma for each field of each operation, so that
no proof unfolds a record update. -/

namespace Sys2Proof.Machine

/-! ## `setCaller` -/

@[simp] theorem State.setCaller_cfg (s : State) (c : Nat) (u : Caller) : (s.setCaller c u).cfg = s.cfg := rfl
@[simp] theorem State.setCaller_outBuf (s : State) (c : Nat) (u : Caller) : (s.setCaller c u).outBuf = s.outBuf := rfl
@[simp] theorem State.setCaller_inBuf (s : State) (c : Nat) (u : Caller) : (s.setCaller c u).inBuf = s.inBuf := rfl
@[simp] theorem State.setCaller_excl (s : State) (c : Nat) (u : Caller) : (s.setCaller c u).excl = s.excl := rfl
@[simp] theorem State.setCaller_slot (s : State) (c : Nat) (u : Caller) : (s.setCaller c u).slot = s.slot := rfl
@[simp] theorem State.setCaller_handles (s : State) (c : Nat) (u : Caller) : (s.setCaller c u).handles = s.handles := rfl
@[simp] theorem State.setCaller_edgeTargets (s : State) (c : Nat) (u : Caller) : (s.setCaller c u).edgeTargets = s.edgeTargets := rfl
@[simp] theorem State.setCaller_resetLevel (s : State) (c : Nat) (u : Caller) : (s.setCaller c u).resetLevel = s.resetLevel := rfl
@[simp] theorem State.setCaller_busyLevel (s : State) (c : Nat) (u : Caller) : (s.setCaller c u).busyLevel = s.busyLevel := rfl
@[simp] theorem State.setCaller_power (s : State) (c : Nat) (u : Caller) : (s.setCaller c u).power = s.power := rfl
@[simp] theorem State.setCaller_callers (s : State) (c : Nat) (u : Caller) : (s.setCaller c u).callers = s.callers.set c u := rfl
@[simp] theorem State.setCaller_trace (s : State) (c : Nat) (u : Caller) : (s.setCaller c u).trace = s.trace := rfl
@[simp] theorem State.setCaller_active (s : State) (c : Nat) (u : Caller) : (s.setCaller c u).active = s.active := rfl
@[simp] theorem State.setCaller_inputs (s : State) (c : Nat) (u : Caller) : (s.setCaller c u).inputs = s.inputs := rfl
@[simp] theorem State.setCaller_answers (s : State) (c : Nat) (u : Caller) : (s.setCaller c u).answers = s.answers := rfl
@[simp] theorem State.setCaller_ticks (s : State) (c : Nat) (u : Caller) : (s.setCaller c u).ticks = s.ticks := rfl
@[simp] theorem State.setCaller_draws (s : State) (c : Nat) (u : Caller) : (s.setCaller c u).draws = s.draws := rfl

/-! ## `log` -/

@[simp] theorem State.log_cfg (s : State) (e : Event) : (s.log e).cfg = s.cfg := rfl
@[simp] theorem State.log_outBuf (s : State) (e : Event) : (s.log e).outBuf = s.outBuf := rfl
@[simp] theorem State.log_inBuf (s : State) (e : Event) : (s.log e).inBuf = s.inBuf := rfl
@[simp] theorem State.log_excl (s : State) (e : Event) : (s.log e).excl = s.excl := rfl
@[simp] theorem State.log_slot (s : State) (e : Event) : (s.log e).slot = s.slot := rfl
@[simp] theorem State.log_handles (s : State) (e : Event) : (s.log e).handles = s.handles := rfl
@[simp] theorem State.log_edgeTargets (s : State) (e : Event) : (s.log e).edgeTargets = s.edgeTargets := rfl
@[simp] theorem State.log_resetLevel (s : State) (e : Event) : (s.log e).resetLevel = s.resetLevel := rfl
@[simp] theorem State.log_busyLevel (s : State) (e : Event) : (s.log e).busyLevel = s.busyLevel := rfl
@[simp] theorem State.log_power (s : State) (e : Event) : (s.log e).power = s.power := rfl
@[simp] theorem State.log_callers (s : State) (e : Event) : (s.log e).callers = s.callers := rfl
@[simp] theorem State.log_trace (s : State) (e : Event) : (s.log e).trace = s.trace ++ [e] := rfl
@[simp] theorem State.log_active (s : State) (e : Event) : (s.log e).active = s.active := rfl
@[simp] theorem State.log_inputs (s : State) (e : Event) : (s.log e).inputs = s.inputs := rfl
@[simp] theorem State.log_answers (s : State) (e : Event) : (s.log e).answers = s.answers := rfl
@[simp] theorem State.log_ticks (s : State) (e : Event) : (s.log e).ticks = s.ticks := rfl
@[simp] theorem State.log_draws (s : State) (e : Event) : (s.log e).draws = s.draws := rfl

/-! ## `releaseExcl` -/

@[simp] theorem State.releaseExcl_cfg (s : State) : s.releaseExcl.cfg = s.cfg := rfl
@[simp] theorem State.releaseExcl_outBuf (s : State) : s.releaseExcl.outBuf = s.outBuf := rfl
@[simp] theorem State.releaseExcl_inBuf (s : State) : s.releaseExcl.inBuf = s.inBuf := rfl
@[simp] theorem State.releaseExcl_excl (s : State) : s.releaseExcl.excl = false := rfl
@[simp] theorem State.releaseExcl_slot (s : State) : s.releaseExcl.slot = s.slot := rfl
@[simp] theorem State.releaseExcl_handles (s : State) : s.releaseExcl.handles = s.handles := rfl
@[simp] theorem State.releaseExcl_edgeTargets (s : State) : s.releaseExcl.edgeTargets = s.edgeTargets := rfl
@[simp] theorem State.releaseExcl_resetLevel (s : State) : s.releaseExcl.resetLevel = s.resetLevel := rfl
@[simp] theorem State.releaseExcl_busyLevel (s : State) : s.releaseExcl.busyLevel = s.busyLevel := rfl
@[simp] theorem State.releaseExcl_power (s : State) : s.releaseExcl.power = s.power := rfl
@[simp] theorem State.releaseExcl_callers (s : State) : s.releaseExcl.callers = s.callers := rfl
@[simp] theorem State.releaseExcl_trace (s : State) : s.releaseExcl.trace = s.trace := rfl
@[simp] theorem State.releaseExcl_active (s : State) : s.releaseExcl.active = s.active := rfl
@[simp] theorem State.releaseExcl_inputs (s : State) : s.releaseExcl.inputs = s.inputs := rfl
@[simp] theorem State.releaseExcl_answers (s : State) : s.releaseExcl.answers = s.answers := rfl
@[simp] theorem State.releaseExcl_ticks (s : State) : s.releaseExcl.ticks = s.ticks := rfl
@[simp] theorem State.releaseExcl_draws (s : State) : s.releaseExcl.draws = s.draws := rfl

/-! ## `sampleBusy` -/

@[simp] theorem State.sampleBusy_cfg (s : State) : s.sampleBusy.cfg = s.cfg := rfl
@[simp] theorem State.sampleBusy_outBuf (s : State) : s.sampleBusy.outBuf = s.outBuf := rfl
@[simp] theorem State.sampleBusy_inBuf (s : State) : s.sampleBusy.inBuf = s.inBuf := rfl
@[simp] theorem State.sampleBusy_excl (s : State) : s.sampleBusy.excl = s.excl := rfl
@[simp] theorem State.sampleBusy_slot (s : State) : s.sampleBusy.slot = s.slot := rfl
@[simp] theorem State.sampleBusy_handles (s : State) : s.sampleBusy.handles = s.handles := rfl
@[simp] theorem State.sampleBusy_edgeTargets (s : State) : s.sampleBusy.edgeTargets = s.edgeTargets := rfl
@[simp] theorem State.sampleBusy_resetLevel (s : State) : s.sampleBusy.resetLevel = s.resetLevel := rfl
@[simp] theorem State.sampleBusy_busyLevel (s : State) : s.sampleBusy.busyLevel = s.busyLevel := rfl
@[simp] theorem State.sampleBusy_power (s : State) : s.sampleBusy.power = s.power := rfl
@[simp] theorem State.sampleBusy_callers (s : State) : s.sampleBusy.callers = s.callers := rfl
@[simp] theorem State.sampleBusy_trace (s : State) : s.sampleBusy.trace = s.trace ++ [.sample s.busyLevel] := rfl
@[simp] theorem State.sampleBusy_active (s : State) : s.sampleBusy.active = s.active := rfl
@[simp] theorem State.sampleBusy_inputs (s : State) : s.sampleBusy.inputs = s.inputs := rfl
@[simp] theorem State.sampleBusy_answers (s : State) : s.sampleBusy.answers = s.answers := rfl
@[simp] theorem State.sampleBusy_ticks (s : State) : s.sampleBusy.ticks = s.ticks := rfl
@[simp] theorem State.sampleBusy_draws (s : State) : s.sampleBusy.draws = s.draws := rfl

/-! ## `writeLine` -/

@[simp] theorem State.writeLine_cfg (s : State) (l : Level) : (s.writeLine l).cfg = s.cfg := rfl
@[simp] theorem State.writeLine_outBuf (s : State) (l : Level) : (s.writeLine l).outBuf = s.outBuf := rfl
@[simp] theorem State.writeLine_inBuf (s : State) (l : Level) : (s.writeLine l).inBuf = s.inBuf := rfl
@[simp] theorem State.writeLine_excl (s : State) (l : Level) : (s.writeLine l).excl = s.excl := rfl
@[simp] theorem State.writeLine_slot (s : State) (l : Level) : (s.writeLine l).slot = s.slot := rfl
@[simp] theorem State.writeLine_handles (s : State) (l : Level) : (s.writeLine l).handles = s.handles := rfl
@[simp] theorem State.writeLine_edgeTargets (s : State) (l : Level) : (s.writeLine l).edgeTargets = s.edgeTargets := rfl
@[simp] theorem State.writeLine_resetLevel (s : State) (l : Level) : (s.writeLine l).resetLevel = .driven l := rfl
@[simp] theorem State.writeLine_busyLevel (s : State) (l : Level) : (s.writeLine l).busyLevel = s.busyLevel := rfl
@[simp] theorem State.writeLine_power (s : State) (l : Level) : (s.writeLine l).power = s.power := rfl
@[simp] theorem State.writeLine_callers (s : State) (l : Level) : (s.writeLine l).callers = s.callers := rfl
@[simp] theorem State.writeLine_trace (s : State) (l : Level) : (s.writeLine l).trace = s.trace ++ [.line l] := rfl
@[simp] theorem State.writeLine_active (s : State) (l : Level) : (s.writeLine l).active = s.active := rfl
@[simp] theorem State.writeLine_inputs (s : State) (l : Level) : (s.writeLine l).inputs = s.inputs := rfl
@[simp] theorem State.writeLine_answers (s : State) (l : Level) : (s.writeLine l).answers = s.answers := rfl
@[simp] theorem State.writeLine_ticks (s : State) (l : Level) : (s.writeLine l).ticks = s.ticks := rfl
@[simp] theorem State.writeLine_draws (s : State) (l : Level) : (s.writeLine l).draws = s.draws := rfl

/-! ## `delay` -/

@[simp] theorem State.delay_cfg (s : State) (ms : Nat) : (s.delay ms).cfg = s.cfg := rfl
@[simp] theorem State.delay_outBuf (s : State) (ms : Nat) : (s.delay ms).outBuf = s.outBuf := rfl
@[simp] theorem State.delay_inBuf (s : State) (ms : Nat) : (s.delay ms).inBuf = s.inBuf := rfl
@[simp] theorem State.delay_excl (s : State) (ms : Nat) : (s.delay ms).excl = s.excl := rfl
@[simp] theorem State.delay_slot (s : State) (ms : Nat) : (s.delay ms).slot = s.slot := rfl
@[simp] theorem State.delay_handles (s : State) (ms : Nat) : (s.delay ms).handles = s.handles := rfl
@[simp] theorem State.delay_edgeTargets (s : State) (ms : Nat) : (s.delay ms).edgeTargets = s.edgeTargets := rfl
@[simp] theorem State.delay_resetLevel (s : State) (ms : Nat) : (s.delay ms).resetLevel = s.resetLevel := rfl
@[simp] theorem State.delay_busyLevel (s : State) (ms : Nat) : (s.delay ms).busyLevel = s.busyLevel := rfl
@[simp] theorem State.delay_power (s : State) (ms : Nat) : (s.delay ms).power = s.power := rfl
@[simp] theorem State.delay_callers (s : State) (ms : Nat) : (s.delay ms).callers = s.callers := rfl
@[simp] theorem State.delay_trace (s : State) (ms : Nat) : (s.delay ms).trace = s.trace ++ [.delay ms] := rfl
@[simp] theorem State.delay_active (s : State) (ms : Nat) : (s.delay ms).active = s.active := rfl
@[simp] theorem State.delay_inputs (s : State) (ms : Nat) : (s.delay ms).inputs = s.inputs := rfl
@[simp] theorem State.delay_answers (s : State) (ms : Nat) : (s.delay ms).answers = s.answers := rfl
@[simp] theorem State.delay_ticks (s : State) (ms : Nat) : (s.delay ms).ticks = s.ticks := rfl
@[simp] theorem State.delay_draws (s : State) (ms : Nat) : (s.delay ms).draws = s.draws := rfl

/-! ## `transfer` -/

@[simp] theorem State.transfer_cfg (s : State) (n : Nat) (a : Answer) : (s.transfer n a).cfg = s.cfg := rfl
@[simp] theorem State.transfer_outBuf (s : State) (n : Nat) (a : Answer) : (s.transfer n a).outBuf = s.outBuf := rfl
@[simp] theorem State.transfer_inBuf (s : State) (n : Nat) (a : Answer) : (s.transfer n a).inBuf = memWrite s.inBuf 0 (if a.ok then response a.words s.draws n else freeWords (s.draws + n) n) := rfl
@[simp] theorem State.transfer_excl (s : State) (n : Nat) (a : Answer) : (s.transfer n a).excl = s.excl := rfl
@[simp] theorem State.transfer_slot (s : State) (n : Nat) (a : Answer) : (s.transfer n a).slot = s.slot := rfl
@[simp] theorem State.transfer_handles (s : State) (n : Nat) (a : Answer) : (s.transfer n a).handles = s.handles := rfl
@[simp] theorem State.transfer_edgeTargets (s : State) (n : Nat) (a : Answer) : (s.transfer n a).edgeTargets = s.edgeTargets := rfl
@[simp] theorem State.transfer_resetLevel (s : State) (n : Nat) (a : Answer) : (s.transfer n a).resetLevel = s.resetLevel := rfl
@[simp] theorem State.transfer_busyLevel (s : State) (n : Nat) (a : Answer) : (s.transfer n a).busyLevel = s.busyLevel := rfl
@[simp] theorem State.transfer_power (s : State) (n : Nat) (a : Answer) : (s.transfer n a).power = s.power := rfl
@[simp] theorem State.transfer_callers (s : State) (n : Nat) (a : Answer) : (s.transfer n a).callers = s.callers := rfl
@[simp] theorem State.transfer_trace (s : State) (n : Nat) (a : Answer) : (s.transfer n a).trace = s.trace ++ [.xfer (memRead s.outBuf 0 n) (response a.words s.draws n) a.ok] := rfl
@[simp] theorem State.transfer_active (s : State) (n : Nat) (a : Answer) : (s.transfer n a).active = s.active := rfl
@[simp] theorem State.transfer_inputs (s : State) (n : Nat) (a : Answer) : (s.transfer n a).inputs = s.inputs := rfl
@[simp] theorem State.transfer_answers (s : State) (n : Nat) (a : Answer) : (s.transfer n a).answers = s.answers := rfl
@[simp] theorem State.transfer_ticks (s : State) (n : Nat) (a : Answer) : (s.transfer n a).ticks = s.ticks := rfl
@[simp] theorem State.transfer_draws (s : State) (n : Nat) (a : Answer) : (s.transfer n a).draws = s.draws + 2 * n := rfl

/-! ## `registerHandle` -/

@[simp] theorem State.registerHandle_cfg (s : State) : s.registerHandle.cfg = s.cfg := rfl
@[simp] theorem State.registerHandle_outBuf (s : State) : s.registerHandle.outBuf = s.outBuf := rfl
@[simp] theorem State.registerHandle_inBuf (s : State) : s.registerHandle.inBuf = s.inBuf := rfl
@[simp] theorem State.registerHandle_excl (s : State) : s.registerHandle.excl = s.excl := rfl
@[simp] theorem State.registerHandle_slot (s : State) : s.registerHandle.slot = .handler s.handles.length := rfl
@[simp] theorem State.registerHandle_handles (s : State) : s.registerHandle.handles = s.handles ++ [{ delivered := false, signalled := false }] := rfl
@[simp] theorem State.registerHandle_edgeTargets (s : State) : s.registerHandle.edgeTargets = s.edgeTargets := rfl
@[simp] theorem State.registerHandle_resetLevel (s : State) : s.registerHandle.resetLevel = s.resetLevel := rfl
@[simp] theorem State.registerHandle_busyLevel (s : State) : s.registerHandle.busyLevel = s.busyLevel := rfl
@[simp] theorem State.registerHandle_power (s : State) : s.registerHandle.power = s.power := rfl
@[simp] theorem State.registerHandle_callers (s : State) : s.registerHandle.callers = s.callers := rfl
@[simp] theorem State.registerHandle_trace (s : State) : s.registerHandle.trace = s.trace ++ [.register s.handles.length] := rfl
@[simp] theorem State.registerHandle_active (s : State) : s.registerHandle.active = s.active := rfl
@[simp] theorem State.registerHandle_inputs (s : State) : s.registerHandle.inputs = s.inputs := rfl
@[simp] theorem State.registerHandle_answers (s : State) : s.registerHandle.answers = s.answers := rfl
@[simp] theorem State.registerHandle_ticks (s : State) : s.registerHandle.ticks = s.ticks := rfl
@[simp] theorem State.registerHandle_draws (s : State) : s.registerHandle.draws = s.draws := rfl

/-! ## `deregister` -/

@[simp] theorem State.deregister_cfg (s : State) : s.deregister.cfg = s.cfg := rfl
@[simp] theorem State.deregister_outBuf (s : State) : s.deregister.outBuf = s.outBuf := rfl
@[simp] theorem State.deregister_inBuf (s : State) : s.deregister.inBuf = s.inBuf := rfl
@[simp] theorem State.deregister_excl (s : State) : s.deregister.excl = s.excl := rfl
@[simp] theorem State.deregister_slot (s : State) : s.deregister.slot = .inert := rfl
@[simp] theorem State.deregister_handles (s : State) : s.deregister.handles = s.handles := rfl
@[simp] theorem State.deregister_edgeTargets (s : State) : s.deregister.edgeTargets = s.edgeTargets := rfl
@[simp] theorem State.deregister_resetLevel (s : State) : s.deregister.resetLevel = s.resetLevel := rfl
@[simp] theorem State.deregister_busyLevel (s : State) : s.deregister.busyLevel = s.busyLevel := rfl
@[simp] theorem State.deregister_power (s : State) : s.deregister.power = s.power := rfl
@[simp] theorem State.deregister_callers (s : State) : s.deregister.callers = s.callers := rfl
@[simp] theorem State.deregister_trace (s : State) : s.deregister.trace = s.trace ++ [.deregister] := rfl
@[simp] theorem State.deregister_active (s : State) : s.deregister.active = s.active := rfl
@[simp] theorem State.deregister_inputs (s : State) : s.deregister.inputs = s.inputs := rfl
@[simp] theorem State.deregister_answers (s : State) : s.deregister.answers = s.answers := rfl
@[simp] theorem State.deregister_ticks (s : State) : s.deregister.ticks = s.ticks := rfl
@[simp] theorem State.deregister_draws (s : State) : s.deregister.draws = s.draws := rfl

/-! ## `driveBusy` -/

@[simp] theorem State.driveBusy_cfg (s : State) (l : Level) : (s.driveBusy l).cfg = s.cfg := rfl
@[simp] theorem State.driveBusy_outBuf (s : State) (l : Level) : (s.driveBusy l).outBuf = s.outBuf := rfl
@[simp] theorem State.driveBusy_inBuf (s : State) (l : Level) : (s.driveBusy l).inBuf = s.inBuf := rfl
@[simp] theorem State.driveBusy_excl (s : State) (l : Level) : (s.driveBusy l).excl = s.excl := rfl
@[simp] theorem State.driveBusy_slot (s : State) (l : Level) : (s.driveBusy l).slot = s.slot := rfl
@[simp] theorem State.driveBusy_handles (s : State) (l : Level) : (s.driveBusy l).handles = s.handles := rfl
@[simp] theorem State.driveBusy_edgeTargets (s : State) (l : Level) : (s.driveBusy l).edgeTargets = reachedBy s.slot s.busyLevel l s.edgeTargets := rfl
@[simp] theorem State.driveBusy_resetLevel (s : State) (l : Level) : (s.driveBusy l).resetLevel = s.resetLevel := rfl
@[simp] theorem State.driveBusy_busyLevel (s : State) (l : Level) : (s.driveBusy l).busyLevel = l := rfl
@[simp] theorem State.driveBusy_power (s : State) (l : Level) : (s.driveBusy l).power = s.power := rfl
@[simp] theorem State.driveBusy_callers (s : State) (l : Level) : (s.driveBusy l).callers = s.callers := rfl
@[simp] theorem State.driveBusy_trace (s : State) (l : Level) : (s.driveBusy l).trace = s.trace := rfl
@[simp] theorem State.driveBusy_active (s : State) (l : Level) : (s.driveBusy l).active = s.active := rfl
@[simp] theorem State.driveBusy_inputs (s : State) (l : Level) : (s.driveBusy l).inputs = s.inputs := rfl
@[simp] theorem State.driveBusy_answers (s : State) (l : Level) : (s.driveBusy l).answers = s.answers := rfl
@[simp] theorem State.driveBusy_ticks (s : State) (l : Level) : (s.driveBusy l).ticks = s.ticks := rfl
@[simp] theorem State.driveBusy_draws (s : State) (l : Level) : (s.driveBusy l).draws = s.draws := rfl

/-! ## `pushAnswer` -/

@[simp] theorem State.pushAnswer_cfg (s : State) (a : Answer) : (s.pushAnswer a).cfg = s.cfg := rfl
@[simp] theorem State.pushAnswer_outBuf (s : State) (a : Answer) : (s.pushAnswer a).outBuf = s.outBuf := rfl
@[simp] theorem State.pushAnswer_inBuf (s : State) (a : Answer) : (s.pushAnswer a).inBuf = s.inBuf := rfl
@[simp] theorem State.pushAnswer_excl (s : State) (a : Answer) : (s.pushAnswer a).excl = s.excl := rfl
@[simp] theorem State.pushAnswer_slot (s : State) (a : Answer) : (s.pushAnswer a).slot = s.slot := rfl
@[simp] theorem State.pushAnswer_handles (s : State) (a : Answer) : (s.pushAnswer a).handles = s.handles := rfl
@[simp] theorem State.pushAnswer_edgeTargets (s : State) (a : Answer) : (s.pushAnswer a).edgeTargets = s.edgeTargets := rfl
@[simp] theorem State.pushAnswer_resetLevel (s : State) (a : Answer) : (s.pushAnswer a).resetLevel = s.resetLevel := rfl
@[simp] theorem State.pushAnswer_busyLevel (s : State) (a : Answer) : (s.pushAnswer a).busyLevel = s.busyLevel := rfl
@[simp] theorem State.pushAnswer_power (s : State) (a : Answer) : (s.pushAnswer a).power = s.power := rfl
@[simp] theorem State.pushAnswer_callers (s : State) (a : Answer) : (s.pushAnswer a).callers = s.callers := rfl
@[simp] theorem State.pushAnswer_trace (s : State) (a : Answer) : (s.pushAnswer a).trace = s.trace := rfl
@[simp] theorem State.pushAnswer_active (s : State) (a : Answer) : (s.pushAnswer a).active = s.active := rfl
@[simp] theorem State.pushAnswer_inputs (s : State) (a : Answer) : (s.pushAnswer a).inputs = s.inputs := rfl
@[simp] theorem State.pushAnswer_answers (s : State) (a : Answer) : (s.pushAnswer a).answers = s.answers ++ [a] := rfl
@[simp] theorem State.pushAnswer_ticks (s : State) (a : Answer) : (s.pushAnswer a).ticks = s.ticks := rfl
@[simp] theorem State.pushAnswer_draws (s : State) (a : Answer) : (s.pushAnswer a).draws = s.draws := rfl

/-! ## `invoke` -/

@[simp] theorem State.invoke_cfg (s : State) (h : Nat) : (s.invoke h).cfg = s.cfg := by
  unfold State.invoke; split <;> rfl
@[simp] theorem State.invoke_outBuf (s : State) (h : Nat) : (s.invoke h).outBuf = s.outBuf := by
  unfold State.invoke; split <;> rfl
@[simp] theorem State.invoke_inBuf (s : State) (h : Nat) : (s.invoke h).inBuf = s.inBuf := by
  unfold State.invoke; split <;> rfl
@[simp] theorem State.invoke_excl (s : State) (h : Nat) : (s.invoke h).excl = s.excl := by
  unfold State.invoke; split <;> rfl
@[simp] theorem State.invoke_slot (s : State) (h : Nat) : (s.invoke h).slot = s.slot := by
  unfold State.invoke; split <;> rfl
@[simp] theorem State.invoke_edgeTargets (s : State) (h : Nat) : (s.invoke h).edgeTargets = s.edgeTargets := by
  unfold State.invoke; split <;> rfl
@[simp] theorem State.invoke_resetLevel (s : State) (h : Nat) : (s.invoke h).resetLevel = s.resetLevel := by
  unfold State.invoke; split <;> rfl
@[simp] theorem State.invoke_busyLevel (s : State) (h : Nat) : (s.invoke h).busyLevel = s.busyLevel := by
  unfold State.invoke; split <;> rfl
@[simp] theorem State.invoke_power (s : State) (h : Nat) : (s.invoke h).power = s.power := by
  unfold State.invoke; split <;> rfl
@[simp] theorem State.invoke_callers (s : State) (h : Nat) : (s.invoke h).callers = s.callers := by
  unfold State.invoke; split <;> rfl
@[simp] theorem State.invoke_trace (s : State) (h : Nat) : (s.invoke h).trace = s.trace := by
  unfold State.invoke; split <;> rfl
@[simp] theorem State.invoke_active (s : State) (h : Nat) : (s.invoke h).active = s.active := by
  unfold State.invoke; split <;> rfl
@[simp] theorem State.invoke_inputs (s : State) (h : Nat) : (s.invoke h).inputs = s.inputs := by
  unfold State.invoke; split <;> rfl
@[simp] theorem State.invoke_answers (s : State) (h : Nat) : (s.invoke h).answers = s.answers := by
  unfold State.invoke; split <;> rfl
@[simp] theorem State.invoke_ticks (s : State) (h : Nat) : (s.invoke h).ticks = s.ticks := by
  unfold State.invoke; split <;> rfl
@[simp] theorem State.invoke_draws (s : State) (h : Nat) : (s.invoke h).draws = s.draws := by
  unfold State.invoke; split <;> rfl

/-! ## Caller contexts -/

/-- Reading a context that exists after it was set. -/
@[simp] theorem State.caller_setCaller_self {s : State} {c : Nat} (h : c < s.callers.length) (u : Caller) :
    (s.setCaller c u).caller c = u := by
  simp [State.caller, State.setCaller, h]

/-- Setting a context leaves every other one alone. -/
theorem State.caller_setCaller_other (s : State) {c d : Nat} (h : c ≠ d) (u : Caller) :
    (s.setCaller c u).caller d = s.caller d := by
  simp [State.caller, State.setCaller, List.getD, List.getElem?_set_ne h]

/-- A context that does not exist cannot be set. -/
theorem State.setCaller_absent {s : State} {c : Nat} (h : s.callers.length ≤ c) (u : Caller) :
    s.setCaller c u = s := by
  simp [State.setCaller, List.set_eq_of_length_le h]

/-- A context that does not exist is idle. -/
theorem State.caller_absent {s : State} {c : Nat} (h : s.callers.length ≤ c) : s.caller c = Caller.idle := by
  simp [State.caller, List.getD, List.getElem?_eq_none h]

/-- The last of two settings of one context stands. -/
@[simp] theorem State.setCaller_setCaller (s : State) (c : Nat) (u v : Caller) :
    (s.setCaller c u).setCaller c v = s.setCaller c v := by
  simp [State.setCaller]

/-- Setting a context to what it is changes nothing. -/
theorem State.setCaller_caller (s : State) (c : Nat) : s.setCaller c (s.caller c) = s := by
  by_cases h : c < s.callers.length
  · have : s.callers.getD c Caller.idle = s.callers[c] := by simp [List.getD, h]
    simp only [State.setCaller, State.caller, this, List.set_getElem_self]
  · exact s.setCaller_absent (Nat.le_of_not_lt h) _

/-- The contexts decide what a context is. -/
theorem State.caller_congr {s t : State} (h : t.callers = s.callers) (c : Nat) : t.caller c = s.caller c := by
  simp [State.caller, h]

/-! ## `toLineStep` -/

@[simp] theorem Caller.toLineStep_req (u : Caller) (p : Pos) : (u.toLineStep p).req = u.req := rfl
@[simp] theorem Caller.toLineStep_pos (u : Caller) (p : Pos) : (u.toLineStep p).pos = p := rfl
@[simp] theorem Caller.toLineStep_k (u : Caller) (p : Pos) : (u.toLineStep p).k = u.k := rfl
@[simp] theorem Caller.toLineStep_sub (u : Caller) (p : Pos) : (u.toLineStep p).sub = u.sub + 1 := rfl
@[simp] theorem Caller.toLineStep_hnd (u : Caller) (p : Pos) : (u.toLineStep p).hnd = u.hnd := rfl
@[simp] theorem Caller.toLineStep_acc (u : Caller) (p : Pos) : (u.toLineStep p).acc = u.acc := rfl
@[simp] theorem Caller.toLineStep_st (u : Caller) (p : Pos) : (u.toLineStep p).st = .ok := rfl
@[simp] theorem Caller.toLineStep_cause (u : Caller) (p : Pos) : (u.toLineStep p).cause = u.cause := rfl

/-! ## What leaves every context alone -/

@[simp] theorem State.caller_log (s : State) (e : Event) (c : Nat) : (s.log e).caller c = s.caller c := rfl
@[simp] theorem State.caller_releaseExcl (s : State) (c : Nat) : s.releaseExcl.caller c = s.caller c := rfl
@[simp] theorem State.caller_sampleBusy (s : State) (c : Nat) : s.sampleBusy.caller c = s.caller c := rfl
@[simp] theorem State.caller_writeLine (s : State) (l : Level) (c : Nat) : (s.writeLine l).caller c = s.caller c := rfl
@[simp] theorem State.caller_delay (s : State) (ms : Nat) (c : Nat) : (s.delay ms).caller c = s.caller c := rfl
@[simp] theorem State.caller_transfer (s : State) (n : Nat) (a : Answer) (c : Nat) : (s.transfer n a).caller c = s.caller c := rfl
@[simp] theorem State.caller_registerHandle (s : State) (c : Nat) : s.registerHandle.caller c = s.caller c := rfl
@[simp] theorem State.caller_deregister (s : State) (c : Nat) : s.deregister.caller c = s.caller c := rfl
@[simp] theorem State.caller_driveBusy (s : State) (l : Level) (c : Nat) : (s.driveBusy l).caller c = s.caller c := rfl
@[simp] theorem State.caller_pushAnswer (s : State) (a : Answer) (c : Nat) : (s.pushAnswer a).caller c = s.caller c := rfl
@[simp] theorem State.caller_invoke (s : State) (h c : Nat) : (s.invoke h).caller c = s.caller c :=
  State.caller_congr (s.invoke_callers h) c

end Sys2Proof.Machine
end

