-- ==== Sys2Proof/Laws/Memory.lean ====
section
/-! SUPPORT. The buffers: a write keeps the length, changes the slots it names and no other, and every operation keeps
`Memory.wf` (R22); the words of a transfer are exactly as many as it moves (R59). -/

namespace Sys2Proof.Machine

/-- R22: a buffer is never resized. -/
@[simp] theorem memWrite_length (buf : List Word) (i : Nat) (ws : List Word) :
    (memWrite buf i ws).length = buf.length := by
  fun_induction memWrite buf i ws <;> simp_all

/-- R10: slot `j` after a write: the word written there, or what it held. -/
theorem memWrite_getElem? (buf : List Word) (i : Nat) (ws : List Word) (j : Nat) :
    (memWrite buf i ws)[j]? =
      if i ≤ j ∧ j < i + ws.length ∧ j < buf.length then ws[j - i]? else buf[j]? := by
  fun_induction memWrite buf i ws generalizing j with
  | case1 => simp
  | case2 => simp
  | case3 b bs w ws ih =>
    cases j with
    | zero => simp
    | succ j => simp [ih]
  | case4 b bs i ws ih =>
    cases j with
    | zero => simp
    | succ j => simp [ih, Nat.add_right_comm i 1]

/-- R114: the slots a write from slot 0 does not reach keep their words. -/
theorem memWrite_keeps (buf ws : List Word) {j : Nat} (h : ws.length ≤ j) :
    (memWrite buf 0 ws)[j]? = buf[j]? := by
  rw [memWrite_getElem?, if_neg (by omega)]

/-- Writing from slot 0 what fits: the words, then the rest of the buffer. -/
theorem memWrite_zero {buf ws : List Word} (h : ws.length ≤ buf.length) :
    memWrite buf 0 ws = ws ++ buf.drop ws.length := by
  induction ws generalizing buf with
  | nil => cases buf <;> simp [memWrite]
  | cons w ws ih =>
    cases buf with
    | nil => simp at h
    | cons b bs => simp [memWrite, ih (by simpa using h)]

/-- A read of what was just written. -/
theorem memRead_memWrite {buf ws : List Word} (h : ws.length ≤ buf.length) :
    memRead (memWrite buf 0 ws) 0 ws.length = ws := by
  simp [memRead, memWrite_zero h]

/-- A read past the first two words of what was just written (R90). -/
theorem memRead_skip {buf r : List Word} {n : Nat} (hr : r.length = n + 2) (h : n + 2 ≤ buf.length) :
    memRead (memWrite buf 0 r) 2 n = r.drop 2 := by
  rw [memRead, memWrite_zero (by omega), List.drop_append_of_le_length (by omega),
    List.take_append_of_le_length (by simp; omega)]
  exact List.take_of_length_le (by simp; omega)

@[simp] theorem drawSlots_length (f : Nat → Word) (i n : Nat) : (drawSlots f i n).length = n := by
  induction n generalizing i with
  | zero => rfl
  | succ n ih => simp [drawSlots, ih]

@[simp] theorem freeWords_length (d n : Nat) : (freeWords d n).length = n := drawSlots_length ..

/-- R27: a response is exactly as long as the transfer. -/
@[simp] theorem response_length (ws : List Word) (d n : Nat) : (response ws d n).length = n := by
  fun_induction response ws d n <;> simp_all

/-- A response is the answer's words where it fixes them all. -/
theorem response_of_length {ws : List Word} {d n : Nat} (h : ws.length = n) : response ws d n = ws := by
  fun_induction response ws d n <;> simp_all

/-- R27, R59: a transfer moves `n` words each way. -/
theorem memRead_length_of_le {buf : List Word} {n : Nat} (h : n ≤ buf.length) : (memRead buf 0 n).length = n := by
  simpa [memRead] using h

/-- R22: equal lengths and an equal configuration keep the buffers well-formed. -/
theorem Memory.wf_of_eq {s t : State} (h : Memory.wf s) (hc : t.cfg = s.cfg)
    (ho : t.outBuf.length = s.outBuf.length) (hi : t.inBuf.length = s.inBuf.length) : Memory.wf t := by
  simp only [Memory.wf, hc, ho, hi] at *; exact h

/-- Filling a frame keeps the buffers well-formed. -/
theorem Memory.wf_fill {s : State} (h : Memory.wf s) (ws : List Word) :
    Memory.wf { s with outBuf := memWrite s.outBuf 0 ws } :=
  Memory.wf_of_eq h rfl (memWrite_length ..) rfl

/-- A transfer keeps the buffers well-formed, whether it succeeds or fails. -/
theorem Memory.wf_transfer {s : State} (h : Memory.wf s) (n : Nat) (a : Answer) : Memory.wf (s.transfer n a) :=
  Memory.wf_of_eq h rfl rfl (by simp)

/-- R44: construction leaves two buffers of `C` words. -/
theorem Memory.wf_construct (cfg : Config) : Memory.wf (State.construct cfg) :=
  ⟨drawSlots_length .., drawSlots_length ..⟩

theorem Memory.wf_reset : Memory.wf State.reset := Memory.wf_construct _

end Sys2Proof.Machine
end

