-- ==== Sys2Proof/Laws/Sequencer.lean ====
section
/-! SUPPORT. What a micro-step of one context may do, said once (`Local`), and carried through runs and whole requests;
the arithmetic of runs; and the cases of a context at rest. -/

namespace Sys2Proof.Machine

/-- What every step of context `c` keeps: the configuration, the inputs, the busy line and its edge record, every other
context, the handles made before, the lengths of the buffers; the trace only grows, answers are only used up. -/
structure Local (c : Nat) (s t : State) : Prop where
  cfg : t.cfg = s.cfg
  active : t.active = s.active
  inputs : t.inputs = s.inputs
  ticks : t.ticks = s.ticks
  busyLevel : t.busyLevel = s.busyLevel
  edgeTargets : t.edgeTargets = s.edgeTargets
  length : t.callers.length = s.callers.length
  others : ∀ d, d ≠ c → t.caller d = s.caller d
  trace : s.trace <+: t.trace
  outLength : t.outBuf.length = s.outBuf.length
  inLength : t.inBuf.length = s.inBuf.length
  handles : s.handles <+: t.handles
  answers : t.answers <:+ s.answers

namespace Local

variable {c : Nat} {s t r : State}

theorem refl (c : Nat) (s : State) : Local c s s :=
  ⟨rfl, rfl, rfl, rfl, rfl, rfl, rfl, fun _ _ => rfl, List.prefix_rfl, rfl, rfl, List.prefix_rfl, List.suffix_rfl⟩

theorem trans (h : Local c s t) (g : Local c t r) : Local c s r :=
  ⟨g.cfg.trans h.cfg, g.active.trans h.active, g.inputs.trans h.inputs, g.ticks.trans h.ticks,
    g.busyLevel.trans h.busyLevel, g.edgeTargets.trans h.edgeTargets, g.length.trans h.length,
    fun d hd => (g.others d hd).trans (h.others d hd), h.trace.trans g.trace, g.outLength.trans h.outLength,
    g.inLength.trans h.inLength, h.handles.trans g.handles, g.answers.trans h.answers⟩

theorem setCaller (c : Nat) (s : State) (u : Caller) : Local c s (s.setCaller c u) :=
  ⟨rfl, rfl, rfl, rfl, rfl, rfl, by simp, fun _ hd => s.caller_setCaller_other (Ne.symm hd) u, List.prefix_rfl, rfl,
    rfl, List.prefix_rfl, List.suffix_rfl⟩

/-- A change of fields that no other part of the machine reads through a context. -/
theorem log (c : Nat) (s : State) (e : Event) : Local c s (s.log e) :=
  ⟨rfl, rfl, rfl, rfl, rfl, rfl, rfl, fun _ _ => rfl, List.prefix_append .., rfl, rfl, List.prefix_rfl,
    List.suffix_rfl⟩

theorem excl (c : Nat) (s : State) (b : Bool) : Local c s { s with excl := b } :=
  ⟨rfl, rfl, rfl, rfl, rfl, rfl, rfl, fun _ _ => rfl, List.prefix_rfl, rfl, rfl, List.prefix_rfl, List.suffix_rfl⟩

theorem power (c : Nat) (s : State) (p : Power) : Local c s { s with power := p } :=
  ⟨rfl, rfl, rfl, rfl, rfl, rfl, rfl, fun _ _ => rfl, List.prefix_rfl, rfl, rfl, List.prefix_rfl, List.suffix_rfl⟩

theorem fill (c : Nat) (s : State) (ws : List Word) : Local c s { s with outBuf := memWrite s.outBuf 0 ws } :=
  ⟨rfl, rfl, rfl, rfl, rfl, rfl, rfl, fun _ _ => rfl, List.prefix_rfl, memWrite_length .., rfl, List.prefix_rfl,
    List.suffix_rfl⟩

theorem writeLine (c : Nat) (s : State) (l : Level) : Local c s (s.writeLine l) :=
  ⟨rfl, rfl, rfl, rfl, rfl, rfl, rfl, fun _ _ => rfl, List.prefix_append .., rfl, rfl, List.prefix_rfl,
    List.suffix_rfl⟩

theorem registerHandle (c : Nat) (s : State) : Local c s s.registerHandle :=
  ⟨rfl, rfl, rfl, rfl, rfl, rfl, rfl, fun _ _ => rfl, List.prefix_append .., rfl, rfl, List.prefix_append ..,
    List.suffix_rfl⟩

theorem deregister (c : Nat) (s : State) : Local c s s.deregister :=
  ⟨rfl, rfl, rfl, rfl, rfl, rfl, rfl, fun _ _ => rfl, List.prefix_append .., rfl, rfl, List.prefix_rfl,
    List.suffix_rfl⟩

theorem transfer (c : Nat) {s : State} {a : Answer} {as : List Answer} (h : s.answers = a :: as) (n : Nat) :
    Local c s { s.transfer n a with answers := as } :=
  ⟨rfl, rfl, rfl, rfl, rfl, rfl, rfl, fun _ _ => rfl, List.prefix_append .., rfl, by simp, List.prefix_rfl,
    h ▸ List.suffix_cons ..⟩

/-- Local steps keep the buffers well-formed (R22). -/
theorem memory_wf (h : Local c s t) (w : Memory.wf s) : Memory.wf t :=
  Memory.wf_of_eq w h.cfg h.outLength h.inLength

end Local

/-! ## Every step of a context is local -/

variable {e : Expansion} {c : Nat} {s : State}

theorem finishPrimitive_local (e : Expansion) (c : Nat) (r : Status) (s : State) :
    Local c s (finishPrimitive e c r s) := .setCaller ..

theorem raiseError_local (c : Nat) (why : Cause) (s : State) : Local c s (s.raiseError c why) := .setCaller ..

theorem stepValidate_local (e : Expansion) (c : Nat) (s : State) : Local c s (stepValidate e c s) := by
  unfold stepValidate; split <;> exact .setCaller ..

theorem stepAcquire_local (e : Expansion) (c : Nat) (s : State) : Local c s (stepAcquire e c s) := by
  unfold stepAcquire State.tryAcquire
  cases s.excl
  · exact (Local.excl c s true).trans (.setCaller ..)
  · exact (Local.setCaller ..).trans (finishPrimitive_local ..)

theorem stepCheck_local (e : Expansion) (c : Nat) (s : State) : Local c s (stepCheck e c s) := by
  unfold stepCheck
  split
  · exact .refl ..
  · split
    · exact raiseError_local ..
    · exact .setCaller ..

theorem stepFill_local (e : Expansion) (c : Nat) (s : State) : Local c s (stepFill e c s) := by
  unfold stepFill
  split
  · exact .refl ..
  · exact (Local.fill c s _).trans (.setCaller ..)

theorem stepWaitSuspend_local (c : Nat) (x : WaitExit) (s : State) : Local c s (stepWaitSuspend c x s) := by
  cases x
  · unfold stepWaitSuspend
    dsimp only
    split
    · exact .setCaller ..
    · exact .refl ..
  · unfold stepWaitSuspend
    dsimp only
    split
    · exact (Local.log c s _).trans (.setCaller ..)
    · exact .refl ..

theorem stepXfer_local (e : Expansion) (c : Nat) (s : State) : Local c s (stepXfer e c s) := by
  unfold stepXfer
  dsimp only
  split
  · next h =>
    split
    · exact (Local.transfer c h _).trans (.setCaller ..)
    · exact (Local.transfer c h _).trans (raiseError_local ..)
  · exact .refl ..

theorem stepDeliver_local (e : Expansion) (c : Nat) (s : State) : Local c s (stepDeliver e c s) := by
  unfold stepDeliver
  split
  · exact .refl ..
  · exact .setCaller ..

theorem stepReturn_local (e : Expansion) (c : Nat) (r : Status) (s : State) : Local c s (stepReturn e c r s) :=
  ((Local.power c s _).trans (.log ..)).trans (.setCaller ..)

theorem microStep_local (e : Expansion) (c : Nat) (x : WaitExit) (s : State) : Local c s (microStep e c x s) := by
  unfold microStep
  cases (s.caller c).pos with
  | idle => exact .refl ..
  | validate => exact stepValidate_local ..
  | sub => exact .setCaller ..
  | acquire => exact stepAcquire_local ..
  | check => exact stepCheck_local ..
  | fill => exact stepFill_local ..
  | waitSample => exact (Local.log c s _).trans (.setCaller ..)
  | waitRegister => exact (Local.registerHandle c s).trans (.setCaller ..)
  | waitSuspend => exact stepWaitSuspend_local ..
  | waitDeregister => exact (Local.deregister c s).trans (.setCaller ..)
  | xfer => exact stepXfer_local ..
  | deliver => exact stepDeliver_local ..
  | release r => exact (Local.excl c s false).trans (finishPrimitive_local ..)
  | lineLow => exact (Local.writeLine c s _).trans (.setCaller ..)
  | hold => exact (Local.log c s _).trans (.setCaller ..)
  | lineHigh => exact ((Local.writeLine c s _).trans (.power ..)).trans (.setCaller ..)
  | ret r => exact stepReturn_local ..

theorem issue_local (i : Instr) (e : Expansion) (c : Nat) (s : State) : Local c s (issue i e c s) := by
  unfold issue
  split
  · exact .setCaller ..
  · exact .refl ..

/-! ## Runs -/

theorem runSteps_succ (e : Expansion) (c n : Nat) (s : State) :
    runSteps e c (n + 1) s = runSteps e c n (microStep e c (s.firstExit c) s) := rfl

/-- A run of `m + n` steps is a run of `m`, then of `n`. -/
theorem runSteps_add (e : Expansion) (c m n : Nat) (s : State) :
    runSteps e c (m + n) s = runSteps e c n (runSteps e c m s) := by
  induction m generalizing s with
  | zero => simp [runSteps]
  | succ m ih =>
    rw [Nat.add_right_comm]
    exact ih _

/-- What every micro-step keeps, a run keeps. -/
theorem runSteps_induction {P : State → Prop} (step : ∀ x t, P t → P (microStep e c x t)) (n : Nat) {s : State}
    (h : P s) : P (runSteps e c n s) := by
  induction n generalizing s with
  | zero => exact h
  | succ n ih => exact ih (step _ _ h)

theorem runSteps_local (e : Expansion) (c n : Nat) (s : State) : Local c s (runSteps e c n s) :=
  runSteps_induction (P := fun t => Local c s t) (fun x t h => h.trans (microStep_local e c x t)) n (.refl c s)

/-- A context at `Idle` takes no step. -/
theorem microStep_idle (h : (s.caller c).pos = .idle) (x : WaitExit) : microStep e c x s = s := by
  simp [microStep, h]

theorem runSteps_idle (h : (s.caller c).pos = .idle) (n : Nat) : runSteps e c n s = s := by
  induction n with
  | zero => rfl
  | succ n ih => rw [runSteps_succ, microStep_idle h, ih]

/-- Once a run has brought the context to `Idle`, more steps change nothing. -/
theorem runSteps_of_idle {m n : Nat} {t : State} (hrun : runSteps e c m s = t) (hidle : (t.caller c).pos = .idle)
    (hle : m ≤ n) : runSteps e c n s = t := by
  obtain ⟨d, rfl⟩ := Nat.le.dest hle
  rw [runSteps_add, hrun, runSteps_idle hidle]

/-- Everything a request can do, whichever it is: it is refused only for `C < 2`, and otherwise the step is local. -/
theorem runRequest_cases (i : Instr) (e : Expansion) (s : State) :
    (s.cfg.capacity < 2 ∧ runRequest i e s = .refused .capacityBelowTwo) ∨
      (2 ≤ s.cfg.capacity ∧ ∃ t, runRequest i e s = .next t ∧ Local s.active s t) := by
  unfold runRequest
  split
  · exact .inl ⟨‹_›, rfl⟩
  · refine .inr ⟨by omega, ?_⟩
    split
    · exact ⟨s, rfl, .refl ..⟩
    · exact ⟨_, rfl, (issue_local ..).trans (runSteps_local ..)⟩

/-- A request issued by a context that accepts it is issued and run. -/
theorem runRequest_accepting {s : State} (h : s.accepting) (i : Instr) (e : Expansion) :
    runRequest i e s =
      .next (runSteps e s.active e.budget
        (s.setCaller s.active { Caller.idle with req := some i, pos := e.start })) := by
  obtain ⟨h2, -, hr⟩ := h
  simp [runRequest, Nat.not_lt.mpr h2, hr, issue]

end Sys2Proof.Machine
end

