-- ==== Sys2Proof/Laws/Quiet.lean ====
section
/-! SUPPORT. The undisturbed run: on an idle line, with `excl` free and a bus that accepts every transfer, a request runs
through the skeleton of R101 to its `ok` return. One lemma a level: a frame, a primitive's frames, a primitive, a
request. -/

namespace Sys2Proof.Machine

variable {e : Expansion} {c : Nat} {s : State} {u : Caller}

/-! ## Sending frames -/

theorem sendFrame_of_answers {a : Answer} {as : List Answer} (h : s.answers = a :: as) (f : Frame) :
    sendFrame s f =
      { (State.sampleBusy { s with outBuf := memWrite s.outBuf 0 f.words }).transfer f.len a with answers := as } := by
  unfold sendFrame; rw [h]

/-- What sending a frame keeps. -/
structure Sent (s t : State) : Prop where
  cfg : t.cfg = s.cfg
  excl : t.excl = s.excl
  busyLevel : t.busyLevel = s.busyLevel
  callers : t.callers = s.callers
  power : t.power = s.power
  active : t.active = s.active

theorem Sent.refl (s : State) : Sent s s := ⟨rfl, rfl, rfl, rfl, rfl, rfl⟩

theorem Sent.trans {r t : State} (h : Sent s t) (g : Sent t r) : Sent s r :=
  ⟨g.cfg.trans h.cfg, g.excl.trans h.excl, g.busyLevel.trans h.busyLevel, g.callers.trans h.callers,
    g.power.trans h.power, g.active.trans h.active⟩

theorem sendFrame_sent (s : State) (f : Frame) : Sent s (sendFrame s f) := by
  unfold sendFrame; split <;> exact ⟨rfl, rfl, rfl, rfl, rfl, rfl⟩

theorem sendFrames_sent (s : State) (fs : List Frame) : Sent s (sendFrames s fs) := by
  induction fs generalizing s with
  | nil => exact .refl s
  | cons f fs ih => exact (sendFrame_sent s f).trans (ih _)

theorem sendFrames_cons (s : State) (f : Frame) (fs : List Frame) :
    sendFrames s (f :: fs) = sendFrames (sendFrame s f) fs := rfl

theorem sendFrames_append (s : State) (fs gs : List Frame) :
    sendFrames s (fs ++ gs) = sendFrames (sendFrames s fs) gs := List.foldl_append ..

/-- A frame is sent the same whether or not `excl` is set. -/
theorem sendFrame_excl (s : State) (b : Bool) (f : Frame) :
    sendFrame { s with excl := b } f = { sendFrame s f with excl := b } := by
  rcases s with ⟨_, _, _, _, _, _, _, _, _, _, _, _, _, _, answers, _, _⟩
  cases answers <;> rfl

theorem sendFrames_excl (s : State) (b : Bool) (fs : List Frame) :
    sendFrames { s with excl := b } fs = { sendFrames s fs with excl := b } := by
  induction fs generalizing s with
  | nil => rfl
  | cons f fs ih => rw [sendFrames_cons, sendFrame_excl, ih]; rfl

/-- One accepted transfer: its answer, and the rest of the bus's promise after it. -/
theorem State.busAccepts_succ {n : Nat} (h : s.busAccepts (n + 1)) :
    ∃ a as, s.answers = a :: as ∧ a.ok = true ∧ ∀ f, (sendFrame s f).busAccepts n := by
  obtain ⟨hlen, hok⟩ := h
  cases hs : s.answers with
  | nil => simp [hs] at hlen
  | cons a as =>
    rw [hs] at hlen hok
    refine ⟨a, as, rfl, hok a (by simp), fun f => ?_⟩
    rw [sendFrame_of_answers hs]
    exact ⟨by simpa using hlen, fun b hb => hok b (by simp [hb])⟩

theorem State.busAccepts_mono {m n : Nat} (h : s.busAccepts n) (hm : m ≤ n) : s.busAccepts m := by
  refine ⟨hm.trans h.1, fun a ha => h.2 a ?_⟩
  rw [← Nat.min_eq_left hm, ← List.take_take] at ha
  exact List.mem_of_mem_take ha

theorem sendFrames_busAccepts {n : Nat} (fs : List Frame) (h : s.busAccepts (fs.length + n)) :
    (sendFrames s fs).busAccepts n := by
  induction fs generalizing s with
  | nil => simpa [sendFrames] using h
  | cons f fs ih =>
    obtain ⟨_, _, _, _, h'⟩ := s.busAccepts_succ (n := fs.length + n) (by simpa [Nat.add_right_comm] using h)
    exact ih (h' f)

/-! ## One frame -/

/-- R101, R129, R27: `Fill(k)`, `WaitSample(k)`, `Xfer(k)` on an idle line with a succeeding answer. -/
theorem runSteps_frame {p : Primitive} {f : Frame} (hc : c < s.callers.length) (hp : e.primitive u = some p)
    (hf : e.frame u = some f) (hpos : u.pos = .fill) (hidle : s.lineIdle = true) (h : s.busAccepts 1) :
    runSteps e c 3 (s.setCaller c u) =
      (sendFrame s f).setCaller c { u with pos := (p.afterFrame u.k).1, k := (p.afterFrame u.k).2 } := by
  obtain ⟨a, as, ha, hok, -⟩ := s.busAccepts_succ (n := 0) h
  have hb : s.busyLevel = Config.busyIdleLevel := by simpa [State.lineIdle] using hidle
  have hp' : ∀ q, e.primitive { u with pos := q } = some p := fun _ => hp
  have hf' : ∀ q, e.frame { u with pos := q } = some f := fun _ => hf
  have h1 : ∀ x, microStep e c x (s.setCaller c u) =
      State.setCaller { s with outBuf := memWrite s.outBuf 0 f.words } c { u with pos := .waitSample } := by
    intro x
    simp only [microStep, State.caller_setCaller_self hc, hpos, stepFill, hf]
    simp [State.setCaller]
  let t : State := { s with outBuf := memWrite s.outBuf 0 f.words }
  have hct : c < t.callers.length := hc
  have h2 : ∀ x, microStep e c x (t.setCaller c { u with pos := .waitSample }) =
      (t.sampleBusy).setCaller c { u with pos := .xfer } := by
    intro x
    have ht : (t.setCaller c { u with pos := .waitSample }).lineIdle = true := hidle
    simp only [microStep, State.caller_setCaller_self hct, stepWaitSample, ht]
    simp [State.setCaller, State.sampleBusy, State.log]
  have h3 : ∀ x, microStep e c x ((t.sampleBusy).setCaller c { u with pos := .xfer }) =
      (sendFrame s f).setCaller c { u with pos := (p.afterFrame u.k).1, k := (p.afterFrame u.k).2 } := by
    intro x
    have hct' : c < (t.sampleBusy).callers.length := hc
    have hans : ((t.sampleBusy).setCaller c { u with pos := Pos.xfer }).answers = a :: as := ha
    simp only [microStep, State.caller_setCaller_self hct', stepXfer, hp', hf', hans, hok, if_true]
    rw [sendFrame_of_answers ha]
    simp [State.setCaller, State.sampleBusy, State.transfer, State.log, t]
  rw [runSteps_succ, h1, runSteps_succ, h2, runSteps_succ, h3]
  rfl

/-! ## The frames of a primitive -/

/-- Where a primitive's last frame leads (R101). -/
def Primitive.afterLast (p : Primitive) : Pos :=
  match p.delivers with
  | some _ => .deliver
  | none => .release .ok

/-- The frames from frame `k` on, each after its idle sample. -/
theorem runSteps_frames {p : Primitive} (hc : c < s.callers.length) (hp : e.primitive u = some p)
    (hk : u.k < p.frames.length) (hpos : u.pos = .fill) (hidle : s.lineIdle = true)
    (h : s.busAccepts (p.frames.length - u.k)) :
    runSteps e c (3 * (p.frames.length - u.k)) (s.setCaller c u) =
      (sendFrames s (p.frames.drop u.k)).setCaller c { u with pos := p.afterLast, k := p.frames.length - 1 } := by
  generalize hn : p.frames.length - u.k = n at h ⊢
  induction n generalizing s u with
  | zero => omega
  | succ n ih =>
    have hf : e.frame u = some p.frames[u.k] := by simp [Expansion.frame, hp, hk]
    obtain ⟨_, _, _, _, hrest⟩ := s.busAccepts_succ h
    rw [Nat.mul_succ, Nat.add_comm, runSteps_add,
      runSteps_frame hc hp hf hpos hidle (s.busAccepts_mono h (by omega)), List.drop_eq_getElem_cons hk,
      sendFrames_cons]
    have hs := sendFrame_sent s p.frames[u.k]
    by_cases hlast : u.k + 1 < p.frames.length
    · have hafter : p.afterFrame u.k = (.fill, u.k + 1) := by simp [Primitive.afterFrame, hlast]
      rw [hafter]
      have := ih (s := sendFrame s p.frames[u.k]) (u := { u with pos := .fill, k := u.k + 1 })
        (by rw [hs.callers]; exact hc) hp hlast rfl
        (by simpa [State.lineIdle, hs.busyLevel] using hidle) (by dsimp only; omega) (hrest _)
      simpa using this
    · obtain rfl : n = 0 := by omega
      have hdrop : p.frames.drop (u.k + 1) = [] := List.drop_eq_nil_of_le (by omega)
      have hk' : u.k = p.frames.length - 1 := by omega
      rw [hdrop]
      simp only [runSteps, sendFrames, List.foldl_nil, Primitive.afterFrame, hlast, if_false]
      cases hd : p.delivers <;> simp [Primitive.afterLast, hd, hk']

/-! ## A primitive -/

/-- What a context has read after a primitive (R121). -/
def Primitive.readInto (p : Primitive) (inBuf acc : List Word) : List Word :=
  match p.delivers with
  | some len => memRead inBuf 2 len
  | none => acc

/-- Every primitive sends at least one frame. -/
theorem Primitive.frames_pos (p : Primitive) : 0 < p.frames.length := by
  cases p <;> simp [Primitive.frames]

theorem setCaller_excl (s : State) (c : Nat) (u : Caller) (b : Bool) :
    { s.setCaller c u with excl := b } = State.setCaller { s with excl := b } c u := rfl

/-- R101: a primitive, from `Acquire` to the end of its sub-step, is at most `5 + 3 * frames` steps. -/
theorem runSteps_primitive {p : Primitive} (hc : c < s.callers.length) (hp : e.primitive u = some p)
    (hpos : u.pos = .acquire) (hexcl : s.excl = false) (hfit : p.need ≤ s.cfg.capacity) (hidle : s.lineIdle = true)
    (h : s.busAccepts p.frames.length) :
    ∃ m, m ≤ 4 + 3 * p.frames.length ∧ runSteps e c m (s.setCaller c u) =
      (sendFrames s p.frames).setCaller c
        { u with
          pos := (afterSubStep e.prims.length u.sub .ok).1
          sub := (afterSubStep e.prims.length u.sub .ok).2
          k := 0
          st := .ok
          acc := p.readInto (sendFrames s p.frames).inBuf u.acc } := by
  have hp' : ∀ q k, e.primitive { u with pos := q, k := k } = some p := fun _ _ => hp
  let t : State := { s with excl := true }
  have hct : c < t.callers.length := hc
  have h1 : ∀ x, microStep e c x (s.setCaller c u) = t.setCaller c { u with pos := .check } := by
    intro x
    simp only [microStep, State.caller_setCaller_self hc, hpos, stepAcquire, State.tryAcquire,
      State.setCaller_excl, hexcl]
    simp [State.caller, State.setCaller, hc, t]
  have h2 : ∀ x, microStep e c x (t.setCaller c { u with pos := .check }) =
      t.setCaller c { u with pos := .fill, k := 0 } := by
    intro x
    have hcap : ¬ (t.setCaller c { u with pos := Pos.check }).cfg.capacity < p.need := Nat.not_lt.mpr hfit
    have hpr : e.primitive { u with pos := .check } = some p := hp
    simp only [microStep, State.caller_setCaller_self hct, stepCheck, hpr, hcap, if_false,
      State.setCaller_setCaller]
  have h3 := runSteps_frames (e := e) (c := c) (s := t) (u := { u with pos := .fill, k := 0 }) hct (hp' _ _)
    p.frames_pos rfl hidle (by simpa using h)
  simp only [Nat.sub_zero, List.drop_zero] at h3
  have hsent := sendFrames_sent t p.frames
  have hct2 : c < (sendFrames t p.frames).callers.length := by rw [hsent.callers]; exact hc
  let v : Caller := { u with acc := p.readInto (sendFrames s p.frames).inBuf u.acc, k := p.frames.length - 1 }
  have h4 : ∃ m ≤ 1, runSteps e c m
      ((sendFrames t p.frames).setCaller c { u with pos := p.afterLast, k := p.frames.length - 1 }) =
        (sendFrames t p.frames).setCaller c { v with pos := .release .ok } := by
    cases hd : p.delivers with
    | none => exact ⟨0, by omega, by simp [runSteps, Primitive.afterLast, hd, v, Primitive.readInto]⟩
    | some len =>
      refine ⟨1, le_rfl, ?_⟩
      have hq : ∀ q k, e.primitive { u with pos := q, k := k } = some p := hp'
      have hin : (sendFrames t p.frames).inBuf = (sendFrames s p.frames).inBuf := by
        rw [show t = { s with excl := true } from rfl, sendFrames_excl]
      simp only [runSteps, microStep, State.caller_setCaller_self hct2, Primitive.afterLast, hd,
        stepDeliver, hq, Option.bind_some, State.setCaller_setCaller, State.setCaller_inBuf, v,
        Primitive.readInto, hin]
  obtain ⟨m4, hm4, h4⟩ := h4
  have h5 : ∀ x, microStep e c x ((sendFrames t p.frames).setCaller c { v with pos := .release .ok }) =
      (sendFrames s p.frames).setCaller c
        { v with
          pos := (afterSubStep e.prims.length u.sub .ok).1
          sub := (afterSubStep e.prims.length u.sub .ok).2
          k := 0
          st := .ok } := by
    intro x
    have hback : { sendFrames t p.frames with excl := false } = sendFrames s p.frames := by
      rw [show t = { s with excl := true } from rfl, sendFrames_excl]
      have := (sendFrames_sent s p.frames).excl.trans hexcl
      cases hst : sendFrames s p.frames
      simp_all
    have hrel : ((sendFrames t p.frames).setCaller c { v with pos := .release .ok }).releaseExcl =
        (sendFrames s p.frames).setCaller c { v with pos := .release .ok } := by
      rw [← hback]; rfl
    have hcs : c < (sendFrames s p.frames).callers.length := by
      rw [(sendFrames_sent s p.frames).callers]; exact hc
    simp only [microStep, State.caller_setCaller_self hct2, stepRelease, hrel, finishPrimitive,
      State.caller_setCaller_self hcs, State.setCaller_setCaller, v]
  refine ⟨1 + 1 + 3 * p.frames.length + m4 + 1, by omega, ?_⟩
  rw [runSteps_add, runSteps_add, runSteps_add, runSteps_add]
  rw [show runSteps e c 1 (s.setCaller c u) = _ from h1 _, show runSteps e c 1 (t.setCaller c _) = _ from h2 _, h3, h4]
  exact h5 _

/-! ## A request -/

/-- The state and the words read after primitives sent one after the other. -/
def sendPrims (x : State × List Word) (ps : List Primitive) : State × List Word :=
  ps.foldl (fun x p => (sendFrames x.1 p.frames, p.readInto (sendFrames x.1 p.frames).inBuf x.2)) x

theorem sendPrims_fst (x : State × List Word) (ps : List Primitive) :
    (sendPrims x ps).1 = sendFrames x.1 (ps.flatMap Primitive.frames) := by
  induction ps generalizing x with
  | nil => rfl
  | cons p ps ih => rw [List.flatMap_cons, sendFrames_append]; exact ih _

/-- The sub-steps from `u.sub` on, each a primitive from `Sub(i)` (R39), end at the return of `ok`. -/
theorem runSteps_prims (ps : List Primitive) (hne : ps ≠ []) (hps : e.prims.drop u.sub = ps)
    (hc : c < s.callers.length) (hpos : u.pos = .sub) (hexcl : s.excl = false)
    (hfit : ∀ p ∈ ps, p.need ≤ s.cfg.capacity) (hidle : s.lineIdle = true)
    (h : s.busAccepts (ps.flatMap Primitive.frames).length) :
    ∃ m sub, m ≤ (ps.map fun p => 6 + 6 * p.frames.length).sum ∧ runSteps e c m (s.setCaller c u) =
      (sendPrims (s, u.acc) ps).1.setCaller c
        { u with pos := .ret .ok, sub := sub, k := 0, st := .ok, acc := (sendPrims (s, u.acc) ps).2 } := by
  induction ps generalizing s u with
  | nil => exact absurd rfl hne
  | cons p ps ih =>
    have hsub : u.sub < e.prims.length := by
      by_contra hge
      simp [List.drop_eq_nil_of_le (Nat.le_of_not_lt hge)] at hps
    rw [List.drop_eq_getElem_cons hsub, List.cons.injEq] at hps
    obtain ⟨hp, hrest⟩ := hps
    have hprim : ∀ q, e.primitive { u with pos := q } = some p := fun q => by
      simp [Expansion.primitive, hsub, hp]
    have hacc : s.busAccepts (p.frames.length + (ps.flatMap Primitive.frames).length) := by simpa using h
    have h0 : ∀ x, microStep e c x (s.setCaller c u) = s.setCaller c { u with pos := .acquire } := by
      intro x
      simp only [microStep, State.caller_setCaller_self hc, hpos, stepSub, State.setCaller_setCaller]
    obtain ⟨m1, hm1, h1⟩ := runSteps_primitive (e := e) (u := { u with pos := .acquire }) hc (hprim _) rfl hexcl
      (hfit p (by simp)) hidle (s.busAccepts_mono hacc (by omega))
    have hs := sendFrames_sent s p.frames
    have hprims : ∀ acc, sendPrims (s, acc) (p :: ps) =
        sendPrims (sendFrames s p.frames, p.readInto (sendFrames s p.frames).inBuf acc) ps := fun _ => rfl
    by_cases hlast : u.sub + 1 < e.prims.length
    · have hps : ps ≠ [] := by
        rintro rfl
        rw [List.drop_eq_nil_iff] at hrest
        omega
      have hafter : afterSubStep e.prims.length u.sub .ok = (.sub, u.sub + 1) := by simp [afterSubStep, hlast]
      dsimp only at h1
      rw [hafter] at h1
      obtain ⟨m2, sub, hm2, h2⟩ := ih (s := sendFrames s p.frames)
        (u := { u with pos := .sub, sub := u.sub + 1, k := 0, st := .ok,
                       acc := p.readInto (sendFrames s p.frames).inBuf u.acc })
        hps hrest (by rw [hs.callers]; exact hc) rfl (hs.excl.trans hexcl)
        (fun q hq => by rw [hs.cfg]; exact hfit q (by simp [hq]))
        (by simpa [State.lineIdle, hs.busyLevel] using hidle) (sendFrames_busAccepts _ hacc)
      refine ⟨1 + m1 + m2, sub, ?_, ?_⟩
      · simp only [List.map_cons, List.sum_cons]; omega
      · rw [runSteps_add, runSteps_add, show runSteps e c 1 (s.setCaller c u) = _ from h0 _, h1, h2, hprims]
    · have hps : ps = [] := by rw [← hrest]; exact List.drop_eq_nil_of_le (by omega)
      subst hps
      have hafter : afterSubStep e.prims.length u.sub .ok = (.ret .ok, u.sub) := by simp [afterSubStep, hlast]
      dsimp only at h1
      rw [hafter] at h1
      refine ⟨1 + m1, u.sub, ?_, ?_⟩
      · simp only [List.map_cons, List.map_nil, List.sum_cons, List.sum_nil]; omega
      · rw [runSteps_add, show runSteps e c 1 (s.setCaller c u) = _ from h0 _, h1]
        rfl

/-- R19, R155: the return of `ok` by the active context. -/
theorem microStep_return {cfg : Config} {pw : Power} (hact : s.active = c) (hcfg : s.cfg = cfg) (hpw : s.power = pw)
    (hc : c < s.callers.length) (hpos : u.pos = .ret .ok) (hcause : u.cause = none) (x : WaitExit) :
    microStep e c x (s.setCaller c u) =
      returnOk { s with power := e.power.apply .ok pw } (e.conversion.apply cfg u.acc) := by
  subst hact hcfg hpw
  simp only [microStep, State.caller_setCaller_self hc, hpos, stepReturn, hcause]
  simp [returnOk, returnWith, State.setCaller, State.log]

/-- A state that has just returned the active context's request has that context at `Idle`. -/
theorem returnWith_idle (hact : s.active = c) (hc : c < s.callers.length) (r : Status) (why : Option Cause)
    (v : Option Value) : ((returnWith s r why v).caller c).pos = .idle := by
  subst hact
  simp [returnWith, State.caller, State.setCaller, State.log, hc, Caller.idle]

/-- The end of an undisturbed request: from its return position to the state the claims name. -/
theorem runRequest_of_return {t : State} {m : Nat} (i : Instr) (hacc : s.accepting) (ht : Sent s t)
    (hpos : u.pos = .ret .ok) (hcause : u.cause = none) (hm : m < e.budget)
    (hrun : runSteps e s.active m (s.setCaller s.active { Caller.idle with req := some i, pos := e.start }) =
      t.setCaller s.active u) :
    runRequest i e s =
      .next (returnOk { t with power := e.power.apply .ok s.power } (e.conversion.apply s.cfg u.acc)) := by
  have hc : s.active < t.callers.length := by rw [ht.callers]; exact hacc.2.1
  rw [runRequest_accepting hacc]
  refine congrArg _ (runSteps_of_idle (m := m + 1) ?_ ?_ hm)
  · rw [runSteps_add, hrun]
    exact microStep_return ht.active ht.cfg ht.power hc hpos hcause _
  · exact returnWith_idle (s := { t with power := e.power.apply .ok s.power }) ht.active hc .ok none
      (e.conversion.apply s.cfg u.acc)

/-- R122, R175: a composite request whose primitives all fit, issued where nothing disturbs it, returns `ok` with its
value, and has sent its frames and nothing else. -/
theorem runRequest_quiet (i : Instr) (hne : e.prims ≠ []) (hstart : e.start = .sub ∨ e.start = .validate ∧ e.argumentOk)
    (hfit : ∀ p ∈ e.prims, p.need ≤ s.cfg.capacity) (h : s.ready e.frames.length) :
    runRequest i e s =
      .next (returnOk
        { sendFrames s e.frames with power := e.power.apply .ok s.power }
        (e.conversion.apply s.cfg (sendPrims (s, []) e.prims).2)) := by
  obtain ⟨hacc, hexcl, hidle, hbus⟩ := h
  have hc := hacc.2.1
  let u : Caller := { Caller.idle with req := some i, pos := .sub }
  have hgo : ∃ m0 ≤ 1, runSteps e s.active m0
      (s.setCaller s.active { Caller.idle with req := some i, pos := e.start }) = s.setCaller s.active u := by
    rcases hstart with hs | ⟨hs, hv⟩
    · exact ⟨0, by omega, by rw [hs]; rfl⟩
    · refine ⟨1, le_rfl, ?_⟩
      rw [hs]
      simp only [runSteps, microStep, State.caller_setCaller_self hc, stepValidate, hv, if_true,
        State.setCaller_setCaller, u]
  obtain ⟨m0, hm0, h0⟩ := hgo
  obtain ⟨m1, sub, hm1, h1⟩ := runSteps_prims (e := e) (c := s.active) (u := u) e.prims hne (by simp [u, Caller.idle]) hc rfl
    hexcl hfit hidle hbus
  have hfst : (sendPrims (s, u.acc) e.prims).1 = sendFrames s e.frames := sendPrims_fst ..
  rw [hfst] at h1
  exact runRequest_of_return i hacc (sendFrames_sent s e.frames) rfl rfl (by simp only [Expansion.budget]; omega)
    ((runSteps_add e s.active m0 m1 _).trans (h0 ▸ h1))

/-- R122: a raw framer request that fits, issued where nothing disturbs it, returns `ok` with its value, and has sent
its frames and nothing else. -/
theorem runRequest_quiet_raw (i : Instr) (p : Primitive) (v : Conversion) (w : PowerEffect)
    (hfit : p.need ≤ s.cfg.capacity) (h : s.ready p.frames.length) :
    runRequest i (.raw p v w) s =
      .next (returnOk
        { sendFrames s p.frames with power := w.apply .ok s.power }
        (v.apply s.cfg (p.readInto (sendFrames s p.frames).inBuf []))) := by
  obtain ⟨hacc, hexcl, hidle, hbus⟩ := h
  obtain ⟨m, hm, h1⟩ := runSteps_primitive (e := .raw p v w) (c := s.active)
    (u := { Caller.idle with req := some i, pos := .acquire }) hacc.2.1 rfl rfl hexcl hfit hidle hbus
  refine runRequest_of_return (m := m) i hacc (sendFrames_sent s p.frames) rfl rfl ?_ h1
  simp only [Expansion.budget, Expansion.raw, List.map_cons, List.map_nil, List.sum_cons, List.sum_nil]
  omega

/-! ## Requests that leave the power tracker alone, and requests that read -/

/-- R186: `runRequest_quiet` where the request keeps the power tracker. -/
theorem runRequest_quiet_keeps (i : Instr) (hne : e.prims ≠ [])
    (hstart : e.start = .sub ∨ e.start = .validate ∧ e.argumentOk) (hfit : ∀ p ∈ e.prims, p.need ≤ s.cfg.capacity)
    (h : s.ready e.frames.length) (hp : e.power = .keeps) :
    runRequest i e s =
      .next (returnOk (sendFrames s e.frames) (e.conversion.apply s.cfg (sendPrims (s, []) e.prims).2)) := by
  rw [runRequest_quiet i hne hstart hfit h, hp]
  have hpw := (sendFrames_sent s e.frames).power
  cases hst : sendFrames s e.frames
  simp_all [PowerEffect.apply]

/-- R120: the tracker after a raw command that returned `ok`. -/
theorem rawPowerEffect_ok (op : Word) (p : Power) : (rawPowerEffect op).apply .ok p =
    if op = 0x0001 ∨ op = 0x0002 ∨ op = 0x0003 then .unknown else p := by
  unfold rawPowerEffect
  by_cases h : op = opWakeUp ∨ op = opStandby ∨ op = opSleep
  · rw [if_pos h]; exact (if_pos h).symm
  · rw [if_neg h]; exact (if_neg h).symm

@[simp] theorem sendFrame_inBuf_length (s : State) (f : Frame) : (sendFrame s f).inBuf.length = s.inBuf.length := by
  unfold sendFrame; split <;> simp

/-- R90: what an RDATA frame leaves to deliver, where the answer fixes its words. -/
theorem sendFrame_read {d0 d1 : Word} {ws : List Word} {as : List Answer}
    (ha : s.answers = ⟨true, d0 :: d1 :: ws⟩ :: as) {n : Nat} (hn : ws.length = n) (hl : n + 2 ≤ s.inBuf.length)
    (f : Frame) (hf : f.len = n + 2) : memRead (sendFrame s f).inBuf 2 n = ws := by
  rw [sendFrame_of_answers ha]
  simp only [State.transfer_inBuf, State.sampleBusy_inBuf, if_true]
  rw [response_of_length (by simp [hn, hf]), memRead_skip (by simp [hn]) hl]
  rfl

end Sys2Proof.Machine
end

