-- ==== Sys2Proof/Laws/Rest.lean ====
section
/-! SUPPORT. A request comes to rest: the positions a context can be at within its expansion (`Caller.placed`), the bound
on the steps it still has (`Caller.remaining`), and that every step of a context that is not at rest lowers it. -/

namespace Sys2Proof.Machine

variable {e : Expansion} {c : Nat} {s : State} {u : Caller}

/-- The position of a context lies within its expansion. -/
def Caller.placed (e : Expansion) (u : Caller) : Prop :=
  match u.pos with
  | .idle => u.req = none
  | .validate => u.sub < e.prims.length
  | .sub | .acquire | .check | .release _ => u.sub < e.prims.length
  | .fill | .waitSample | .waitRegister | .waitSuspend | .waitDeregister | .xfer =>
    ∃ p, e.primitive u = some p ∧ u.k < p.frames.length
  | .deliver => ∃ p, e.primitive u = some p ∧ p.delivers.isSome = true
  | .lineLow | .hold | .lineHigh | .ret _ => True

/-- The steps of a primitive from its `Sub` on, at most. -/
def Primitive.cost (p : Primitive) : Nat := 5 + 6 * p.frames.length

/-- The steps of a request from sub-step `sub` on, at most. -/
def Expansion.costFrom (e : Expansion) (sub : Nat) : Nat := 1 + ((e.prims.drop sub).map Primitive.cost).sum

/-- The frames left of the primitive a context is in, its own among them. -/
def Expansion.framesLeft (e : Expansion) (u : Caller) : Nat :=
  match e.primitive u with
  | some p => p.frames.length - u.k
  | none => 0

/-- The frames of the primitive a context is in. -/
def Expansion.framesOf (e : Expansion) (u : Caller) : Nat :=
  match e.primitive u with
  | some p => p.frames.length
  | none => 0

/-- The steps a context still has, at most. -/
def Caller.remaining (e : Expansion) (u : Caller) : Nat :=
  match u.pos with
  | .idle => 0
  | .validate => 1 + e.costFrom u.sub
  | .sub => 5 + 6 * e.framesOf u + e.costFrom (u.sub + 1)
  | .acquire => 4 + 6 * e.framesOf u + e.costFrom (u.sub + 1)
  | .check => 3 + 6 * e.framesOf u + e.costFrom (u.sub + 1)
  | .fill => 2 + 6 * e.framesLeft u + e.costFrom (u.sub + 1)
  | .waitSample => 1 + 6 * e.framesLeft u + e.costFrom (u.sub + 1)
  | .waitRegister => 6 * e.framesLeft u + e.costFrom (u.sub + 1)
  | .waitSuspend => 6 * e.framesLeft u + e.costFrom (u.sub + 1) - 1
  | .waitDeregister => 6 * e.framesLeft u + e.costFrom (u.sub + 1) - 2
  | .xfer => 6 * e.framesLeft u + e.costFrom (u.sub + 1) - 3
  | .deliver => 2 + e.costFrom (u.sub + 1)
  | .release _ => 1 + e.costFrom (u.sub + 1)
  | .lineLow => 4
  | .hold => 3
  | .lineHigh => 2
  | .ret _ => 1

theorem Expansion.costFrom_pos (e : Expansion) (sub : Nat) : 1 ≤ e.costFrom sub := by
  unfold Expansion.costFrom; omega

/-- The cost from a sub-step on is its primitive's and the cost from the next on. -/
theorem Expansion.costFrom_eq (h : u.sub < e.prims.length) :
    e.costFrom u.sub = 5 + 6 * e.framesOf u + e.costFrom (u.sub + 1) := by
  have hp : e.primitive u = some e.prims[u.sub] := by simp [Expansion.primitive, h]
  simp only [Expansion.costFrom, Expansion.framesOf, hp, List.drop_eq_getElem_cons h, List.map_cons, List.sum_cons,
    Primitive.cost]
  omega

theorem Expansion.primitive_some (h : u.sub < e.prims.length) : ∃ p, e.primitive u = some p :=
  ⟨e.prims[u.sub], by simp [Expansion.primitive, h]⟩

theorem Expansion.sub_lt {p : Primitive} (h : e.primitive u = some p) : u.sub < e.prims.length := by
  unfold Expansion.primitive at h
  exact (List.getElem?_eq_some_iff.mp h).1

/-- A context that is not at `Idle` exists. -/
theorem State.exists_of_pos (h : (s.caller c).pos ≠ .idle) : c < s.callers.length := by
  by_contra hc
  exact h (by rw [State.caller_absent (Nat.le_of_not_lt hc)]; rfl)

/-- The end of a primitive leads to the next sub-step or to the return. -/
theorem afterSubStep_cases (n sub : Nat) (r : Status) :
    (r = .ok ∧ sub + 1 < n ∧ afterSubStep n sub r = (.sub, sub + 1)) ∨ afterSubStep n sub r = (.ret r, sub) := by
  unfold afterSubStep
  split
  · next h => exact .inl ⟨h.1, h.2, rfl⟩
  · exact .inr rfl

/-- A frame's transfer leads to the next frame, to `Deliver` or to the release. -/
theorem Primitive.afterFrame_cases (p : Primitive) (k : Nat) :
    (k + 1 < p.frames.length ∧ p.afterFrame k = (.fill, k + 1)) ∨
      (p.delivers.isSome = true ∧ p.afterFrame k = (.deliver, k)) ∨ p.afterFrame k = (.release .ok, k) := by
  unfold Primitive.afterFrame
  split
  · exact .inl ⟨‹_›, rfl⟩
  · cases h : p.delivers <;> simp

/-- R102: `Acquire` with `excl` free. -/
theorem stepAcquire_free (h : s.excl = false) :
    stepAcquire e c s = State.setCaller { s with excl := true } c { s.caller c with pos := .check } := by
  simp only [stepAcquire, State.tryAcquire, h]; rfl

/-- R102: `Acquire` with `excl` held. -/
theorem stepAcquire_held (hc : c < s.callers.length) (h : s.excl = true) :
    stepAcquire e c s =
      s.setCaller c { s.caller c with pos := .ret .busy, k := 0, st := .busy, cause := some .exclHeld } := by
  simp [stepAcquire, State.tryAcquire, h, finishPrimitive, hc, afterSubStep]

/-- R39, R175: a primitive that ends with a status that is not `ok` ends its request with it. -/
theorem finishPrimitive_fails {r : Status} (h : r ≠ .ok) :
    finishPrimitive e c r s = s.setCaller c { s.caller c with pos := .ret r, k := 0, st := r } := by
  simp [finishPrimitive, afterSubStep, h]

/-- What a step makes of the end of a primitive. -/
theorem finishPrimitive_caller (hc : c < s.callers.length) (r : Status) :
    (finishPrimitive e c r s).caller c =
      { s.caller c with
        pos := (afterSubStep e.prims.length (s.caller c).sub r).1
        sub := (afterSubStep e.prims.length (s.caller c).sub r).2
        k := 0
        st := r } := by
  simp [finishPrimitive, hc]

/-- A context at the end of a primitive is placed, and has at most `costFrom` of the next sub-step left. -/
theorem placed_afterSubStep (v : Caller) (n sub : Nat) (r : Status) (hn : n = e.prims.length)
    (hpos : v.pos = (afterSubStep n sub r).1) (hsub : v.sub = (afterSubStep n sub r).2) :
    v.placed e ∧ v.remaining e ≤ e.costFrom (sub + 1) := by
  subst hn
  rcases afterSubStep_cases e.prims.length sub r with ⟨-, hlt, h⟩ | h
  · rw [h] at hpos hsub
    dsimp only at hpos hsub
    have hv : v.sub < e.prims.length := by omega
    refine ⟨by simpa [Caller.placed, hpos] using hv, ?_⟩
    rw [← hsub, e.costFrom_eq hv]
    simp [Caller.remaining, hpos]
  · rw [h] at hpos
    exact ⟨by simp [Caller.placed, hpos], by simpa [Caller.remaining, hpos] using e.costFrom_pos _⟩

/-- The context has no step by this exit: it is at `Idle`, at `WaitSuspend` with the exit not enabled, or at `Xfer`
with no answer. -/
def State.stuck (s : State) (c : Nat) (x : WaitExit) : Prop :=
  (s.caller c).pos = .idle ∨
    (s.caller c).pos = .waitSuspend ∧
      (x = .signal ∧ s.woken (s.caller c) = false ∨ x = .observedIdle ∧ s.lineIdle = false) ∨
    (s.caller c).pos = .xfer ∧ s.answers = []

/-- One micro-step of a context that is placed leaves it placed, and with fewer steps left unless it had none. -/
theorem microStep_placed (h : (s.caller c).placed e) (x : WaitExit) :
    ((microStep e c x s).caller c).placed e ∧
      (s.stuck c x ∨
        ((microStep e c x s).caller c).remaining e < (s.caller c).remaining e) := by
  by_cases hidle : (s.caller c).pos = .idle
  · rw [microStep_idle hidle]; exact ⟨h, .inl (.inl hidle)⟩
  have hc := State.exists_of_pos hidle
  generalize hu : s.caller c = u at h hidle
  unfold microStep
  rw [hu]
  cases hpos : u.pos with
  | idle => exact absurd hpos hidle
  | validate =>
    have hlt : u.sub < e.prims.length := by simpa [Caller.placed, hpos] using h
    have := e.costFrom_eq hlt
    have := e.costFrom_pos u.sub
    simp only [stepValidate, hu]
    split <;> simp only [State.caller_setCaller_self hc]
    · refine ⟨by simpa [Caller.placed] using hlt, .inr ?_⟩
      simp only [Caller.remaining, hpos, Expansion.framesOf, Expansion.primitive] at *
      omega
    · refine ⟨by simp [Caller.placed], .inr ?_⟩
      simp only [Caller.remaining, hpos]; omega
  | sub =>
    have hlt : u.sub < e.prims.length := by simpa [Caller.placed, hpos] using h
    simp only [stepSub, hu, State.caller_setCaller_self hc]
    refine ⟨by simpa [Caller.placed] using hlt, .inr ?_⟩
    simp only [Caller.remaining, hpos, Expansion.framesOf, Expansion.primitive]
    omega
  | acquire =>
    have hlt : u.sub < e.prims.length := by simpa [Caller.placed, hpos] using h
    simp only [stepAcquire, State.tryAcquire]
    cases s.excl
    · have hc' : c < ({ s with excl := true } : State).callers.length := hc
      have hu' : ({ s with excl := true } : State).caller c = u := hu
      simp only [Bool.false_eq_true, if_false, State.caller_setCaller_self hc', hu']
      refine ⟨by simpa [Caller.placed] using hlt, .inr ?_⟩
      simp only [Caller.remaining, hpos, Expansion.framesOf, Expansion.primitive]
      omega
    · have hc' : c < (s.setCaller c { u with cause := some .exclHeld }).callers.length := by simpa using hc
      simp only [if_true, hu, finishPrimitive_caller hc', State.caller_setCaller_self hc]
      have := placed_afterSubStep (e := e)
        { u with
          cause := some .exclHeld
          pos := (afterSubStep e.prims.length u.sub .busy).1
          sub := (afterSubStep e.prims.length u.sub .busy).2
          k := 0
          st := .busy } _ _ _ rfl rfl rfl
      refine ⟨this.1, .inr (Nat.lt_of_le_of_lt this.2 ?_)⟩
      simp only [Caller.remaining, hpos]; omega
  | check =>
    have hlt : u.sub < e.prims.length := by simpa [Caller.placed, hpos] using h
    obtain ⟨p, hp⟩ := Expansion.primitive_some hlt
    simp only [stepCheck, hu, hp]
    split
    · simp only [State.raiseError, State.caller_setCaller_self hc, hu]
      refine ⟨by simpa [Caller.placed] using hlt, .inr ?_⟩
      simp only [Caller.remaining, hpos]; omega
    · simp only [State.caller_setCaller_self hc]
      have hp' : e.primitive { u with pos := .fill, k := 0 } = some p := hp
      refine ⟨⟨p, hp', p.frames_pos⟩, .inr ?_⟩
      simp only [Caller.remaining, hpos, Expansion.framesOf, Expansion.framesLeft, hp, hp']
      omega
  | fill =>
    obtain ⟨p, hp, hk⟩ : ∃ p, e.primitive u = some p ∧ u.k < p.frames.length := by simpa [Caller.placed, hpos] using h
    have hf : e.frame u = some p.frames[u.k] := by simp [Expansion.frame, hp, hk]
    have hc' : c < ({ s with outBuf := memWrite s.outBuf 0 p.frames[u.k].words } : State).callers.length := hc
    simp only [stepFill, hu, hf, State.caller_setCaller_self hc']
    refine ⟨⟨p, hp, hk⟩, .inr ?_⟩
    simp only [Caller.remaining, hpos, Expansion.framesLeft, Expansion.primitive]
    omega
  | waitSample =>
    obtain ⟨p, hp, hk⟩ : ∃ p, e.primitive u = some p ∧ u.k < p.frames.length := by simpa [Caller.placed, hpos] using h
    have hc' : c < s.sampleBusy.callers.length := hc
    have hleft : e.framesLeft u = p.frames.length - u.k := by simp [Expansion.framesLeft, hp]
    have hleft' : ∀ q, e.framesLeft { u with pos := q } = e.framesLeft u := fun _ => rfl
    simp only [stepWaitSample, hu, State.caller_setCaller_self hc']
    split
    · refine ⟨⟨p, hp, hk⟩, .inr ?_⟩
      simp only [Caller.remaining, hpos, hleft']
      have := e.costFrom_pos (u.sub + 1)
      omega
    · refine ⟨⟨p, hp, hk⟩, .inr ?_⟩
      simp only [Caller.remaining, hpos, hleft']
      omega
  | waitRegister =>
    obtain ⟨p, hp, hk⟩ : ∃ p, e.primitive u = some p ∧ u.k < p.frames.length := by simpa [Caller.placed, hpos] using h
    have hc' : c < s.registerHandle.callers.length := hc
    have hleft : e.framesLeft u = p.frames.length - u.k := by simp [Expansion.framesLeft, hp]
    have hleft' : ∀ q n, e.framesLeft { u with pos := q, hnd := n } = e.framesLeft u := fun _ _ => rfl
    simp only [stepWaitRegister, hu, State.caller_setCaller_self hc']
    refine ⟨⟨p, hp, hk⟩, .inr ?_⟩
    simp only [Caller.remaining, hpos, hleft']
    have := e.costFrom_pos (u.sub + 1)
    omega
  | waitSuspend =>
    obtain ⟨p, hp, hk⟩ : ∃ p, e.primitive u = some p ∧ u.k < p.frames.length := by simpa [Caller.placed, hpos] using h
    have hc' : c < s.sampleBusy.callers.length := hc
    have hleft : e.framesLeft u = p.frames.length - u.k := by simp [Expansion.framesLeft, hp]
    have hleft' : ∀ q, e.framesLeft { u with pos := q } = e.framesLeft u := fun _ => rfl
    have hkeep : (s.caller c).placed e := by rw [hu]; exact h
    have hgo : (Caller.placed e { u with pos := .waitDeregister }) ∧
        Caller.remaining e { u with pos := .waitDeregister } < Caller.remaining e u := by
      refine ⟨⟨p, hp, hk⟩, ?_⟩
      simp only [Caller.remaining, hpos, hleft']
      omega
    have hpos' : (s.caller c).pos = .waitSuspend := by rw [hu]; exact hpos
    cases x <;> simp only [stepWaitSuspend, hu] <;> split
    · simp only [State.caller_setCaller_self hc]; exact ⟨hgo.1, .inr hgo.2⟩
    · next hw =>
      exact ⟨hkeep, .inl (.inr (.inl ⟨hpos', .inl ⟨rfl, by rw [hu]; exact eq_false_of_ne_true hw⟩⟩))⟩
    · simp only [State.caller_setCaller_self hc']; exact ⟨hgo.1, .inr hgo.2⟩
    · next hw => exact ⟨hkeep, .inl (.inr (.inl ⟨hpos', .inr ⟨rfl, eq_false_of_ne_true hw⟩⟩))⟩
  | waitDeregister =>
    obtain ⟨p, hp, hk⟩ : ∃ p, e.primitive u = some p ∧ u.k < p.frames.length := by simpa [Caller.placed, hpos] using h
    have hc' : c < s.deregister.callers.length := hc
    have hleft : e.framesLeft u = p.frames.length - u.k := by simp [Expansion.framesLeft, hp]
    have hleft' : ∀ q n, e.framesLeft { u with pos := q, hnd := n } = e.framesLeft u := fun _ _ => rfl
    simp only [stepWaitDeregister, hu, State.caller_setCaller_self hc']
    refine ⟨⟨p, hp, hk⟩, .inr ?_⟩
    simp only [Caller.remaining, hpos, hleft']
    omega
  | xfer =>
    obtain ⟨p, hp, hk⟩ : ∃ p, e.primitive u = some p ∧ u.k < p.frames.length := by simpa [Caller.placed, hpos] using h
    have hf : e.frame u = some p.frames[u.k] := by simp [Expansion.frame, hp, hk]
    have hsub := Expansion.sub_lt hp
    have hleft : e.framesLeft u = p.frames.length - u.k := by simp [Expansion.framesLeft, hp]
    simp only [stepXfer, hu, hp, hf]
    cases hans : s.answers with
    | nil => exact ⟨by rw [hu]; exact h, .inl (.inr (.inr ⟨by rw [hu]; exact hpos, hans⟩))⟩
    | cons a as =>
      have hc' : c < ({ s.transfer p.frames[u.k].len a with answers := as } : State).callers.length := hc
      have hu' : ({ s.transfer p.frames[u.k].len a with answers := as } : State).caller c = u := hu
      dsimp only
      split
      · simp only [State.caller_setCaller_self hc']
        rcases p.afterFrame_cases u.k with ⟨hlt, hq⟩ | ⟨hd, hq⟩ | hq <;> rw [hq]
        · have hp' : e.primitive { u with pos := .fill, k := u.k + 1 } = some p := hp
          refine ⟨⟨p, hp', hlt⟩, .inr ?_⟩
          have hleft' : e.framesLeft { u with pos := .fill, k := u.k + 1 } = p.frames.length - (u.k + 1) := by
            simp [Expansion.framesLeft, hp']
          simp only [Caller.remaining, hpos, hleft, hleft']
          omega
        · refine ⟨⟨p, hp, hd⟩, .inr ?_⟩
          simp only [Caller.remaining, hpos, hleft]
          omega
        · refine ⟨by simpa [Caller.placed] using hsub, .inr ?_⟩
          simp only [Caller.remaining, hpos, hleft]
          omega
      · simp only [State.raiseError, State.caller_setCaller_self hc', hu']
        refine ⟨by simpa [Caller.placed] using hsub, .inr ?_⟩
        simp only [Caller.remaining, hpos, hleft]
        omega
  | deliver =>
    obtain ⟨p, hp, hd⟩ : ∃ p, e.primitive u = some p ∧ p.delivers.isSome = true := by
      simpa [Caller.placed, hpos] using h
    obtain ⟨len, hlen⟩ := Option.isSome_iff_exists.mp hd
    have hsub := Expansion.sub_lt hp
    simp only [stepDeliver, hu, hp, Option.bind_some, hlen, State.caller_setCaller_self hc]
    refine ⟨by simpa [Caller.placed] using hsub, .inr ?_⟩
    simp only [Caller.remaining, hpos]
    omega
  | release r =>
    have hc' : c < s.releaseExcl.callers.length := hc
    simp only [stepRelease, finishPrimitive_caller hc', State.caller_releaseExcl, hu]
    have := placed_afterSubStep (e := e)
      { u with
        pos := (afterSubStep e.prims.length u.sub r).1
        sub := (afterSubStep e.prims.length u.sub r).2
        k := 0
        st := r } _ _ _ rfl rfl rfl
    refine ⟨this.1, .inr (Nat.lt_of_le_of_lt this.2 ?_)⟩
    simp only [Caller.remaining, hpos]; omega
  | lineLow =>
    have hc' : c < (s.writeLine .low).callers.length := hc
    simp only [stepLineLow, State.caller_setCaller_self hc']
    simp [Caller.placed, Caller.remaining, hpos]
  | hold =>
    have hc' : c < (s.delay Config.resetHoldMs).callers.length := hc
    simp only [stepHold, State.caller_setCaller_self hc']
    simp [Caller.placed, Caller.remaining, hpos]
  | lineHigh =>
    have hc' : c < ({ s.writeLine .high with power := s.cfg.powerAfterReset } : State).callers.length := hc
    simp only [stepLineHigh, State.caller_setCaller_self hc']
    simp [Caller.placed, Caller.remaining, hpos]
  | ret r =>
    simp only [stepReturn]
    rw [State.caller_setCaller_self (by exact hc)]
    simp [Caller.placed, Caller.remaining, Caller.idle, hpos]

/-- A blocked context's step changes nothing. -/
theorem microStep_blocked (h : s.blocked c = true) : microStep e c (s.firstExit c) s = s := by
  unfold State.blocked at h
  unfold microStep
  cases hpos : (s.caller c).pos <;> simp only [hpos] at h <;> try exact absurd h (by decide)
  · rw [Bool.and_eq_true, Bool.not_eq_true', Bool.not_eq_true'] at h
    simp [stepWaitSuspend, State.firstExit, h.1, h.2]
  · rw [List.isEmpty_iff] at h
    simp [stepXfer, h]

/-- A blocked context stays as it is. -/
theorem runSteps_blocked (h : s.blocked c = true) (n : Nat) : runSteps e c n s = s := by
  induction n with
  | zero => rfl
  | succ n ih => rw [runSteps_succ, microStep_blocked h, ih]

/-- A context that has no step by its first exit is at `Idle` or blocked. -/
theorem blocked_of_stuck (h : s.stuck c (s.firstExit c)) : (s.caller c).pos = .idle ∨ s.blocked c = true := by
  rcases h with h | ⟨h, hx⟩ | ⟨h, ha⟩
  · exact .inl h
  · refine .inr ?_
    cases hw : s.woken (s.caller c)
    · have : s.firstExit c = .observedIdle := by simp [State.firstExit, hw]
      simpa [State.blocked, h, hw, this] using hx
    · have : s.firstExit c = .signal := by simp [State.firstExit, hw]
      simp [this, hw] at hx
  · exact .inr (by simp [State.blocked, h, ha])

/-- A placed context that is stuck is at rest, and stays as it is. -/
theorem settled_of_stuck (hp : (s.caller c).placed e) (h : s.stuck c (s.firstExit c)) :
    s.atRest c = true ∧ ∀ k, runSteps e c k s = s := by
  rcases blocked_of_stuck h with h | h
  · have : (s.caller c).req = none := by simpa [Caller.placed, h] using hp
    exact ⟨by simp [State.atRest, this], runSteps_idle h⟩
  · exact ⟨by simp [State.atRest, h], runSteps_blocked h⟩

/-- A context that is placed is at rest after as many steps as it has left at most, and stays as it then is (R38,
R112). -/
theorem runSteps_settled {n : Nat} (hp : (s.caller c).placed e) (hn : (s.caller c).remaining e ≤ n) :
    (runSteps e c n s).atRest c = true ∧ ∀ k, runSteps e c k (runSteps e c n s) = runSteps e c n s := by
  induction n generalizing s with
  | zero =>
    obtain ⟨-, h | h⟩ := microStep_placed hp (s.firstExit c)
    · exact settled_of_stuck hp h
    · omega
  | succ n ih =>
    obtain ⟨hp', h | h⟩ := microStep_placed hp (s.firstExit c)
    · obtain ⟨h1, h2⟩ := settled_of_stuck hp h
      rw [h2]; exact ⟨h1, h2⟩
    · rw [runSteps_succ]
      exact ih hp' (by omega)

/-- Where a run has come to a state that more steps leave alone, every long enough run comes to it. -/
theorem runSteps_reaches {m n : Nat} {t : State} (hp : (s.caller c).placed e) (hn : (s.caller c).remaining e ≤ n)
    (hm : runSteps e c m s = t) (ht : ∀ k, runSteps e c k t = t) : runSteps e c n s = t := by
  obtain ⟨-, hfix⟩ := runSteps_settled hp hn
  rcases Nat.le_total m n with h | h
  · obtain ⟨d, rfl⟩ := Nat.le.dest h
    rw [runSteps_add, hm, ht]
  · obtain ⟨d, rfl⟩ := Nat.le.dest h
    rw [← hm, runSteps_add, hfix]

/-! ## The expansions -/

/-- How a request may begin: at a primitive it has, or at the reset line (R98). -/
def Expansion.sound (e : Expansion) : Prop :=
  ((e.start = .acquire ∨ e.start = .sub ∨ e.start = .validate) ∧ e.prims ≠ []) ∨ e.start = .lineLow

theorem expansionOf_sound (cfg : Config) (i : Instr) : (expansionOf cfg i).sound := by
  cases i <;> simp [expansionOf, Expansion.sound, expandSendCommand, expandSendCommandParams, expandWriteData,
    expandReadData, expandWriteRegister, expandReadRegister, expandWakeUp, expandStandby, expandSleep, expandReset,
    expandGetDeviceInfo, expandSetVcom, expandGetVcom, expandEnableParameterPack, expandIsDisplayReady,
    expandWriteImage, expandDisplay, expandClear, Expansion.raw, Expansion.composite, readRegisterPrims]

/-- The request an instruction is issued as has the instruction's expansion. -/
theorem expansionOf_asRequest (cfg : Config) (i : Instr) : expansionOf cfg (asRequest i) = expansionOf cfg i := by
  cases i <;> rfl

/-- The meaning of an instruction: its request, with its expansion, issued and run. -/
theorem exec_eq (i : Instr) (s : State) : exec i s = runRequest (asRequest i) (expansionOf s.cfg i) s := by
  cases i <;> rfl

/-- The budget covers the steps of the primitives. -/
theorem Expansion.costFrom_le_budget (e : Expansion) : e.costFrom 0 + 3 ≤ e.budget := by
  have h : ∀ ps : List Primitive,
      (ps.map Primitive.cost).sum ≤ (ps.map fun p => 6 + 6 * p.frames.length).sum := by
    intro ps
    induction ps with
    | nil => simp
    | cons p ps ih => simp only [List.map_cons, List.sum_cons, Primitive.cost] at *; omega
  have := h e.prims
  simp only [Expansion.costFrom, List.drop_zero, Expansion.budget]
  omega

/-- An issued request is placed, and the budget covers the steps it has. -/
theorem Expansion.sound.issued (h : e.sound) (i : Instr) :
    Caller.placed e { Caller.idle with req := some i, pos := e.start } ∧
      Caller.remaining e { Caller.idle with req := some i, pos := e.start } ≤ e.budget := by
  have hb := e.costFrom_le_budget
  rcases h with ⟨hs, hne⟩ | hs
  · have hlt : (0 : Nat) < e.prims.length := List.length_pos_of_ne_nil hne
    have hcost := e.costFrom_eq (u := { Caller.idle with req := some i, pos := e.start }) hlt
    dsimp only [Caller.idle] at hcost
    rcases hs with hs | hs | hs <;> rw [hs] at hcost ⊢ <;>
      refine ⟨by simpa [Caller.placed, Caller.idle] using hlt, ?_⟩ <;> simp only [Caller.remaining, Caller.idle] <;> omega
  · rw [hs]
    refine ⟨by simp [Caller.placed], ?_⟩
    simp only [Caller.remaining, Expansion.budget]; omega

/-- What `exec` answers for a context that accepts it: the state a run from the issued request comes to. -/
theorem exec_reaches {i : Instr} {m : Nat} {t : State} (h : s.accepting)
    (hm : runSteps (expansionOf s.cfg i) s.active m
      (s.setCaller s.active
        { Caller.idle with req := some (asRequest i), pos := (expansionOf s.cfg i).start }) = t)
    (ht : ∀ k, runSteps (expansionOf s.cfg i) s.active k t = t) : exec i s = .next t := by
  have hissued := (expansionOf_sound s.cfg i).issued (asRequest i)
  rw [exec_eq, runRequest_accepting h]
  refine congrArg _ (runSteps_reaches ?_ ?_ hm ht) <;> rw [State.caller_setCaller_self h.2.1]
  · exact hissued.1
  · exact hissued.2

end Sys2Proof.Machine
end

