-- ==== Sys2Proof/Laws/Invariants.lean ====
section
/-! SUPPORT. The invariants across one micro-step of a context: exclusivity (R69), the soundness of the handles (R137)
and the capacity check (R104), each a lemma that a step, a run or a whole request cites. -/

namespace Sys2Proof.Machine

variable {e : Expansion} {c : Nat} {s t : State} {u : Caller}

/-! ## Exclusivity -/

/-- A local step that leaves `excl` alone and does not make its context a holder keeps exclusivity. -/
theorem State.exclusive.of_local (h : s.exclusive) (hl : Local c s t) (he : t.excl = s.excl)
    (hc : t.holds c = true → s.holds c = true) : t.exclusive := by
  have hd : ∀ d, t.holds d = true → s.holds d = true := fun d hd => by
    by_cases hdc : d = c
    · exact hdc ▸ hc (hdc ▸ hd)
    · rwa [State.holds, hl.others d hdc] at hd
  exact ⟨fun d hh => he ▸ h.1 d (hd d hh), fun a b ha hb => h.2 a b (hd a ha) (hd b hb)⟩

/-- The position after a micro-step from a position that does not hold `excl`, `Acquire` apart, does not hold it. -/
theorem microStep_holds (hpos : (s.caller c).pos.holdsExcl = false) (ha : (s.caller c).pos ≠ .acquire) (x : WaitExit) :
    (microStep e c x s).holds c = false ∧ (microStep e c x s).excl = s.excl := by
  by_cases hidle : (s.caller c).pos = .idle
  · rw [microStep_idle hidle]; exact ⟨hpos, rfl⟩
  have hc := State.exists_of_pos hidle
  unfold microStep State.holds
  cases hp : (s.caller c).pos <;> simp only [hp, Pos.holdsExcl] at hpos <;>
    first | exact absurd hpos (by decide) | exact absurd hp ha | exact absurd hp hidle | skip
  · simp only [stepValidate]
    split <;> simp [hc, Pos.holdsExcl]
  · simp [stepSub, hc, Pos.holdsExcl]
  · simp only [stepLineLow]
    rw [State.caller_setCaller_self (by exact hc)]; exact ⟨rfl, rfl⟩
  · simp only [stepHold]
    rw [State.caller_setCaller_self (by exact hc)]; exact ⟨rfl, rfl⟩
  · simp only [stepLineHigh]
    rw [State.caller_setCaller_self (by exact hc)]; exact ⟨rfl, rfl⟩
  · simp only [stepReturn]
    rw [State.caller_setCaller_self (by exact hc)]; exact ⟨rfl, rfl⟩

/-- Past `Acquire` and before the release a micro-step leaves `excl` alone. -/
theorem microStep_excl (hpos : (s.caller c).pos.holdsExcl = true) (hr : ∀ r, (s.caller c).pos ≠ .release r)
    (x : WaitExit) : (microStep e c x s).excl = s.excl := by
  unfold microStep
  cases hp : (s.caller c).pos <;> simp only [hp, Pos.holdsExcl] at hpos <;>
    first | exact absurd hpos (by decide) | exact absurd hp (hr _) | skip
  · simp only [stepCheck]; split
    · rfl
    · split <;> rfl
  · simp only [stepFill]; split <;> rfl
  · rfl
  · rfl
  · cases x <;> simp only [stepWaitSuspend] <;> split <;> rfl
  · rfl
  · simp only [stepXfer]; split
    · split <;> rfl
    · rfl
  · simp only [stepDeliver]; split <;> rfl

/-- R23, R69: a micro-step keeps exclusivity. -/
theorem microStep_exclusive (h : s.exclusive) (x : WaitExit) : (microStep e c x s).exclusive := by
  have hl := microStep_local e c x s
  by_cases ha : (s.caller c).pos = .acquire
  · have hc := State.exists_of_pos (s := s) (c := c) (by rw [ha]; decide)
    cases hx : s.excl
    · have hnone : ∀ d, s.holds d = false := fun d => by
        by_contra hd
        have := h.1 d (by simpa using hd)
        simp [hx] at this
      have ht : microStep e c x s = State.setCaller { s with excl := true } c { s.caller c with pos := .check } := by
        simp only [microStep, ha, stepAcquire, State.tryAcquire, hx]; rfl
      have honly : ∀ d, (microStep e c x s).holds d = true → d = c := fun d hd => by
        by_contra hdc
        rw [State.holds, hl.others d hdc] at hd
        have := hnone d
        rw [State.holds] at this
        simp [this] at hd
      exact ⟨fun _ _ => by rw [ht]; rfl, fun a b ha hb => (honly a ha).trans (honly b hb).symm⟩
    · refine h.of_local hl ?_ (fun hh => ?_)
      · simp [microStep, ha, stepAcquire_held hc hx]
      · simp [microStep, ha, stepAcquire_held hc hx, State.holds, hc, Pos.holdsExcl] at hh
  · cases hp : (s.caller c).pos.holdsExcl
    · obtain ⟨hn, hx⟩ := microStep_holds (e := e) hp ha x
      exact h.of_local hl hx (by simp [hn])
    · by_cases hr : ∃ r, (s.caller c).pos = .release r
      · obtain ⟨r, hr⟩ := hr
        have hc := State.exists_of_pos (s := s) (c := c) (by rw [hr]; exact Pos.noConfusion)
        have hc' : c < s.releaseExcl.callers.length := hc
        have hnone : ∀ d, (microStep e c x s).holds d = false := fun d => by
          by_cases hdc : d = c
          · subst hdc
            simp only [microStep, hr, stepRelease, State.holds, finishPrimitive_caller hc']
            rcases afterSubStep_cases e.prims.length (s.releaseExcl.caller d).sub r with ⟨-, -, hb⟩ | hb <;>
              rw [hb] <;> rfl
          · by_contra hd
            rw [State.holds, hl.others d hdc] at hd
            exact hdc (h.2 d c (by simpa [State.holds] using hd) hp)
        exact ⟨fun d hd => by simp [hnone d] at hd, fun d _ hd => by simp [hnone d] at hd⟩
      · exact h.of_local hl (microStep_excl hp (fun r hh => hr ⟨r, hh⟩) x) (fun _ => hp)

/-! ## The request in progress, and the capacity check -/

/-- A micro-step leaves its context's request in progress, or ends it and leaves the context at `Idle`. -/
theorem microStep_req (e : Expansion) (c : Nat) (x : WaitExit) (s : State) :
    ((microStep e c x s).caller c).req = (s.caller c).req ∨
      ((microStep e c x s).caller c).req = none ∧ ((microStep e c x s).caller c).pos = .idle := by
  by_cases hidle : (s.caller c).pos = .idle
  · rw [microStep_idle hidle]; exact .inl rfl
  have hc := State.exists_of_pos hidle
  unfold microStep
  cases hp : (s.caller c).pos with
  | idle => exact .inl rfl
  | validate => left; simp only [stepValidate]; split <;> simp [hc]
  | sub => left; simp [stepSub, hc]
  | acquire =>
    left
    cases hx : s.excl
    · rw [stepAcquire_free hx, State.caller_setCaller_self (by exact hc)]
    · rw [stepAcquire_held hc hx, State.caller_setCaller_self hc]
  | check =>
    left
    simp only [stepCheck]
    split
    · rfl
    · split <;> simp [State.raiseError, hc]
  | fill =>
    left
    simp only [stepFill]
    split
    · rfl
    · rw [State.caller_setCaller_self (by exact hc)]
  | waitSample => left; simp only [stepWaitSample]; rw [State.caller_setCaller_self (by exact hc)]
  | waitRegister => left; simp only [stepWaitRegister]; rw [State.caller_setCaller_self (by exact hc)]
  | waitSuspend =>
    left
    cases x <;> simp only [stepWaitSuspend] <;> split
    · rw [State.caller_setCaller_self hc]
    · rfl
    · rw [State.caller_setCaller_self (by exact hc)]
    · rfl
  | waitDeregister => left; simp only [stepWaitDeregister]; rw [State.caller_setCaller_self (by exact hc)]
  | xfer =>
    left
    simp only [stepXfer]
    split
    · split
      · rw [State.caller_setCaller_self (by exact hc)]
      · rw [State.raiseError, State.caller_setCaller_self (by exact hc)]; rfl
    · rfl
  | deliver => left; simp only [stepDeliver]; split <;> simp [hc]
  | release r =>
    left
    simp only [stepRelease]
    rw [finishPrimitive_caller (by exact hc)]; rfl
  | lineLow => left; simp only [stepLineLow]; rw [State.caller_setCaller_self (by exact hc), Caller.toLineStep_req]
  | hold => left; simp only [stepHold]; rw [State.caller_setCaller_self (by exact hc), Caller.toLineStep_req]
  | lineHigh => left; simp only [stepLineHigh]; rw [State.caller_setCaller_self (by exact hc)]
  | ret r => right; simp only [stepReturn]; rw [State.caller_setCaller_self (by exact hc)]; exact ⟨rfl, rfl⟩

/-- Another context's steps do not change whether a context overruns. -/
theorem Local.overruns {d : Nat} (hl : Local c s t) (h : d ≠ c) : overruns e d t = overruns e d s := by
  simp [Machine.overruns, hl.others d h, hl.cfg]

/-- A context at a position that does not use the buffers overruns nothing. -/
theorem overruns_of_pos (h : (s.caller c).pos.usesBuffers = false) : overruns e c s = false := by
  simp [overruns, h]

/-- A context in the same primitive, under the same capacity, overruns no more than before. -/
theorem overruns_congr (hs : s.cfg.capacity = t.cfg.capacity) (hu : (s.caller c).sub = (t.caller c).sub)
    (hp : (s.caller c).pos.usesBuffers = true) (h : overruns e c s = false) : overruns e c t = false := by
  simp only [overruns, hp, Bool.true_and, Expansion.primitive, hs, hu] at h
  simp only [overruns, Expansion.primitive, h, Bool.and_false]

/-- R47, R104: a micro-step takes no context past a capacity check it has not passed. -/
theorem microStep_overruns (h : overruns e c s = false) (x : WaitExit) : overruns e c (microStep e c x s) = false := by
  by_cases hidle : (s.caller c).pos = .idle
  · rw [microStep_idle hidle]; exact h
  have hc := State.exists_of_pos hidle
  unfold microStep
  cases hp : (s.caller c).pos with
  | idle => exact absurd hp hidle
  | validate => apply overruns_of_pos; simp only [stepValidate]; split <;> simp [hc, Pos.usesBuffers]
  | sub => apply overruns_of_pos; simp [stepSub, hc, Pos.usesBuffers]
  | acquire =>
    apply overruns_of_pos
    cases hx : s.excl
    · rw [stepAcquire_free hx, State.caller_setCaller_self (by exact hc)]; rfl
    · rw [stepAcquire_held hc hx, State.caller_setCaller_self hc]; rfl
  | check =>
    simp only [stepCheck]
    split
    · exact h
    · next p hpr =>
      split
      · apply overruns_of_pos; simp [State.raiseError, hc, Pos.usesBuffers]
      · next hfit =>
        have hpr' : e.primitive { s.caller c with pos := .fill, k := 0 } = some p := hpr
        simp only [overruns, State.caller_setCaller_self hc, hpr']
        exact Bool.and_eq_false_iff.mpr (.inr (decide_eq_false hfit))
  | fill =>
    simp only [stepFill]
    split
    · exact h
    · refine overruns_congr (s := s) rfl ?_ (by rw [hp]; rfl) h
      rw [State.caller_setCaller_self (by exact hc)]
  | waitSample =>
    simp only [stepWaitSample]
    refine overruns_congr (s := s) rfl ?_ (by rw [hp]; rfl) h
    rw [State.caller_setCaller_self (by exact hc)]
  | waitRegister =>
    simp only [stepWaitRegister]
    refine overruns_congr (s := s) rfl ?_ (by rw [hp]; rfl) h
    rw [State.caller_setCaller_self (by exact hc)]
  | waitSuspend =>
    cases x <;> simp only [stepWaitSuspend] <;> split <;> try exact h
    · refine overruns_congr (s := s) rfl ?_ (by rw [hp]; rfl) h
      rw [State.caller_setCaller_self (by exact hc)]
    · refine overruns_congr (s := s) rfl ?_ (by rw [hp]; rfl) h
      rw [State.caller_setCaller_self (by exact hc)]
  | waitDeregister =>
    simp only [stepWaitDeregister]
    refine overruns_congr (s := s) rfl ?_ (by rw [hp]; rfl) h
    rw [State.caller_setCaller_self (by exact hc)]
  | xfer =>
    simp only [stepXfer]
    split
    · split
      · refine overruns_congr (s := s) rfl ?_ (by rw [hp]; rfl) h
        rw [State.caller_setCaller_self (by exact hc)]
      · apply overruns_of_pos
        rw [State.raiseError, State.caller_setCaller_self (by exact hc)]; rfl
    · exact h
  | deliver =>
    simp only [stepDeliver]
    split
    · exact h
    · apply overruns_of_pos; simp [hc, Pos.usesBuffers]
  | release r =>
    apply overruns_of_pos
    simp only [stepRelease]
    rw [finishPrimitive_caller (by exact hc)]
    rcases afterSubStep_cases e.prims.length (s.releaseExcl.caller c).sub r with ⟨-, -, hb⟩ | hb <;> rw [hb] <;> rfl
  | lineLow => apply overruns_of_pos; simp only [stepLineLow]; rw [State.caller_setCaller_self (by exact hc)]; rfl
  | hold => apply overruns_of_pos; simp only [stepHold]; rw [State.caller_setCaller_self (by exact hc)]; rfl
  | lineHigh => apply overruns_of_pos; simp only [stepLineHigh]; rw [State.caller_setCaller_self (by exact hc)]; rfl
  | ret r => apply overruns_of_pos; simp only [stepReturn]; rw [State.caller_setCaller_self (by exact hc)]; rfl

/-- R104: a context's micro-step keeps every context within the buffers. -/
theorem microStep_fits {i : Instr} (h : s.fits) (hr : (s.caller c).req = some i) (x : WaitExit) :
    (microStep (expansionOf s.cfg i) c x s).fits := by
  intro d j hj
  have hl := microStep_local (expansionOf s.cfg i) c x s
  rw [hl.cfg]
  by_cases hd : d = c
  · subst hd
    rcases microStep_req (expansionOf s.cfg i) d x s with hq | ⟨hq, -⟩
    · rw [hq, hr, Option.some.injEq] at hj
      exact hj ▸ microStep_overruns (h d i hr) x
    · rw [hq] at hj; exact absurd hj (by simp)
  · rw [hl.overruns hd]
    rw [hl.others d hd] at hj
    exact h d j hj

/-- R104: a context's run keeps every context within the buffers. -/
theorem runSteps_fits {i : Instr} (n : Nat) (h : s.fits) (hr : (s.caller c).req = some i) :
    (runSteps (expansionOf s.cfg i) c n s).fits := by
  induction n generalizing s with
  | zero => exact h
  | succ n ih =>
    have hl := microStep_local (expansionOf s.cfg i) c (s.firstExit c) s
    have hf := microStep_fits h hr (s.firstExit c)
    rw [runSteps_succ]
    rcases microStep_req (expansionOf s.cfg i) c (s.firstExit c) s with hq | ⟨-, hq⟩
    · have := ih hf (hq.trans hr)
      rwa [hl.cfg] at this
    · rw [runSteps_idle hq]; exact hf

/-! ## Handles -/

/-- The handles are sound in a state with the same handles, slot, edge record and waits. -/
theorem State.handlesSound.of_eq (h : s.handlesSound) (hh : t.handles = s.handles)
    (hs : t.slot = s.slot ∨ t.slot = .inert) (ht : t.edgeTargets = s.edgeTargets)
    (hc : ∀ d, (t.caller d).hnd = (s.caller d).hnd ∨ (t.caller d).hnd = none) : t.handlesSound := by
  obtain ⟨h1, h2, h3, h4, h5⟩ := h
  refine ⟨by rw [ht, hh]; exact h1, by rw [ht]; exact h2, fun g hg => ?_, fun d g hg => ?_, by rw [hh]; exact h5⟩
  · rw [hh]
    rcases hs with hs | hs
    · exact h3 g (hs ▸ hg)
    · rw [hs] at hg; exact absurd hg (by simp)
  · rw [hh]
    rcases hc d with hd | hd
    · exact h4 d g (hd ▸ hg)
    · rw [hd] at hg; exact absurd hg (by simp)

/-- Setting a context whose wait is as before, or over, keeps the handles sound. -/
theorem State.handlesSound.setCaller (h : s.handlesSound) (hu : u.hnd = (s.caller c).hnd ∨ u.hnd = none) :
    (s.setCaller c u).handlesSound := by
  refine h.of_eq rfl (.inl rfl) rfl fun d => ?_
  by_cases hdc : d = c
  · subst hdc
    by_cases hc : d < s.callers.length
    · rw [State.caller_setCaller_self hc]; exact hu
    · rw [State.setCaller_absent (Nat.le_of_not_lt hc)]; exact .inl rfl
  · rw [State.caller_setCaller_other _ (Ne.symm hdc)]; exact .inl rfl

/-- R130: registering a fresh handle and waiting for it keeps the handles sound. -/
theorem State.handlesSound.register (h : s.handlesSound) (hu : u.hnd = some s.handles.length) :
    (s.registerHandle.setCaller c u).handlesSound := by
  obtain ⟨h1, h2, h3, h4, h5⟩ := h
  have hlen : (s.registerHandle.setCaller c u).handles.length = s.handles.length + 1 := by
    simp [State.registerHandle, State.log, State.setCaller]
  refine ⟨fun g hg => by rw [hlen]; exact Nat.lt_succ_of_lt (h1 g hg), h2, fun g hg => ?_, fun d g hg => ?_,
    fun g hg hw => ?_⟩
  · rw [hlen]
    have : Slot.handler s.handles.length = .handler g := hg
    simp only [Slot.handler.injEq] at this
    omega
  · rw [hlen]
    by_cases hdc : d = c
    · subst hdc
      by_cases hc : d < s.registerHandle.callers.length
      · rw [State.caller_setCaller_self hc, hu, Option.some.injEq] at hg; omega
      · rw [State.setCaller_absent (Nat.le_of_not_lt hc)] at hg
        exact Nat.lt_succ_of_lt (h4 d g hg)
    · rw [State.caller_setCaller_other _ (Ne.symm hdc)] at hg
      exact Nat.lt_succ_of_lt (h4 d g hg)
  · have hg : g ∈ s.handles ++ [{ delivered := false, signalled := false }] := hg
    rcases List.mem_append.mp hg with hg | hg
    · exact h5 g hg hw
    · rw [List.mem_singleton] at hg
      subst hg
      exact absurd hw (by decide)

/-- R25, R31, R137: a micro-step keeps the handles sound. -/
theorem microStep_handlesSound (h : s.handlesSound) (x : WaitExit) : (microStep e c x s).handlesSound := by
  unfold microStep
  have hsame : ∀ t : State, t.handles = s.handles → t.slot = s.slot → t.edgeTargets = s.edgeTargets →
      t.callers = s.callers → t.handlesSound := fun t h1 h2 h3 h4 =>
    h.of_eq h1 (.inl h2) h3 fun d => .inl (by rw [State.caller_congr h4])
  cases hp : (s.caller c).pos with
  | idle => exact h
  | validate => simp only [stepValidate]; split <;> exact h.setCaller (.inl rfl)
  | sub => exact h.setCaller (.inl rfl)
  | acquire =>
    simp only [stepAcquire, State.tryAcquire]
    cases s.excl
    · exact State.handlesSound.setCaller (hsame { s with excl := true } rfl rfl rfl rfl) (.inl rfl)
    · exact State.handlesSound.setCaller (h.setCaller (.inl rfl)) (.inl rfl)
  | check =>
    simp only [stepCheck]
    split
    · exact h
    · split <;> exact h.setCaller (.inl rfl)
  | fill =>
    simp only [stepFill]
    split
    · exact h
    · exact State.handlesSound.setCaller (hsame { s with outBuf := _ } rfl rfl rfl rfl) (.inl rfl)
  | waitSample => exact State.handlesSound.setCaller (hsame s.sampleBusy rfl rfl rfl rfl) (.inl rfl)
  | waitRegister => exact h.register rfl
  | waitSuspend =>
    cases x <;> simp only [stepWaitSuspend] <;> split <;> try exact h
    · exact h.setCaller (.inl rfl)
    · exact State.handlesSound.setCaller (hsame s.sampleBusy rfl rfl rfl rfl) (.inl rfl)
  | waitDeregister =>
    refine State.handlesSound.setCaller ?_ (.inr rfl)
    exact h.of_eq rfl (.inr rfl) rfl fun _ => .inl rfl
  | xfer =>
    simp only [stepXfer]
    split
    · split <;> exact State.handlesSound.setCaller (hsame { State.transfer s _ _ with answers := _ } rfl rfl rfl rfl)
        (.inl rfl)
    · exact h
  | deliver =>
    simp only [stepDeliver]
    split
    · exact h
    · exact h.setCaller (.inl rfl)
  | release r => exact State.handlesSound.setCaller (hsame s.releaseExcl rfl rfl rfl rfl) (.inl rfl)
  | lineLow => exact State.handlesSound.setCaller (hsame (s.writeLine .low) rfl rfl rfl rfl) (.inl rfl)
  | hold => exact State.handlesSound.setCaller (hsame (s.delay _) rfl rfl rfl rfl) (.inl rfl)
  | lineHigh =>
    exact State.handlesSound.setCaller (hsame { s.writeLine .high with power := _ } rfl rfl rfl rfl) (.inl rfl)
  | ret r => exact State.handlesSound.setCaller (hsame (State.log { s with power := _ } _) rfl rfl rfl rfl) (.inr rfl)

end Sys2Proof.Machine
end

