-- ==== Sys2Proof/Laws/Step.lean ====
section
/-! SUPPORT. What a step of the machine may be, said once (`step_induction`): what holds of every move's effect holds of
every step; and what `exec` may be. -/

namespace Sys2Proof.Machine

variable {P : State → Prop} {s t : State}

/-- What the issue of a request does: nothing where one is in progress, else it sets the context. -/
theorem startMove_cases (c : Nat) (i : Instr) (s : State) :
    startMove c i s = s ∨
      (s.caller c).req = none ∧
        startMove c i s =
          s.setCaller c { Caller.idle with req := some (asRequest i), pos := (expansionOf s.cfg i).start } := by
  unfold startMove issue
  split
  · exact .inr ⟨‹_›, rfl⟩
  · exact .inl rfl

/-- A step with a move at the head of the queue is that move, with the rest of the queue left. -/
theorem step_of_input {s : State} {m : Move} {rest : List Move} (hcap : 2 ≤ s.cfg.capacity)
    (h : s.inputs = m :: rest) : step s = applyMove m { s with inputs := rest } := by
  unfold step takeMove
  rw [if_neg (Nat.not_lt.mpr hcap), h]

/-- What `exec` answers: a refusal for `C < 2`, else the issue of the request and a run of its context; nothing changes
where the context has a request in progress. -/
theorem exec_cases (i : Instr) (s : State) :
    (s.cfg.capacity < 2 ∧ exec i s = .refused .capacityBelowTwo) ∨
      exec i s = .next s ∨
        (s.caller s.active).req = none ∧
          exec i s =
            .next (runSteps (expansionOf s.cfg i) s.active (expansionOf s.cfg i).budget (startMove s.active i s)) := by
  rw [exec_eq]
  unfold runRequest
  split
  · exact .inl ⟨‹_›, rfl⟩
  · split
    · exact .inr (.inl rfl)
    · exact .inr (.inr ⟨‹_›, rfl⟩)

/-- `exec` never faults (R211). -/
theorem exec_no_fault (i : Instr) (s : State) (r : Fault) : exec i s ≠ .fault r := by
  rcases exec_cases i s with ⟨-, h⟩ | h | ⟨-, h⟩ <;> rw [h] <;> simp

/-- What the issue of a request and every micro-step keep, `exec` keeps. -/
theorem exec_induction (start : ∀ s c i, P s → P (startMove c i s)) (micro : ∀ e c x s, P s → P (microStep e c x s))
    {i : Instr} (h : P s) (he : exec i s = .next t) : P t := by
  rcases exec_cases i s with ⟨-, h'⟩ | h' | ⟨-, h'⟩ <;> rw [h'] at he <;> cases he
  · exact h
  · exact runSteps_induction (P := P) (fun x t => micro _ _ x t) _ (start _ _ _ h)

/-- What the model's bookkeeping, `exec`, the issue of a request, a context's micro-steps and runs, the environment's
moves and the notifier's keep, every step keeps (R13). -/
theorem step_induction (book : ∀ s a m k, P s → P { s with active := a, inputs := m, ticks := k })
    (execs : ∀ s i t, P s → exec i s = .next t → P t) (start : ∀ s c i, P s → P (startMove c i s))
    (micro : ∀ s c i x, P s → (s.caller c).req = some i → overruns (expansionOf s.cfg i) c s = false →
      P (microStep (expansionOf s.cfg i) c x s))
    (runs : ∀ s c i n, P s → (s.caller c).req = some i → overruns (expansionOf s.cfg i) c s = false →
      P (runSteps (expansionOf s.cfg i) c n s))
    (busy : ∀ s l, P s → P (s.driveBusy l)) (answer : ∀ s a, P s → P (s.pushAnswer a))
    (invoke : ∀ s h, P s → P (s.invoke h)) (h : P s) (hs : step s = .next t) : P t := by
  unfold step at hs
  split at hs
  · cases hs
  have h0 : P (takeMove s).2 := by
    unfold takeMove
    split
    · exact book s s.active _ s.ticks h
    · exact book s s.active s.inputs _ h
  generalize (takeMove s).2 = r at h0 hs
  cases hm : (takeMove s).1 <;> rw [hm] at hs <;> simp only [applyMove] at hs
  · exact execs _ _ _ (book r _ r.inputs r.ticks h0) hs
  · split at hs
    · exact execs _ _ _ (book r _ r.inputs r.ticks h0) hs
    · cases hs
  · split at hs
    · exact execs _ _ _ (book r _ r.inputs r.ticks h0) hs
    · cases hs
  · cases hs; exact start _ _ _ h0
  · unfold advanceMove at hs
    split at hs
    · cases hs; exact h0
    · dsimp only at hs
      split at hs
      · cases hs
      · cases hs; exact micro _ _ _ _ h0 ‹_› (eq_false_of_ne_true ‹¬ _›)
  · unfold runMove at hs
    split at hs
    · cases hs; exact h0
    · dsimp only at hs
      split at hs
      · cases hs
      · cases hs; exact runs _ _ _ _ h0 ‹_› (eq_false_of_ne_true ‹¬ _›)
  · cases hs; exact busy _ _ h0
  · cases hs; exact answer _ _ h0
  · cases hs; exact invoke _ _ h0

/-! ## The input queue -/

/-- A step of the machine, then the rest of a run. -/
theorem core_run_next (h : step s = .next t) (n : Nat) :
    Host.Core.run Sys2Proof.core (n + 1) s = Host.Core.run Sys2Proof.core n t := by
  simp only [Host.Core.run, show Sys2Proof.core.step s = .next t from h]

/-- No micro-step reads or changes the input queue. -/
theorem microStep_inputs (e : Expansion) (c : Nat) (x : WaitExit) (s : State) (m : List Move) :
    microStep e c x { s with inputs := m } = { microStep e c x s with inputs := m } := by
  unfold microStep
  have hcl : ∀ d, ({ s with inputs := m } : State).caller d = s.caller d := fun _ => rfl
  rw [hcl]
  cases hp : (s.caller c).pos with
  | validate => simp only [stepValidate, hcl]; split <;> rfl
  | acquire =>
    have hc := State.exists_of_pos (s := s) (c := c) (by rw [hp]; decide)
    have hm : ({ s with inputs := m } : State).excl = s.excl := rfl
    by_cases hx : s.excl = true
    · simp only [stepAcquire_held hc hx, stepAcquire_held (s := { s with inputs := m }) hc (hm.trans hx)]; rfl
    · have hx := eq_false_of_ne_true hx
      simp only [stepAcquire_free hx, stepAcquire_free (hm.trans hx)]; rfl
  | check =>
    simp only [stepCheck, hcl]
    cases e.primitive (s.caller c) with
    | none => rfl
    | some p => dsimp only; split <;> rfl
  | fill => simp only [stepFill, hcl]; cases e.frame (s.caller c) <;> rfl
  | waitSuspend =>
    cases x
    · simp only [stepWaitSuspend, hcl]
      show (if s.woken (s.caller c) then _ else _) = _
      split <;> rfl
    · simp only [stepWaitSuspend, hcl]
      show (if s.lineIdle then _ else _) = _
      split <;> rfl
  | xfer =>
    simp only [stepXfer, hcl]
    cases hpr : e.primitive (s.caller c) with
    | none => rfl
    | some p =>
      cases hf : e.frame (s.caller c) with
      | none => rfl
      | some f =>
        rcases s with ⟨_, _, _, _, _, _, _, _, _, _, _, _, _, _, answers, _, _⟩
        cases answers with
        | nil => rfl
        | cons a as => dsimp only; cases a.ok <;> rfl
  | deliver =>
    simp only [stepDeliver, hcl]
    cases (e.primitive (s.caller c)).bind Primitive.delivers <;> rfl
  | idle | sub | waitSample | waitRegister | waitDeregister | release | lineLow | hold | lineHigh | ret => rfl

end Sys2Proof.Machine
end

