-- ==== Sys2Proof/Laws/Effects.lean ====
section
/-! SUPPORT. What a request's run can change outside its own context: the buffers' first slots, and the power tracker only
at the return; the reset line not at all, but by `reset`. -/

namespace Sys2Proof.Machine

variable {e : Expansion} {c : Nat} {s t : State} {u : Caller}

/-- A context's frame is a frame of its expansion. -/
theorem Expansion.frame_mem {f : Frame} (h : e.frame u = some f) : f ∈ e.frames := by
  obtain ⟨p, hp, hf⟩ := Option.bind_eq_some_iff.mp h
  exact List.mem_flatMap.mpr ⟨p, List.mem_of_getElem? hp, List.mem_of_getElem? hf⟩

/-- R114: a micro-step changes no slot of `out` past the words of the expansion's frames. -/
theorem microStep_outBuf {j : Nat} (hj : ∀ f ∈ e.frames, f.words.length ≤ j) (x : WaitExit) :
    (microStep e c x s).outBuf[j]? = s.outBuf[j]? := by
  unfold microStep
  cases hp : (s.caller c).pos with
  | fill =>
    simp only [stepFill]
    cases hf : e.frame (s.caller c) with
    | none => rfl
    | some f => exact memWrite_keeps _ _ (hj f (Expansion.frame_mem hf))
  | acquire =>
    have hc := State.exists_of_pos (s := s) (c := c) (by rw [hp]; decide)
    dsimp only
    by_cases hx : s.excl = true
    · rw [stepAcquire_held hc hx]; rfl
    · rw [stepAcquire_free (eq_false_of_ne_true hx)]; rfl
  | validate => simp only [stepValidate]; split <;> rfl
  | check =>
    simp only [stepCheck]
    split
    · rfl
    · split <;> rfl
  | waitSuspend => cases x <;> simp only [stepWaitSuspend] <;> split <;> rfl
  | xfer =>
    simp only [stepXfer]
    split
    · split <;> rfl
    · rfl
  | deliver => simp only [stepDeliver]; split <;> rfl
  | idle | sub | waitSample | waitRegister | waitDeregister | release | lineLow | hold | lineHigh | ret => rfl

/-- R64: a micro-step changes no slot of `in` past the length of the expansion's frames. -/
theorem microStep_inBuf {j : Nat} (hj : ∀ f ∈ e.frames, f.len ≤ j) (x : WaitExit) :
    (microStep e c x s).inBuf[j]? = s.inBuf[j]? := by
  unfold microStep
  cases hp : (s.caller c).pos with
  | fill => simp only [stepFill]; split <;> rfl
  | acquire =>
    have hc := State.exists_of_pos (s := s) (c := c) (by rw [hp]; decide)
    dsimp only
    by_cases hx : s.excl = true
    · rw [stepAcquire_held hc hx]; rfl
    · rw [stepAcquire_free (eq_false_of_ne_true hx)]; rfl
  | validate => simp only [stepValidate]; split <;> rfl
  | check =>
    simp only [stepCheck]
    split
    · rfl
    · split <;> rfl
  | waitSuspend => cases x <;> simp only [stepWaitSuspend] <;> split <;> rfl
  | xfer =>
    simp only [stepXfer]
    split
    · next f a as hpr hf ha =>
      have hlen := hj f (Expansion.frame_mem hf)
      have ht : (s.transfer f.len a).inBuf[j]? = s.inBuf[j]? := by
        rw [State.transfer_inBuf]
        split <;> exact memWrite_keeps _ _ (by simpa using hlen)
      split <;> exact ht
    · rfl
  | deliver => simp only [stepDeliver]; split <;> rfl
  | idle | sub | waitSample | waitRegister | waitDeregister | release | lineLow | hold | lineHigh | ret => rfl

/-- The three positions of `reset`. -/
def Pos.onLine : Pos → Bool
  | .lineLow | .hold | .lineHigh => true
  | .idle | .validate | .sub | .acquire | .check | .fill | .waitSample | .waitRegister | .waitSuspend => false
  | .waitDeregister | .xfer | .deliver | .release _ | .ret _ => false

/-- What a run away from the reset line has done: the line is untouched, and the power tracker is as before while the
request is in progress, and as its status says once it has returned (R120, R155). -/
structure OffLine (e : Expansion) (c : Nat) (line : DrivenLevel) (power : Power) (t : State) : Prop where
  pos : (t.caller c).pos.onLine = false
  line : t.resetLevel = line
  power : t.power = if (t.caller c).req = none then e.power.apply (t.caller c).st power else power
  idle : (t.caller c).pos = .idle ↔ (t.caller c).req = none

/-- A micro-step that leaves the tracker and the line alone, and its context's request in progress. -/
theorem OffLine.step {line : DrivenLevel} {power : Power} (h : OffLine e c line power s)
    (hne : (s.caller c).pos ≠ .idle) (hl : t.resetLevel = s.resetLevel) (hp : t.power = s.power)
    (hr : (t.caller c).req = (s.caller c).req) (hq : (t.caller c).pos.onLine = false)
    (hi : (t.caller c).pos ≠ .idle) : OffLine e c line power t := by
  have hreq : (s.caller c).req ≠ none := fun hr => hne (h.idle.mpr hr)
  refine ⟨hq, hl.trans h.line, ?_, ⟨fun hh => absurd hh hi, fun hh => absurd (hr ▸ hh) hreq⟩⟩
  rw [hp, h.power, if_neg hreq, if_neg (hr ▸ hreq)]

theorem afterFrame_offLine (p : Primitive) (k : Nat) :
    (p.afterFrame k).1.onLine = false ∧ (p.afterFrame k).1 ≠ .idle := by
  rcases p.afterFrame_cases k with ⟨-, h⟩ | ⟨-, h⟩ | h <;> rw [h] <;> exact ⟨rfl, by simp⟩

theorem afterSubStep_offLine (n sub : Nat) (r : Status) :
    (afterSubStep n sub r).1.onLine = false ∧ (afterSubStep n sub r).1 ≠ .idle := by
  rcases afterSubStep_cases n sub r with ⟨-, -, h⟩ | h <;> rw [h] <;> exact ⟨rfl, by simp⟩

/-- R155, R186: a micro-step away from the reset line keeps the record of it. -/
theorem microStep_offLine {line : DrivenLevel} {power : Power} (h : OffLine e c line power s) (x : WaitExit) :
    OffLine e c line power (microStep e c x s) := by
  by_cases hidle : (s.caller c).pos = .idle
  · rw [microStep_idle hidle]; exact h
  have hc := State.exists_of_pos hidle
  have hline := h.pos
  unfold microStep
  cases hp : (s.caller c).pos with
  | idle => exact absurd hp hidle
  | lineLow | hold | lineHigh => rw [hp] at hline; exact absurd hline (by decide)
  | validate =>
    simp only [stepValidate]
    split <;> exact h.step hidle rfl rfl (by simp [hc]) (by simp [hc, Pos.onLine]) (by simp [hc])
  | sub => exact h.step hidle rfl rfl (by simp [stepSub, hc]) (by simp [stepSub, hc, Pos.onLine]) (by simp [stepSub, hc])
  | acquire =>
    dsimp only
    by_cases hx : s.excl = true
    · rw [stepAcquire_held hc hx]
      exact h.step hidle rfl rfl (by simp [hc]) (by simp [hc, Pos.onLine]) (by simp [hc])
    · rw [stepAcquire_free (eq_false_of_ne_true hx)]
      refine h.step hidle rfl rfl ?_ ?_ ?_ <;> rw [State.caller_setCaller_self (by exact hc)]
      · rfl
      · simp
  | check =>
    simp only [stepCheck]
    split
    · exact h
    · split
      · exact h.step hidle rfl rfl (by simp [State.raiseError, hc]) (by simp [State.raiseError, hc, Pos.onLine])
          (by simp [State.raiseError, hc])
      · exact h.step hidle rfl rfl (by simp [hc]) (by simp [hc, Pos.onLine]) (by simp [hc])
  | fill =>
    simp only [stepFill]
    split
    · exact h
    · refine h.step hidle rfl rfl ?_ ?_ ?_ <;> rw [State.caller_setCaller_self (by exact hc)]
      · rfl
      · simp
  | waitSample =>
    simp only [stepWaitSample]
    refine h.step hidle rfl rfl ?_ ?_ ?_ <;> rw [State.caller_setCaller_self (by exact hc)]
    · dsimp only; split <;> rfl
    · dsimp only; split <;> simp
  | waitRegister =>
    simp only [stepWaitRegister]
    refine h.step hidle rfl rfl ?_ ?_ ?_ <;> rw [State.caller_setCaller_self (by exact hc)]
    · rfl
    · simp
  | waitSuspend =>
    cases x <;> simp only [stepWaitSuspend] <;> split <;> try exact h
    · exact h.step hidle rfl rfl (by simp [hc]) (by simp [hc, Pos.onLine]) (by simp [hc])
    · refine h.step hidle rfl rfl ?_ ?_ ?_ <;> rw [State.caller_setCaller_self (by exact hc)]
      · rfl
      · simp
  | waitDeregister =>
    simp only [stepWaitDeregister]
    refine h.step hidle rfl rfl ?_ ?_ ?_ <;> rw [State.caller_setCaller_self (by exact hc)]
    · rfl
    · simp
  | xfer =>
    simp only [stepXfer]
    split
    · next p f a as hpr hf ha =>
      split
      · refine h.step hidle rfl rfl ?_ ?_ ?_ <;> rw [State.caller_setCaller_self (by exact hc)]
        · exact (afterFrame_offLine p _).1
        · exact (afterFrame_offLine p _).2
      · refine h.step hidle rfl rfl ?_ ?_ ?_ <;> rw [State.raiseError, State.caller_setCaller_self (by exact hc)]
        · rfl
        · rfl
        · simp
    · exact h
  | deliver =>
    simp only [stepDeliver]
    split
    · exact h
    · exact h.step hidle rfl rfl (by simp [hc]) (by simp [hc, Pos.onLine]) (by simp [hc])
  | release r =>
    simp only [stepRelease]
    refine h.step hidle rfl rfl ?_ ?_ ?_ <;> rw [finishPrimitive_caller (by exact hc)]
    · rfl
    · exact (afterSubStep_offLine ..).1
    · exact (afterSubStep_offLine ..).2
  | ret r =>
    have hreq : (s.caller c).req ≠ none := fun hr => hidle (h.idle.mpr hr)
    have hpw := h.power
    rw [if_neg hreq] at hpw
    simp only [stepReturn]
    refine ⟨?_, h.line, ?_, ?_⟩ <;> rw [State.caller_setCaller_self (by exact hc)]
    · rfl
    · show e.power.apply r s.power = _
      rw [hpw]; rfl
    · exact ⟨fun _ => rfl, fun _ => rfl⟩

/-- R155, R186: a run away from the reset line keeps the record of it. -/
theorem runSteps_offLine {line : DrivenLevel} {power : Power} (n : Nat) (h : OffLine e c line power s) :
    OffLine e c line power (runSteps e c n s) :=
  runSteps_induction (P := OffLine e c line power) (fun x _ h => microStep_offLine h x) n h

end Sys2Proof.Machine
end

