-- ==== Sys2Proof/Laws/PerInstr.lean ====
section
/-! SUPPORT. R79, R84: every frame an instruction is made of begins with one of the three preambles, and `Fill` writes no
more words than are transferred. One lemma for each instruction. -/

namespace Sys2Proof.Laws.FramePreamble

open Sys2Proof.Machine

/-- R79, R82, R84: the first word of the frame is one of the three preambles, and its words fit its length. -/
def Preambled (f : Frame) : Prop :=
  (f.words.head? = some 0x6000 ∨ f.words.head? = some 0x0000 ∨ f.words.head? = some 0x1000) ∧ f.words.length ≤ f.len

/-- Every frame of the instruction is preambled, under every configuration. -/
def Statement (i : Instr) : Prop := ∀ cfg : Config, ∀ f ∈ (expansionOf cfg i).frames, Preambled f

theorem cmdFrame_preambled (op : Word) : Preambled (cmdFrame op) := ⟨.inl rfl, le_rfl⟩

theorem paramFrame_preambled (p : Word) : Preambled (paramFrame p) := ⟨.inr (.inl rfl), le_rfl⟩

theorem wdataFrame_preambled (ds : List Word) : Preambled (wdataFrame ds) := ⟨.inr (.inl rfl), le_rfl⟩

theorem rdataFrame_preambled (len : Nat) : Preambled (rdataFrame len) := ⟨.inr (.inr rfl), Nat.le_add_left ..⟩

/-- Every frame of a primitive is preambled. -/
theorem primitive_preambled (p : Primitive) : ∀ f ∈ p.frames, Preambled f := by
  intro f hf
  cases p <;> simp only [Primitive.frames, List.mem_cons, List.mem_map, List.not_mem_nil, or_false] at hf
  · exact hf ▸ cmdFrame_preambled _
  · rcases hf with rfl | ⟨p, -, rfl⟩
    · exact cmdFrame_preambled _
    · exact paramFrame_preambled _
  · exact hf ▸ wdataFrame_preambled _
  · exact hf ▸ rdataFrame_preambled _

/-- Every frame of an expansion is a frame of one of its primitives. -/
theorem expansion_preambled (e : Expansion) : ∀ f ∈ e.frames, Preambled f := by
  intro f hf
  obtain ⟨p, -, hp⟩ := List.mem_flatMap.mp hf
  exact primitive_preambled p f hp

theorem cmdWakeUp : Statement .cmdWakeUp := fun _ => expansion_preambled _

theorem cmdStandby : Statement .cmdStandby := fun _ => expansion_preambled _

theorem cmdSleep : Statement .cmdSleep := fun _ => expansion_preambled _

theorem cmdReadRegister : Statement .cmdReadRegister := fun _ => expansion_preambled _

theorem cmdWriteRegister : Statement .cmdWriteRegister := fun _ => expansion_preambled _

theorem cmdLoadImageArea : Statement .cmdLoadImageArea := fun _ => expansion_preambled _

theorem cmdEndLoadImage : Statement .cmdEndLoadImage := fun _ => expansion_preambled _

theorem cmdDisplayArea : Statement .cmdDisplayArea := fun _ => expansion_preambled _

theorem cmdSetVcom : Statement .cmdSetVcom := fun _ => expansion_preambled _

theorem cmdGetDeviceInfo : Statement .cmdGetDeviceInfo := fun _ => expansion_preambled _

theorem param (p : Word) : Statement (.param p) := fun _ => expansion_preambled _

theorem wdata (ds : List Word) : Statement (.wdata ds) := fun _ => expansion_preambled _

theorem rdata (len : Nat) : Statement (.rdata len) := fun _ => expansion_preambled _

theorem sendCommand (op : Word) : Statement (.sendCommand op) := fun _ => expansion_preambled _

theorem sendCommandParams (op : Word) (ps : List Word) : Statement (.sendCommandParams op ps) := fun _ => expansion_preambled _

theorem writeData (ds : List Word) : Statement (.writeData ds) := fun _ => expansion_preambled _

theorem readData (len : Nat) : Statement (.readData len) := fun _ => expansion_preambled _

theorem writeRegister (addr val : Word) : Statement (.writeRegister addr val) := fun _ => expansion_preambled _

theorem readRegister (addr : Word) : Statement (.readRegister addr) := fun _ => expansion_preambled _

theorem wakeUp : Statement .wakeUp := fun _ => expansion_preambled _

theorem standby : Statement .standby := fun _ => expansion_preambled _

theorem sleep : Statement .sleep := fun _ => expansion_preambled _

theorem reset : Statement .reset := fun _ => expansion_preambled _

theorem getDeviceInfo : Statement .getDeviceInfo := fun _ => expansion_preambled _

theorem setVcom (v : Rat) : Statement (.setVcom v) := fun _ => expansion_preambled _

theorem getVcom : Statement .getVcom := fun _ => expansion_preambled _

theorem enableParameterPack : Statement .enableParameterPack := fun _ => expansion_preambled _

theorem isDisplayReady : Statement .isDisplayReady := fun _ => expansion_preambled _

theorem writeImage (addr : Addr32) (pixels : List Word) (x y w h : Word) : Statement (.writeImage addr pixels x y w h) := fun _ => expansion_preambled _

theorem display (x y w h : Word) : Statement (.display x y w h) := fun _ => expansion_preambled _

theorem clear (x y w h : Word) : Statement (.clear x y w h) := fun _ => expansion_preambled _

end Sys2Proof.Laws.FramePreamble
end

