-- ==== Sys2Proof/Laws/Prefix.lean ====
section
/-! SUPPORT. The undisturbed beginning of a request: the run up to a primitive's capacity check, and up to the fill of a
given frame; and what then ends or blocks the request. -/

namespace Sys2Proof.Machine

variable {e : Expansion} {c : Nat} {s : State} {u : Caller}

/-- `n` frames of a primitive from frame `k` on, another after them. -/
theorem runSteps_someFrames {p : Primitive} (n : Nat) (hc : c < s.callers.length) (hp : e.primitive u = some p)
    (hk : u.k + n < p.frames.length) (hpos : u.pos = .fill) (hidle : s.lineIdle = true) (h : s.busAccepts n) :
    runSteps e c (3 * n) (s.setCaller c u) =
      (sendFrames s ((p.frames.drop u.k).take n)).setCaller c { u with k := u.k + n } := by
  induction n generalizing s u with
  | zero => simp [runSteps, sendFrames]
  | succ n ih =>
    have hk0 : u.k < p.frames.length := by omega
    have hf : e.frame u = some p.frames[u.k] := by simp [Expansion.frame, hp, hk0]
    obtain ⟨_, _, _, _, hrest⟩ := s.busAccepts_succ h
    have hs := sendFrame_sent s p.frames[u.k]
    have hafter : p.afterFrame u.k = (.fill, u.k + 1) := by
      simp [Primitive.afterFrame, show u.k + 1 < p.frames.length by omega]
    rw [Nat.mul_succ, Nat.add_comm, runSteps_add,
      runSteps_frame hc hp hf hpos hidle (s.busAccepts_mono h (by omega)), hafter, List.drop_eq_getElem_cons hk0,
      List.take_succ_cons, sendFrames_cons]
    have := ih (s := sendFrame s p.frames[u.k]) (u := { u with pos := .fill, k := u.k + 1 })
      (by rw [hs.callers]; exact hc) hp (by dsimp only; omega) rfl
      (by simpa [State.lineIdle, hs.busyLevel] using hidle) (hrest _)
    simpa [Nat.add_comm, Nat.add_left_comm, Nat.add_assoc, hpos] using this

/-- R102: `Acquire` with `excl` free, as a micro-step. -/
theorem microStep_acquire (hc : c < s.callers.length) (hpos : u.pos = .acquire) (hexcl : s.excl = false)
    (x : WaitExit) :
    microStep e c x (s.setCaller c u) = State.setCaller { s with excl := true } c { u with pos := .check } := by
  have hx : (s.setCaller c u).excl = false := hexcl
  simp only [microStep, State.caller_setCaller_self hc, hpos]
  rw [stepAcquire_free hx, State.caller_setCaller_self hc]
  simp [State.setCaller]

/-- R102, R104: `Acquire` with `excl` free, then the capacity check of a primitive that fits. -/
theorem runSteps_enter {p : Primitive} (hc : c < s.callers.length) (hp : e.primitive u = some p)
    (hpos : u.pos = .acquire) (hexcl : s.excl = false) (hfit : p.need ≤ s.cfg.capacity) :
    runSteps e c 2 (s.setCaller c u) = State.setCaller { s with excl := true } c { u with pos := .fill, k := 0 } := by
  have hc' : c < ({ s with excl := true } : State).callers.length := hc
  have h1 := microStep_acquire (e := e) hc hpos hexcl
  have h2 : ∀ x, microStep e c x (State.setCaller { s with excl := true } c { u with pos := .check }) =
      State.setCaller { s with excl := true } c { u with pos := .fill, k := 0 } := by
    intro x
    have hpr : e.primitive { u with pos := .check } = some p := hp
    have hcap : ¬ (State.setCaller { s with excl := true } c { u with pos := .check }).cfg.capacity < p.need :=
      Nat.not_lt.mpr hfit
    simp only [microStep, State.caller_setCaller_self hc', stepCheck, hpr, hcap, if_false, State.setCaller_setCaller]
  rw [runSteps_succ, h1, runSteps_succ, h2]
  rfl

/-- R104: `Acquire` with `excl` free, then the capacity check of a primitive that does not fit: the request ends with
`error`, and `excl` is free again. -/
theorem runSteps_tooLarge {p : Primitive} (hc : c < s.callers.length) (hp : e.primitive u = some p)
    (hpos : u.pos = .acquire) (hexcl : s.excl = false) (hfit : s.cfg.capacity < p.need) :
    runSteps e c 3 (s.setCaller c u) =
      s.setCaller c { u with pos := .ret .error, k := 0, st := .error, cause := some .capacity } := by
  have hc' : c < ({ s with excl := true } : State).callers.length := hc
  have h1 := microStep_acquire (e := e) hc hpos hexcl
  have h2 : ∀ x, microStep e c x (State.setCaller { s with excl := true } c { u with pos := .check }) =
      State.setCaller { s with excl := true } c { u with pos := .release .error, cause := some .capacity } := by
    intro x
    have hpr : e.primitive { u with pos := .check } = some p := hp
    have hcap : (State.setCaller { s with excl := true } c { u with pos := .check }).cfg.capacity < p.need := hfit
    simp only [microStep, State.caller_setCaller_self hc', stepCheck, hpr, hcap, if_true, State.raiseError,
      State.setCaller_setCaller]
  have h3 : ∀ x, microStep e c x
      (State.setCaller { s with excl := true } c { u with pos := .release .error, cause := some .capacity }) =
      s.setCaller c { u with pos := .ret .error, k := 0, st := .error, cause := some .capacity } := by
    intro x
    simp only [microStep, State.caller_setCaller_self hc', stepRelease]
    rw [finishPrimitive_fails (by decide), State.caller_releaseExcl, State.caller_setCaller_self hc']
    have : (State.setCaller { s with excl := true } c
        { u with pos := .release .error, cause := some .capacity }).releaseExcl =
        s.setCaller c { u with pos := .release .error, cause := some .capacity } := by
      simp [State.releaseExcl, State.setCaller, ← hexcl]
    rw [this, State.setCaller_setCaller]
  rw [runSteps_succ, h1, runSteps_succ, h2, runSteps_succ, h3]
  rfl

/-- The sub-steps of the first primitives, another after them. -/
theorem runSteps_somePrims (pre post : List Primitive) (hne : post ≠ []) (hps : e.prims.drop u.sub = pre ++ post)
    (hc : c < s.callers.length) (hpos : u.pos = .sub) (hk : u.k = 0) (hst : u.st = .ok) (hexcl : s.excl = false)
    (hfit : ∀ p ∈ pre, p.need ≤ s.cfg.capacity) (hidle : pre ≠ [] → s.lineIdle = true)
    (h : s.busAccepts (pre.flatMap Primitive.frames).length) :
    ∃ m, runSteps e c m (s.setCaller c u) =
      (sendPrims (s, u.acc) pre).1.setCaller c
        { u with sub := u.sub + pre.length, acc := (sendPrims (s, u.acc) pre).2 } := by
  induction pre generalizing s u with
  | nil => exact ⟨0, by simp [runSteps, sendPrims]⟩
  | cons p ps ih =>
    have hsub : u.sub < e.prims.length := by
      by_contra hge
      simp [List.drop_eq_nil_of_le (Nat.le_of_not_lt hge)] at hps
    rw [List.cons_append, List.drop_eq_getElem_cons hsub, List.cons.injEq] at hps
    obtain ⟨hp, hrest⟩ := hps
    have hprim : ∀ q, e.primitive { u with pos := q } = some p := fun q => by
      simp [Expansion.primitive, hsub, hp]
    have hacc : s.busAccepts (p.frames.length + (ps.flatMap Primitive.frames).length) := by simpa using h
    have h0 : ∀ x, microStep e c x (s.setCaller c u) = s.setCaller c { u with pos := .acquire } := by
      intro x
      simp only [microStep, State.caller_setCaller_self hc, hpos, stepSub, State.setCaller_setCaller]
    obtain ⟨m1, -, h1⟩ := runSteps_primitive (e := e) (u := { u with pos := .acquire }) hc (hprim _) rfl hexcl
      (hfit p (by simp)) (hidle (by simp)) (s.busAccepts_mono hacc (by omega))
    have hs := sendFrames_sent s p.frames
    have hlast : u.sub + 1 < e.prims.length := by
      by_contra hge
      rw [List.drop_eq_nil_of_le (by omega)] at hrest
      exact hne (List.append_eq_nil_iff.mp hrest.symm).2
    have hafter : afterSubStep e.prims.length u.sub .ok = (.sub, u.sub + 1) := by simp [afterSubStep, hlast]
    dsimp only at h1
    rw [hafter] at h1
    obtain ⟨m2, h2⟩ := ih (s := sendFrames s p.frames)
      (u := { u with pos := .sub, sub := u.sub + 1, k := 0, st := .ok,
                     acc := p.readInto (sendFrames s p.frames).inBuf u.acc })
      hrest (by rw [hs.callers]; exact hc) rfl rfl rfl (hs.excl.trans hexcl)
      (fun q hq => by rw [hs.cfg]; exact hfit q (by simp [hq]))
      (fun _ => by simpa [State.lineIdle, hs.busyLevel] using hidle (by simp)) (sendFrames_busAccepts _ hacc)
    refine ⟨1 + m1 + m2, ?_⟩
    rw [runSteps_add, runSteps_add, show runSteps e c 1 (s.setCaller c u) = _ from h0 _, h1, h2]
    rw [hpos, hk, hst, List.length_cons, show u.sub + (ps.length + 1) = u.sub + 1 + ps.length by omega]
    rfl

/-- How a request begins that has a primitive: at `Acquire` if it has just that one, else at its first sub-step, with
its arguments accepted. -/
def Expansion.begins (e : Expansion) : Prop :=
  (e.start = .acquire ∧ e.prims.length = 1) ∨ e.start = .sub ∨ (e.start = .validate ∧ e.argumentOk = true)

/-- The undisturbed run up to the `Acquire` of primitive `p`, the primitives before it sent. -/
theorem runSteps_toAcquire (i : Instr) (pre post : List Primitive) (p : Primitive) (hb : e.begins)
    (hps : e.prims = pre ++ p :: post) (hc : c < s.callers.length) (hexcl : s.excl = false)
    (hfit : ∀ p ∈ pre, p.need ≤ s.cfg.capacity) (hidle : pre ≠ [] → s.lineIdle = true)
    (h : s.busAccepts (pre.flatMap Primitive.frames).length) :
    ∃ m, runSteps e c m (s.setCaller c { Caller.idle with req := some i, pos := e.start }) =
      (sendFrames s (pre.flatMap Primitive.frames)).setCaller c
        { Caller.idle with
          req := some i
          pos := .acquire
          sub := pre.length
          acc := (sendPrims (s, []) pre).2 } := by
  rcases hb with ⟨hs, h1⟩ | hb
  · obtain ⟨rfl, rfl⟩ : pre = [] ∧ post = [] := by
      rw [hps] at h1
      simp only [List.length_append, List.length_cons] at h1
      exact ⟨List.length_eq_zero_iff.mp (by omega), List.length_eq_zero_iff.mp (by omega)⟩
    exact ⟨0, by rw [hs]; rfl⟩
  · let u : Caller := { Caller.idle with req := some i, pos := .sub }
    have hgo : ∃ m0, runSteps e c m0 (s.setCaller c { Caller.idle with req := some i, pos := e.start }) =
        s.setCaller c u := by
      rcases hb with hs | ⟨hs, hv⟩
      · exact ⟨0, by rw [hs]; rfl⟩
      · refine ⟨1, ?_⟩
        rw [hs]
        simp only [runSteps, microStep, State.caller_setCaller_self hc, stepValidate, hv, if_true,
          State.setCaller_setCaller, u]
    obtain ⟨m0, h0⟩ := hgo
    obtain ⟨m1, h1⟩ := runSteps_somePrims (e := e) (c := c) (u := u) pre (p :: post) (by simp)
      (by simpa [u, Caller.idle] using hps) hc rfl rfl rfl hexcl hfit hidle h
    refine ⟨m0 + m1 + 1, ?_⟩
    have hfst : (sendPrims (s, u.acc) pre).1 = sendFrames s (pre.flatMap Primitive.frames) := sendPrims_fst ..
    have hc' : c < (sendFrames s (pre.flatMap Primitive.frames)).callers.length := by
      rw [(sendFrames_sent ..).callers]; exact hc
    rw [runSteps_add, runSteps_add, h0, h1, hfst]
    simp only [runSteps, microStep, State.caller_setCaller_self hc', stepSub, State.setCaller_setCaller, u]
    simp [Caller.idle]

/-- The undisturbed run up to the fill of frame `f` of primitive `p`, the frames before it sent. Only the primitives up
to `p` need to fit. -/
theorem runSteps_toFrame (i : Instr) (pre post : List Primitive) (p : Primitive) (sent later : List Frame) (f : Frame)
    (hb : e.begins) (hps : e.prims = pre ++ p :: post) (hp : p.frames = sent ++ f :: later)
    (hc : c < s.callers.length) (hexcl : s.excl = false) (hfit : ∀ q ∈ pre ++ [p], q.need ≤ s.cfg.capacity)
    (hidle : s.lineIdle = true) (h : s.busAccepts (pre.flatMap Primitive.frames ++ sent).length) :
    ∃ m u, runSteps e c m (s.setCaller c { Caller.idle with req := some i, pos := e.start }) =
        State.setCaller { sendFrames s (pre.flatMap Primitive.frames ++ sent) with excl := true } c u ∧
      e.primitive u = some p ∧ e.frame u = some f ∧ u.pos = .fill ∧ u.k = sent.length ∧
      u = { Caller.idle with req := some i, pos := .fill, sub := u.sub, k := u.k, acc := u.acc } := by
  rw [List.length_append] at h
  obtain ⟨m0, h0⟩ := runSteps_toAcquire (e := e) (c := c) i pre post p hb hps hc hexcl
    (fun q hq => hfit q (by simp [hq])) (fun _ => hidle) (s.busAccepts_mono h (by omega))
  have hs := sendFrames_sent s (pre.flatMap Primitive.frames)
  let v : Caller :=
    { Caller.idle with req := some i, pos := .acquire, sub := pre.length, acc := (sendPrims (s, []) pre).2 }
  have hv : e.primitive v = some p := by simp [Expansion.primitive, v, hps]
  let t : State := { sendFrames s (pre.flatMap Primitive.frames) with excl := true }
  have h1 := runSteps_enter (e := e) (c := c) (s := sendFrames s (pre.flatMap Primitive.frames)) (u := v)
    (by rw [hs.callers]; exact hc) hv rfl (hs.excl.trans hexcl) (by rw [hs.cfg]; exact hfit p (by simp))
  have hbus : t.busAccepts sent.length := sendFrames_busAccepts _ h
  have h2 := runSteps_someFrames (e := e) (c := c) (s := t) (u := { v with pos := .fill, k := 0 }) (p := p) sent.length
    (by show c < (sendFrames s _).callers.length; rw [hs.callers]; exact hc) hv
    (by simp [hp]) rfl (by show ((sendFrames s _).busyLevel == _) = true; rw [hs.busyLevel]; exact hidle) hbus
  refine ⟨m0 + 2 + 3 * sent.length, { v with pos := .fill, k := sent.length }, ?_, hv, ?_, rfl, rfl, rfl⟩
  · rw [runSteps_add, runSteps_add, h0, h1, h2]
    simp only [Nat.zero_add, List.drop_zero, hp, List.take_left', t]
    rw [sendFrames_excl, ← sendFrames_append]
  · have : e.primitive { v with pos := .fill, k := sent.length } = some p := hv
    simp [Expansion.frame, this, hp]

/-! ## Where a request ends or blocks -/

/-- Every request but `reset` begins at a primitive it has, `setVcom` if its argument is in range. -/
theorem expansionOf_begins (cfg : Config) {i : Instr} (hr : i ≠ .reset)
    (hv : ∀ v, i = .setVcom v → -65535 / 1000 ≤ v ∧ v < 0) : (expansionOf cfg i).begins := by
  cases i <;> first
    | exact absurd rfl hr
    | exact .inl ⟨rfl, rfl⟩
    | exact .inr (.inl rfl)
    | skip
  refine .inr (.inr ⟨rfl, ?_⟩)
  have := hv _ rfl
  simp only [expansionOf, expandSetVcom, vcomInRange, Config.vcomMin, Bool.and_eq_true]
  exact ⟨decide_eq_true this.1, decide_eq_true this.2⟩

theorem sendFrames_answers (s : State) (fs : List Frame) : (sendFrames s fs).answers = s.answers.drop fs.length := by
  induction fs generalizing s with
  | nil => rfl
  | cons f fs ih =>
    rw [sendFrames_cons, ih]
    unfold sendFrame
    split <;> next h => rw [h]; simp

theorem microStep_fill {f : Frame} (hc : c < s.callers.length) (hpos : u.pos = .fill) (hf : e.frame u = some f)
    (x : WaitExit) : microStep e c x (s.setCaller c u) =
      State.setCaller { s with outBuf := memWrite s.outBuf 0 f.words } c { u with pos := .waitSample } := by
  simp only [microStep, State.caller_setCaller_self hc, hpos, stepFill, hf]
  simp [State.setCaller]

theorem microStep_waitSample (hc : c < s.callers.length) (hpos : u.pos = .waitSample) (x : WaitExit) :
    microStep e c x (s.setCaller c u) =
      s.sampleBusy.setCaller c { u with pos := if s.lineIdle then .xfer else .waitRegister } := by
  simp only [microStep, State.caller_setCaller_self hc, hpos, stepWaitSample]
  simp [State.setCaller, State.sampleBusy, State.log, State.lineIdle]

/-- R106: the frame whose transfer fails, from its fill to the return of `error`. -/
theorem runSteps_failingFrame {p : Primitive} {f : Frame} {a : Answer} {as : List Answer} (hc : c < s.callers.length)
    (hp : e.primitive u = some p) (hf : e.frame u = some f) (hpos : u.pos = .fill) (hidle : s.lineIdle = true)
    (hexcl : s.excl = false) (ha : s.answers = a :: as) (hok : a.ok = false) :
    runSteps e c 4 (State.setCaller { s with excl := true } c u) =
      (sendFrame s f).setCaller c
        { u with pos := .ret .error, k := 0, st := .error, cause := some (.busFailure u.k) } := by
  let t : State := { s with excl := true }
  let t2 : State := { t with outBuf := memWrite t.outBuf 0 f.words }
  have hct : c < t.callers.length := hc
  have h1 := microStep_fill (s := t) (e := e) hct hpos hf
  have h2 := microStep_waitSample (e := e) (s := t2) (u := { u with pos := .waitSample }) hct rfl
  have hidle2 : t2.lineIdle = true := hidle
  rw [if_pos hidle2] at h2
  have h3 : ∀ x, microStep e c x ((t2.sampleBusy).setCaller c { u with pos := .xfer }) =
      (sendFrame t f).setCaller c { u with pos := .release .error, cause := some (.busFailure u.k) } := by
    intro x
    have hp' : ∀ q, e.primitive { u with pos := q } = some p := fun _ => hp
    have hf' : ∀ q, e.frame { u with pos := q } = some f := fun _ => hf
    have hct' : c < (t2.sampleBusy).callers.length := hc
    have hans : ((t2.sampleBusy).setCaller c { u with pos := Pos.xfer }).answers = a :: as := ha
    simp only [microStep, State.caller_setCaller_self hct', stepXfer, hp', hf', hans, hok, if_false,
      Bool.false_eq_true]
    rw [sendFrame_of_answers (s := t) ha]
    simp [State.setCaller, State.sampleBusy, State.transfer, State.log, t2, State.raiseError, t, State.caller, hc]
  have hct3 : c < (sendFrame t f).callers.length := by rw [(sendFrame_sent t f).callers]; exact hc
  have h4 : ∀ x, microStep e c x
      ((sendFrame t f).setCaller c { u with pos := .release .error, cause := some (.busFailure u.k) }) =
      (sendFrame s f).setCaller c
        { u with pos := .ret .error, k := 0, st := .error, cause := some (.busFailure u.k) } := by
    intro x
    simp only [microStep, State.caller_setCaller_self hct3, stepRelease]
    rw [finishPrimitive_fails (by decide), State.caller_releaseExcl, State.caller_setCaller_self hct3]
    have hback : { sendFrame t f with excl := false } = sendFrame s f := by
      rw [show t = { s with excl := true } from rfl, sendFrame_excl]
      have := (sendFrame_sent s f).excl.trans hexcl
      cases hst : sendFrame s f
      simp_all
    rw [← hback]
    simp [State.releaseExcl, State.setCaller]
  rw [runSteps_succ, h1, runSteps_succ, h2, runSteps_succ, h3, runSteps_succ, h4]
  rfl

/-- R19: the return of a status that is not `ok`, as one step of a run. -/
theorem runSteps_return {t : State} {r : Status} (hact : t.active = s.active) (hc : s.active < t.callers.length)
    (hpos : u.pos = .ret r) (hr : r ≠ .ok) :
    runSteps e s.active 1 (t.setCaller s.active u) =
      returnWith { t with power := e.power.apply r t.power } r u.cause none := by
  show microStep e s.active _ _ = _
  simp only [microStep, State.caller_setCaller_self hc, hpos, stepReturn, hr, if_false]
  simp [returnWith, State.setCaller, State.log, hact]

/-- What `exec` answers where a run comes to the return of a status that is not `ok`. -/
theorem exec_returns {i : Instr} {m : Nat} {t : State} {r : Status} (h : s.accepting)
    (hm : runSteps (expansionOf s.cfg i) s.active m
      (s.setCaller s.active
        { Caller.idle with req := some (asRequest i), pos := (expansionOf s.cfg i).start }) = t.setCaller s.active u)
    (hact : t.active = s.active) (hc : t.callers = s.callers) (hpos : u.pos = .ret r) (hr : r ≠ .ok) :
    exec i s =
      .next (returnWith { t with power := (expansionOf s.cfg i).power.apply r t.power } r u.cause none) := by
  have hc' : s.active < t.callers.length := by rw [hc]; exact h.2.1
  refine exec_reaches (m := m + 1) h ?_ (runSteps_idle ?_)
  · rw [runSteps_add, hm]; exact runSteps_return hact hc' hpos hr
  · exact returnWith_idle (s := { t with power := _ }) hact hc' _ _ none

end Sys2Proof.Machine
end

