-- ==== Sys2Proof/Tests/Slice0.lean ====
section
/-! SUPPORT. Tests of the model against the spec's encodings (30_encoding.md) and vectors (95_test_vectors.md), each one
step on a small state, and the witnesses that the statements' hypotheses can be met together. -/

namespace Sys2Proof.Tests

open Sys2Proof Sys2Proof.Machine

/-! ## Well-formedness -/

/-- A configuration with the register values of the vectors' examples; `B = 0x0208`, `L = 0x1224`, `K = 0x0004`,
`V = 0x0001`, `F = 0x0030`. -/
def cfg (capacity : Nat) : Config :=
  { capacity := capacity
    callers := 2
    textOrder := .lowByteFirst
    wireOrder := .highByteFirst
    regImgBase := 0x0208
    regLutStatus := 0x1224
    regPack := 0x0004
    valPack := 0x0001
    imageFormat := 0x0030
    powerAfterReset := .active }

theorem test_config_capacity_one : (cfg 1).wellFormed = false := by decide
theorem test_config_no_callers : { cfg 8 with callers := 0 }.wellFormed = false := by decide
theorem test_config_smallest : { cfg 2 with callers := 1 }.wellFormed = true := by decide
theorem test_wdata_one_word_ill_formed : (Instr.wdata [0x0007]).wellFormed = false := by decide
theorem test_wdata_other_lengths : (Instr.wdata []).wellFormed = true ∧ (Instr.wdata [1, 2]).wellFormed = true := by
  decide

/-! ## Decoding of words and lines written out from the spec -/

/-- R85: word 0 is 0x6000 in bits 31 to 16, word 1 the opcode in bits 15 to 0. -/
theorem test_decode_cmd_rows :
    decodeTableWord 32 0b01100000000000000000000000000001 = some .cmdWakeUp ∧
    decodeTableWord 32 0b01100000000000000000000000000010 = some .cmdStandby ∧
    decodeTableWord 32 0b01100000000000000000000000000011 = some .cmdSleep ∧
    decodeTableWord 32 0b01100000000000000000000000010000 = some .cmdReadRegister ∧
    decodeTableWord 32 0b01100000000000000000000000010001 = some .cmdWriteRegister ∧
    decodeTableWord 32 0b01100000000000000000000000100001 = some .cmdLoadImageArea ∧
    decodeTableWord 32 0b01100000000000000000000000100010 = some .cmdEndLoadImage ∧
    decodeTableWord 32 0b01100000000000000000000000110100 = some .cmdDisplayArea ∧
    decodeTableWord 32 0b01100000000000000000000000111001 = some .cmdSetVcom ∧
    decodeTableWord 32 0b01100000000000000000001100000010 = some .cmdGetDeviceInfo := by decide

/-- R81, R83: `[0x0000, p]`; `[0x0000]` and `[0x0000] ++ ds`; `[0x1000, 0x0000]` and stale words. -/
theorem test_decode_data_rows :
    decodeTableWord 32 0b00000000000000001010101111001101 = some (.param 0xABCD) ∧
    decodeTableWord 16 0b0000000000000000 = some (.wdata []) ∧
    decodeTableWord 48 0x000000070008 = some (.wdata [0x0007, 0x0008]) ∧
    decodeTableWord 32 0b00010000000000000000000000000000 = some (.rdata 0) ∧
    decodeTableWord 64 0x1000000000020003 = some (.rdata 2) := by decide

/-- R93: an opcode in no row of R85 is the raw command; R92, R96: what is no frame is refused by name. -/
theorem test_decode_others :
    decodeTableWord 32 0x60000025 = some (.sendCommand 0x0025) ∧
    decodeFrame [0x2000, 0x0001] = .error (.unknownPreamble 0x2000) ∧
    decodeFrame [0x6000] = .error .badCommandLength ∧
    decodeFrame [0x1000, 0x0001] = .error (.badDummyWord 0x0001) ∧
    decodeFrame [0x1000] = .error .truncatedRead ∧ decodeFrame [] = .error .emptyFrame := by
  exact ⟨by decide, rfl, rfl, rfl, rfl, rfl⟩

/-- R53: the bytes of `[0x6000, 0x0302]` in either wire order. -/
theorem test_decode_bytes :
    decodeBytes .highByteFirst [0x60, 0x00, 0x03, 0x02] = .ok .cmdGetDeviceInfo ∧
    decodeBytes .lowByteFirst [0x00, 0x60, 0x02, 0x03] = .ok .cmdGetDeviceInfo ∧
    decodeBytes .highByteFirst [0x60, 0x00, 0x03] = .error .oddByteCount := ⟨rfl, rfl, rfl⟩

/-- R97: the raw requests. -/
theorem test_decode_raw_lines :
    decodeLine (ascii "sendCommand 0x0302") = some (0, .sendCommand 0x0302) ∧
    decodeLine (ascii "1: sendCommandParams 0x0034, [0, 0, 1, 1, 2]") =
      some (1, .sendCommandParams 0x0034 [0, 0, 1, 1, 2]) ∧
    decodeLine (ascii "writeData [9, 8, 7, 6]") = some (0, .writeData [9, 8, 7, 6]) ∧
    decodeLine (ascii "readData 20") = some (0, .readData 20) := by decide +kernel

/-- R97: the register requests and the requests without arguments. -/
theorem test_decode_plain_lines :
    decodeLine (ascii "writeRegister 0x0004, 0x0001") = some (0, .writeRegister 0x0004 0x0001) ∧
    decodeLine (ascii "readRegister 0x1224") = some (0, .readRegister 0x1224) ∧
    decodeLine (ascii "wakeUp") = some (0, .wakeUp) ∧ decodeLine (ascii "standby") = some (0, .standby) ∧
    decodeLine (ascii "1: sleep") = some (1, .sleep) ∧ decodeLine (ascii "reset") = some (0, .reset) ∧
    decodeLine (ascii "getDeviceInfo") = some (0, .getDeviceInfo) ∧
    decodeLine (ascii "getVcom") = some (0, .getVcom) ∧
    decodeLine (ascii "enableParameterPack") = some (0, .enableParameterPack) ∧
    decodeLine (ascii "isDisplayReady") = some (0, .isDisplayReady) := by decide +kernel

/-- R97: the rational, the image and the areas. -/
theorem test_decode_panel_lines :
    decodeLine (ascii "setVcom -1.5") = some (0, .setVcom (-3 / 2)) ∧
    decodeLine (ascii "writeImage 0x00012345, [0xABCD], 10, 20, 4, 1") =
      some (0, .writeImage 0x00012345 [0xABCD] 10 20 4 1) ∧
    decodeLine (ascii "display 0, 0, 100, 100") = some (0, .display 0 0 100 100) ∧
    decodeLine (ascii "clear 0, 0, 8, 8") = some (0, .clear 0 0 8 8) := by decide +kernel

/-- R99: a name of no request kind, a wrong argument list and a number that is no word are refused. -/
theorem test_refused_lines :
    decodeLine (ascii "powerOff") = none ∧ decodeLine (ascii "readRegister") = none ∧
    decodeLine (ascii "readRegister 0x10000") = none := by decide +kernel

/-! ## States -/

/-- An instance of capacity `C` with two idle contexts, on an idle line, with these answers of the bus to come. -/
def demo (C : Nat) (answers : List Answer) : State :=
  { cfg := cfg C
    outBuf := List.replicate C 0
    inBuf := List.replicate C 0
    excl := false
    slot := .inert
    handles := []
    edgeTargets := []
    resetLevel := .undriven
    busyLevel := .high
    power := .unknown
    callers := [Caller.idle, Caller.idle]
    trace := []
    active := 0
    inputs := []
    answers := answers
    ticks := 0
    draws := 0 }

/-- Succeeding answers that fix two words. -/
def oks (n : Nat) : List Answer := List.replicate n ⟨true, [0, 0]⟩

/-- What a trace shows the bus: the words sent. -/
def sent : List Event → List (List Word)
  | [] => []
  | .xfer ws _ _ :: es => ws :: sent es
  | _ :: es => sent es

/-- The results in a trace. -/
def results : List Event → List (Status × Option Value)
  | [] => []
  | .result _ r v :: es => (r, v) :: results es
  | _ :: es => results es

/-- What an outcome shows: the words sent, the results, whether `excl` is held, and the power tracker. -/
structure Seen where
  frames : List (List Word)
  results : List (Status × Option Value)
  held : Bool
  power : Power
  deriving DecidableEq, Repr

def seen : Host.Outcome State Fault Refusal → Option Seen
  | .next t => some { frames := sent t.trace, results := results t.trace, held := t.excl, power := t.power }
  | .fault _ => none
  | .refused _ => none

/-! ## Instructions against the vectors -/

/-- V-F-3 (R120), by the frame row. -/
theorem test_cmdWakeUp :
    seen (exec .cmdWakeUp { demo 8 (oks 1) with power := .active }) =
      some ⟨[[0x6000, 0x0001]], [(.ok, none)], false, .unknown⟩ := by decide +kernel

theorem test_cmdStandby :
    seen (exec .cmdStandby (demo 8 (oks 1))) = some ⟨[[0x6000, 0x0002]], [(.ok, none)], false, .unknown⟩ := by
  decide +kernel

theorem test_cmdSleep :
    seen (exec .cmdSleep (demo 8 (oks 1))) = some ⟨[[0x6000, 0x0003]], [(.ok, none)], false, .unknown⟩ := by
  decide +kernel

theorem test_cmd_rows :
    [Instr.cmdReadRegister, .cmdWriteRegister, .cmdLoadImageArea, .cmdEndLoadImage, .cmdDisplayArea, .cmdSetVcom,
      .cmdGetDeviceInfo].map (fun i => (seen (exec i { demo 8 (oks 1) with power := .sleep })).map
        fun x => (x.frames, x.power)) =
      [some ([[0x6000, 0x0010]], .sleep), some ([[0x6000, 0x0011]], .sleep), some ([[0x6000, 0x0021]], .sleep),
        some ([[0x6000, 0x0022]], .sleep), some ([[0x6000, 0x0034]], .sleep), some ([[0x6000, 0x0039]], .sleep),
        some ([[0x6000, 0x0302]], .sleep)] := by decide +kernel

theorem test_param :
    seen (exec (.param 0x03E8) (demo 8 (oks 1))) = some ⟨[[0x0000, 0x03E8]], [(.ok, none)], false, .unknown⟩ := by
  decide +kernel

theorem test_wdata :
    seen (exec (.wdata [1, 2, 3]) (demo 4 [⟨true, [0, 0, 0, 0]⟩])) =
      some ⟨[[0x0000, 1, 2, 3]], [(.ok, none)], false, .unknown⟩ := by decide +kernel

theorem test_rdata :
    seen (exec (.rdata 1) (demo 4 [⟨true, [5, 6, 7]⟩])) =
      some ⟨[[0x1000, 0x0000, 0]], [(.ok, some (.words [7]))], false, .unknown⟩ := by decide +kernel

/-- V-F-1. -/
theorem test_sendCommand :
    seen (exec (.sendCommand 0x0302) (demo 64 (oks 1))) =
      some ⟨[[0x6000, 0x0302]], [(.ok, none)], false, .unknown⟩ := by decide +kernel

/-- V-F-2: the bus fails. -/
theorem test_sendCommand_fails :
    seen (exec (.sendCommand 0x0022) (demo 64 [⟨false, [0, 0]⟩])) =
      some ⟨[[0x6000, 0x0022]], [(.error, none)], false, .unknown⟩ := by decide +kernel

/-- V-F-4. -/
theorem test_sendCommandParams_none :
    seen (exec (.sendCommandParams 0x0034 []) (demo 64 (oks 1))) =
      some ⟨[[0x6000, 0x0034]], [(.ok, none)], false, .unknown⟩ := by decide +kernel

/-- V-F-5: the third transfer fails. -/
theorem test_sendCommandParams_fails :
    seen (exec (.sendCommandParams 0x0039 [0x0001, 0x03E8, 0x0005]) (demo 64 (oks 2 ++ [⟨false, [0, 0]⟩]))) =
      some ⟨[[0x6000, 0x0039], [0x0000, 0x0001], [0x0000, 0x03E8]], [(.error, none)], false, .unknown⟩ := by
  decide +kernel

/-- V-F-6. -/
theorem test_writeData_fits :
    seen (exec (.writeData [9, 8, 7, 6]) (demo 5 [⟨true, [0, 0, 0, 0, 0]⟩])) =
      some ⟨[[0x0000, 9, 8, 7, 6]], [(.ok, none)], false, .unknown⟩ := by decide +kernel

/-- V-F-6. -/
theorem test_writeData_too_large :
    seen (exec (.writeData [9, 8, 7, 6, 5]) (demo 5 (oks 1))) = some ⟨[], [(.error, none)], false, .unknown⟩ := by
  decide +kernel

/-- V-F-7: the stale slots of a read. -/
theorem test_readData_stale :
    seen (exec (.readData 2) { demo 4 [⟨true, [0xAAAA, 0xBBBB, 0x0011, 0x0022]⟩] with outBuf := [0x0000, 1, 2, 3] }) =
      some ⟨[[0x1000, 0x0000, 2, 3]], [(.ok, some (.words [0x0011, 0x0022]))], false, .unknown⟩ := by decide +kernel

/-- V-L1-1, the row `C = 2`, `readData 1`. -/
theorem test_readData_too_large :
    seen (exec (.readData 1) (demo 2 (oks 1))) = some ⟨[], [(.error, none)], false, .unknown⟩ := by decide +kernel

/-- V-R-1. -/
theorem test_writeRegister :
    seen (exec (.writeRegister 0x0004 0x0001) (demo 64 (oks 3))) =
      some ⟨[[0x6000, 0x0011], [0x0000, 0x0004], [0x0000, 0x0001]], [(.ok, none)], false, .unknown⟩ := by
  decide +kernel

/-- V-R-2. -/
theorem test_readRegister :
    seen (exec (.readRegister 0x1224) (demo 64 (oks 2 ++ [⟨true, [0, 0, 0xBEEF]⟩]))) =
      some ⟨[[0x6000, 0x0010], [0x0000, 0x1224], [0x1000, 0x0000, 0]], [(.ok, some (.word 0xBEEF))], false,
        .unknown⟩ := by decide +kernel

/-- V-R-3. -/
theorem test_readRegister_too_large :
    seen (exec (.readRegister 0x1224) (demo 2 (oks 3))) =
      some ⟨[[0x6000, 0x0010], [0x0000, 0x1224]], [(.error, none)], false, .unknown⟩ := by decide +kernel

/-- V-C-1. -/
theorem test_wakeUp :
    seen (exec .wakeUp (demo 64 (oks 1))) = some ⟨[[0x6000, 0x0001]], [(.ok, none)], false, .active⟩ := by
  decide +kernel

/-- V-C-1: the flag held. -/
theorem test_wakeUp_busy :
    seen (exec .wakeUp { demo 64 (oks 1) with excl := true, power := .sleep }) =
      some ⟨[], [(.busy, none)], true, .sleep⟩ := by decide +kernel

/-- V-C-1. -/
theorem test_standby :
    seen (exec .standby (demo 64 (oks 1))) = some ⟨[[0x6000, 0x0002]], [(.ok, none)], false, .standby⟩ := by
  decide +kernel

/-- V-C-1: the bus fails. -/
theorem test_sleep_fails :
    seen (exec .sleep { demo 64 [⟨false, [0, 0]⟩] with power := .active }) =
      some ⟨[[0x6000, 0x0003]], [(.error, none)], false, .unknown⟩ := by decide +kernel

/-- V-L1-3, V-C-2: `reset` while the flag is held. -/
theorem test_reset :
    (match exec .reset { demo 64 [] with excl := true } with
      | .next t => some (t.trace, t.resetLevel, t.power, t.excl)
      | .fault _ | .refused _ => none) =
      some ([.line .low, .delay 10, .line .high, .result 0 .ok none], .driven .high, .active, true) := by
  decide +kernel

/-- The block of V-L1-5, low byte first. -/
def infoBlock : List Word :=
  [0x0064, 0x00C8, 0x2345, 0x0001, 0x5746, 0x2E31, 0x0030, 0, 0, 0, 0, 0, 0x554C, 0x3154, 0, 0, 0, 0, 0, 0]

/-- V-L1-5. -/
theorem test_getDeviceInfo :
    (seen (exec .getDeviceInfo (demo 22 (oks 1 ++ [⟨true, 1 :: 2 :: infoBlock⟩])))).map (fun x => x.results) =
      some [(.ok, some (.info ⟨100, 200, 0x00012345, ascii "FW1.0", ascii "LUT1"⟩))] := by decide +kernel

/-- V-C-5: no terminator, and a terminator first. -/
theorem test_getDeviceInfo_text :
    textOf .lowByteFirst (List.replicate 8 0x4141) = ascii "AAAAAAAAAAAAAAAA" ∧
      textOf .lowByteFirst [0x4100, 0x5746] = [] ∧ textOf .highByteFirst [0x4100, 0x5746] = ascii "A" := by
  decide +kernel

/-- V-L1-4. -/
theorem test_setVcom :
    seen (exec (.setVcom (-65535 / 1000)) (demo 64 (oks 3))) =
      some ⟨[[0x6000, 0x0039], [0x0000, 0x0001], [0x0000, 0xFFFF]], [(.ok, none)], false, .unknown⟩ := by
  decide +kernel

/-- V-L1-4, V-E-2: out of range while the flag is held. -/
theorem test_setVcom_out_of_range :
    seen (exec (.setVcom (-65536 / 1000)) { demo 64 (oks 3) with excl := true }) =
      some ⟨[], [(.error, none)], true, .unknown⟩ := by decide +kernel

/-- V-C-3: halves away from zero. -/
theorem test_vcom_rounding :
    vcomWord (-4 / 10000) = 0x0000 ∧ vcomWord (-5 / 10000) = 0x0001 ∧ vcomWord (-15 / 10000) = 0x0002 ∧
      vcomWord (-655349 / 10000) = 0xFFFF ∧ vcomInRange (-655351 / 10000) = false ∧
      vcomInRange (1 / 1000) = false := by decide +kernel

/-- V-C-4. -/
theorem test_getVcom :
    seen (exec .getVcom (demo 64 (oks 2 ++ [⟨true, [0, 0, 0x05DC]⟩]))) =
      some ⟨[[0x6000, 0x0039], [0x0000, 0x0000], [0x1000, 0x0000, 0]], [(.ok, some (.volts (-3 / 2)))], false,
        .unknown⟩ := by decide +kernel

/-- V-C-11. -/
theorem test_enableParameterPack :
    seen (exec .enableParameterPack (demo 64 (oks 3))) =
      some ⟨[[0x6000, 0x0011], [0x0000, 0x0004], [0x0000, 0x0001]], [(.ok, none)], false, .unknown⟩ := by
  decide +kernel

/-- V-L1-7. -/
theorem test_isDisplayReady :
    seen (exec .isDisplayReady (demo 64 (oks 2 ++ [⟨true, [0, 0, 0x0000]⟩]))) =
      some ⟨[[0x6000, 0x0010], [0x0000, 0x1224], [0x1000, 0x0000, 0]], [(.ok, some (.ready true))], false,
        .unknown⟩ := by decide +kernel

/-- V-L1-7. -/
theorem test_isDisplayReady_not :
    (seen (exec .isDisplayReady (demo 64 (oks 2 ++ [⟨true, [0, 0, 0x8000]⟩])))).map (fun x => x.results) =
      some [(.ok, some (.ready false))] := by decide +kernel

/-- V-L1-6. -/
theorem test_writeImage :
    seen (exec (.writeImage 0x00012345 [0xABCD] 10 20 4 1) (demo 64 (oks 14))) =
      some ⟨[[0x6000, 0x0011], [0x0000, 0x020A], [0x0000, 0x0001], [0x6000, 0x0011], [0x0000, 0x0208],
          [0x0000, 0x2345], [0x6000, 0x0021], [0x0000, 0x0030], [0x0000, 0x000A], [0x0000, 0x0014], [0x0000, 0x0004],
          [0x0000, 0x0001], [0x0000, 0xABCD], [0x6000, 0x0022]], [(.ok, none)], false, .unknown⟩ := by decide +kernel

/-- V-C-12. -/
theorem test_writeImage_base_wraps : regImgHigh { cfg 8 with regImgBase := 0xFFFE } = 0x0000 := by decide

/-- V-L1-8. -/
theorem test_display :
    seen (exec (.display 0 0 100 100) (demo 64 (oks 6))) =
      some ⟨[[0x6000, 0x0034], [0x0000, 0x0000], [0x0000, 0x0000], [0x0000, 0x0064], [0x0000, 0x0064],
          [0x0000, 0x0002]], [(.ok, none)], false, .unknown⟩ := by decide +kernel

/-- V-C-9. -/
theorem test_clear :
    seen (exec (.clear 0 0 8 8) (demo 64 (oks 6))) =
      some ⟨[[0x6000, 0x0034], [0x0000, 0x0000], [0x0000, 0x0000], [0x0000, 0x0008], [0x0000, 0x0008],
          [0x0000, 0x0000]], [(.ok, none)], false, .unknown⟩ := by decide +kernel

/-! ## Single steps of the other agents -/

/-- A context at `WaitSuspend` of `sendCommand 0x0002` with handle 0 registered, on a busy line (V-B-2). -/
def waiting : State :=
  { demo 8 (oks 1) with
    excl := true
    busyLevel := .low
    outBuf := [0x6000, 0x0002, 0, 0, 0, 0, 0, 0]
    slot := .handler 0
    handles := [⟨false, false⟩]
    callers :=
      [{ Caller.idle with req := some (.sendCommand 0x0002), pos := .waitSuspend, hnd := some 0 }, Caller.idle] }

/-- The state after a step, if there is one. -/
def after (s : State) : Option State :=
  match step s with
  | .next t => some t
  | .fault _ => none
  | .refused _ => none

/-- V-B-2: the rising edge reaches the handle. -/
theorem test_edge : (after { waiting with inputs := [.busyLine .high] }).map (fun t => t.edgeTargets) = some [0] := by
  decide +kernel

/-- V-B-2, R135: an invocation is enabled only once an edge has reached the handle. -/
theorem test_invoke :
    (after { waiting with inputs := [.invoke 0], edgeTargets := [0] }).map (fun t => t.handles) =
        some [⟨true, true⟩] ∧
      (after { waiting with inputs := [.invoke 0] }).map (fun t => t.handles) = some [⟨false, false⟩] := by
  decide +kernel

/-- V-B-3: the observed-idle exit records a sample. -/
theorem test_observed_idle :
    (after { waiting with inputs := [.run 0], busyLevel := .high }).map
        (fun t => (t.trace.take 2, sent t.trace, t.slot)) =
      some ([.sample .high, .deregister], [[0x6000, 0x0002]], .inert) := by decide +kernel

/-- V-B-8: on a busy line, with no invocation, the context stays suspended. -/
theorem test_hang : after { waiting with inputs := [.run 0] } = some waiting := by decide +kernel

/-- R193: `C = 1`. -/
theorem test_capacity_one : step (demo 1 []) = .refused .capacityBelowTwo := rfl

/-! ## Witnesses: the hypotheses of each statement can be met together -/

theorem witness_FrameRoundTrip :
    (Instr.rdata 2).wellFormed = true ∧ encodeFrame (.rdata 2) = some [0x1000, 0x0000, 0, 0] ∧
      (Instr.wdata []).wellFormed = true ∧ encodeFrame (.wdata []) = some [0x0000] ∧
      (Instr.sendCommand 0x0025).wellFormed = true ∧ encodeFrame (.sendCommand 0x0025) = some [0x6000, 0x0025] ∧
      decodeFrame [0x1000, 0x0000, 0xBEEF, 0x0001] = .ok (.rdata 2) := by
  decide

theorem witness_DecodeAcceptsOnlyFrames :
    decodeFrame [0x1000, 0x0000, 7] = .ok (.rdata 1) ∧ decodeFrame [0x6000, 0x0022] = .ok .cmdEndLoadImage ∧
      ((0x2000 : Word) ≠ 0x6000 ∧ (0x2000 : Word) ≠ 0x0000 ∧ (0x2000 : Word) ≠ 0x1000) ∧
      ([] : List Word).length ≠ 1 := ⟨rfl, rfl, by decide, by decide⟩

theorem witness_RequestTokensRoundTrip :
    encodeTokens 1 (.sendCommandParams 0x0034 [0, 1]) =
        some [.num 1, .colon, .ident "sendCommandParams", .num 0x34, .comma, .lbracket, .num 0, .comma, .num 1,
          .rbracket] ∧
      encodeTokens 0 .reset = some [.num 0, .colon, .ident "reset"] ∧
      encodeRequest (.setVcom (-3 / 2)) = some [.ident "setVcom", .dec (-3 / 2)] ∧
      decodeLine (ascii "setVcom 2") = some (0, .setVcom 2) := by decide +kernel

theorem witness_StepRunsDecodedInstruction :
    2 ≤ (demo 2 []).cfg.capacity ∧ (∃ s : State, s.inputs = [.request 1 .reset] ∧ 2 ≤ s.cfg.capacity) ∧
      (∃ s : State, s.inputs = [.line (ascii "1: sleep")] ∧ 2 ≤ s.cfg.capacity) ∧
      decodeLine (ascii "1: sleep") = some (1, .sleep) ∧
      (∃ s : State, s.inputs = [.frame 0 [0x6000, 0x0003]] ∧ 2 ≤ s.cfg.capacity) ∧
      decodeFrame [0x6000, 0x0003] = .ok .cmdSleep ∧ decodeLine (ascii "powerOff") = none ∧
      decodeFrame [0x2000] = .error (.unknownPreamble 0x2000) :=
  ⟨by decide, ⟨{ demo 2 [] with inputs := [.request 1 .reset] }, rfl, by decide⟩,
    ⟨{ demo 2 [] with inputs := [.line (ascii "1: sleep")] }, rfl, by decide⟩, by decide +kernel,
    ⟨{ demo 2 [] with inputs := [.frame 0 [0x6000, 0x0003]] }, rfl, by decide⟩, rfl, by decide +kernel, rfl⟩

theorem witness_ConstructionState : 2 ≤ (cfg 2).capacity := by decide

theorem witness_CapacityBelowTwoRefused : (demo 1 []).cfg.capacity < 2 ∧ (demo 0 []).cfg.capacity < 2 := by decide

/-- A busy state: context 0 suspended, context 1 to issue `wakeUp` (V-B-8). -/
def contended : State := { waiting with inputs := [.request 1 .wakeUp] }

theorem witness_step_next : ∃ t, step contended = .next t ∧ results t.trace = [(.busy, none)] :=
  ⟨_, rfl, by decide +kernel⟩

theorem witness_StepKeepsBufferSizes : Memory.wf contended ∧ ∃ t, step contended = .next t :=
  ⟨by decide, _, rfl⟩

/-- Every context of `contended`, read off. -/
theorem contended_caller (c : Nat) :
    contended.caller c =
      if c = 0 then { Caller.idle with req := some (.sendCommand 0x0002), pos := .waitSuspend, hnd := some 0 }
      else Caller.idle := by
  rcases c with _ | _ | c
  · rfl
  · rfl
  · exact State.caller_absent (Nat.le_add_left 2 c)

theorem witness_StepKeepsExclusivity : contended.exclusive ∧ contended.holds 0 = true ∧ ∃ t, step contended = .next t :=
  by
    have h : ∀ c, contended.holds c = true → c = 0 := fun c hc => by
      by_contra hne
      rw [State.holds, contended_caller, if_neg hne] at hc
      exact absurd hc (by decide)
    exact ⟨⟨fun _ _ => rfl, fun c d hc hd => (h c hc).trans (h d hd).symm⟩, rfl, _, rfl⟩

theorem witness_StepKeepsHandlesSound : contended.handlesSound ∧ ∃ t, step contended = .next t := by
  refine ⟨⟨by decide, by decide, fun h hs => ?_, fun c h hh => ?_, by decide⟩, _, rfl⟩
  · obtain rfl : 0 = h := by simpa [contended, waiting] using hs
    decide
  · rw [contended_caller] at hh
    by_cases hc : c = 0
    · rw [if_pos hc] at hh
      obtain rfl : 0 = h := by simpa using hh
      decide
    · rw [if_neg hc] at hh
      exact absurd hh (by simp [Caller.idle])

theorem witness_CapacityCheckGuards :
    contended.fits ∧ (contended.caller 0).pos.usesBuffers = true ∧ ∃ t, step contended = .next t := by
  refine ⟨fun c i hi => ?_, rfl, _, rfl⟩
  rw [contended_caller] at hi
  by_cases hc : c = 0
  · subst hc
    obtain rfl : Instr.sendCommand 0x0002 = i := by simpa using hi
    decide
  · rw [if_neg hc] at hi
    exact absurd hi (by simp [Caller.idle])

theorem witness_StepKeepsConfiguration : ∃ t, step contended = .next t := ⟨_, rfl⟩

theorem witness_SignalledForEver :
    let s : State := { waiting with inputs := [.invoke 0], edgeTargets := [0], handles := [⟨true, true⟩] }
    s.signalled 0 = true ∧ ∃ t, step s = .next t := ⟨by decide, _, rfl⟩

theorem witness_CmdRowsComplete : (demo 2 (oks 1)).ready 1 := by decide

theorem witness_DataRowsComplete :
    (demo 4 [⟨true, [0, 0, 5, 6]⟩]).ready 1 ∧ Memory.wf (demo 4 [⟨true, [0, 0, 5, 6]⟩]) ∧
      [1, 2, (3 : Word)].length + 1 ≤ (demo 4 [⟨true, [0, 0, 5, 6]⟩]).cfg.capacity ∧
      2 + 2 ≤ (demo 4 [⟨true, [0, 0, 5, 6]⟩]).cfg.capacity ∧ [5, (6 : Word)].length = 2 ∧
      (demo 4 [⟨true, [0, 0, 5, 6]⟩]).answers = [⟨true, 0 :: 0 :: [5, 6]⟩] := by decide

theorem witness_SendCommandCompletes : (demo 2 (oks 1)).ready 1 := by decide

theorem witness_SendCommandParamsCompletes :
    (demo 2 (oks 1)).ready (1 + ([] : List Word).length) ∧ (demo 2 (oks 3)).ready (1 + [7, (8 : Word)].length) := by
  decide

theorem witness_WriteDataCompletes :
    (demo 2 (oks 1)).ready 1 ∧ ([] : List Word).length + 1 ≤ (demo 2 (oks 1)).cfg.capacity ∧
      [(7 : Word)].length + 1 ≤ (demo 2 (oks 1)).cfg.capacity := by decide

theorem witness_ReadDataCompletes :
    (demo 2 (oks 1)).ready 1 ∧ Memory.wf (demo 2 (oks 1)) ∧ 0 + 2 ≤ (demo 2 (oks 1)).cfg.capacity ∧
      (demo 2 (oks 1)).answers = [⟨true, [0, 0]⟩] := by decide

theorem witness_WriteRegisterCompletes : (demo 2 (oks 3)).ready 3 := by decide

theorem witness_ReadRequestsComplete :
    (demo 3 (oks 2 ++ [⟨true, [0, 0, 9]⟩])).ready 3 ∧ Memory.wf (demo 3 (oks 2 ++ [⟨true, [0, 0, 9]⟩])) ∧
      3 ≤ (demo 3 (oks 2 ++ [⟨true, [0, 0, 9]⟩])).cfg.capacity ∧
      (demo 3 (oks 2 ++ [⟨true, [0, 0, 9]⟩])).answers = [⟨true, [0, 0]⟩, ⟨true, [0, 0]⟩, ⟨true, [0, 0, 9]⟩] := by
  decide

theorem witness_PowerCommandsComplete : (demo 2 (oks 1)).ready 1 := by decide

theorem witness_ResetCompletes :
    (demo 2 []).accepting ∧ ({ demo 2 [] with excl := true, busyLevel := .low } : State).accepting := by decide

theorem witness_GetDeviceInfoCompletes :
    let s := demo 22 (oks 1 ++ [⟨true, 1 :: 2 :: infoBlock⟩])
    s.ready 2 ∧ Memory.wf s ∧ 22 ≤ s.cfg.capacity ∧ infoBlock.length = 20 ∧
      s.answers = [⟨true, [0, 0]⟩, ⟨true, 1 :: 2 :: infoBlock⟩] ∧
      parseDeviceInfo s.cfg.textOrder infoBlock = some ⟨100, 200, 0x00012345, ascii "FW1.0", ascii "LUT1"⟩ := by
  decide +kernel

/-- Both ends of the range: -65.535 itself, and a value just below zero. -/
theorem witness_SetVcomCompletes :
    (demo 2 (oks 3)).ready 3 ∧ (-65535 / 1000 : Rat) ≤ -65535 / 1000 ∧ (-65535 / 1000 : Rat) < 0 ∧
      (-65535 / 1000 : Rat) ≤ -1 / 10000000 ∧ (-1 / 10000000 : Rat) < 0 := by decide +kernel

theorem witness_WriteImageCompletes :
    (demo 2 (oks 14)).ready 14 ∧ [(1 : Word)].length + 1 ≤ (demo 2 (oks 14)).cfg.capacity := by decide

theorem witness_RefreshCompletes : (demo 2 (oks 6)).ready 6 := by decide

theorem witness_BusyWhileHeld :
    ({ waiting with active := 1 } : State).accepting ∧ waiting.excl = true ∧ Instr.setVcom (-1) ≠ .reset ∧
      ((-65535 / 1000 : Rat) ≤ -1 ∧ (-1 : Rat) < 0) := by decide +kernel

/-- Just out of range at both ends: -65.536 and 0. -/
theorem witness_SetVcomOutOfRangeErrors :
    (demo 2 []).accepting ∧ ¬ ((-65535 / 1000 : Rat) ≤ -65536 / 1000 ∧ (-65536 / 1000 : Rat) < 0) ∧
      ¬ ((-65535 / 1000 : Rat) ≤ 0 ∧ (0 : Rat) < 0) := by decide +kernel

theorem witness_OversizedDataErrors :
    (demo 2 []).accepting ∧ (demo 2 []).excl = false ∧ (demo 2 []).cfg.capacity < [7, (8 : Word)].length + 1 ∧
      (demo 2 []).cfg.capacity < 1 + 2 := by decide

theorem witness_OversizedCompositeErrors :
    ((demo 2 (oks 2)).ready 2 ∧ (demo 2 (oks 2)).cfg.capacity < 3) ∧
      ((demo 21 (oks 1)).ready 1 ∧ (demo 21 (oks 1)).cfg.capacity < 22) ∧
      ((demo 2 (oks 12)).ready 12 ∧ (demo 2 (oks 12)).cfg.capacity < [7, (8 : Word)].length + 1) := by decide

/-- V-R-5: the second of three transfers fails. And the first transfer of a register read with `C = 2`, whose data frame
does not fit. -/
theorem witness_FirstFailureEndsRequest :
    (let s := demo 2 (oks 1 ++ [⟨false, [0, 0]⟩])
      let i := Instr.writeRegister 0x0208 0x0001
      let p := writeRegisterPrim 0x0208 0x0001
      let sent : List Frame := [⟨[0x6000, 0x0011], 2⟩]
      (∀ v, i = .setVcom v → -65535 / 1000 ≤ v ∧ v < 0) ∧ (expansionOf s.cfg i).prims = [] ++ p :: [] ∧
        p.frames = sent ++ ⟨[0x0000, 0x0208], 2⟩ :: [⟨[0x0000, 0x0001], 2⟩] ∧
        (∀ q ∈ [] ++ [p], q.need ≤ s.cfg.capacity) ∧
        s.ready (([] : List Primitive).flatMap Primitive.frames ++ sent).length ∧
        s.answers.drop (([] : List Primitive).flatMap Primitive.frames ++ sent).length = [⟨false, [0, 0]⟩]) ∧
    (let s := demo 2 [⟨false, [0, 0]⟩]
      let i := Instr.readRegister 0x0208
      let p := Primitive.sendCommandParams 0x0010 [0x0208]
      (∀ v, i = .setVcom v → -65535 / 1000 ≤ v ∧ v < 0) ∧
        (expansionOf s.cfg i).prims = [] ++ p :: [.readData 1] ∧ s.cfg.capacity < (Primitive.readData 1).need ∧
        p.frames = [] ++ ⟨[0x6000, 0x0010], 2⟩ :: [⟨[0x0000, 0x0208], 2⟩] ∧
        (∀ q ∈ [] ++ [p], q.need ≤ s.cfg.capacity) ∧ s.ready 0 ∧ s.answers.drop 0 = [⟨false, [0, 0]⟩]) :=
  ⟨⟨fun _ h => absurd h (by simp), by decide, by decide, by decide, by decide, by decide⟩,
    fun _ h => absurd h (by simp), by decide, by decide, by decide, by decide, by decide, by decide⟩

theorem witness_BusyLineSuspends :
    let s : State := { demo 2 (oks 3) with busyLevel := .low }
    let i := Instr.writeRegister 0x0004 0x0001
    s.accepting ∧ s.excl = false ∧ s.busyLevel = .low ∧ (∀ v, i = .setVcom v → -65535 / 1000 ≤ v ∧ v < 0) ∧
      (expansionOf s.cfg i).prims.head? = some (writeRegisterPrim 0x0004 0x0001) ∧
      (writeRegisterPrim 0x0004 0x0001).need ≤ s.cfg.capacity ∧
      (writeRegisterPrim 0x0004 0x0001).frames =
        ⟨[0x6000, 0x0011], 2⟩ :: [⟨[0x0000, 0x0004], 2⟩, ⟨[0x0000, 0x0001], 2⟩] :=
  ⟨by decide, rfl, rfl, fun _ h => absurd h (by simp), rfl, by decide, by decide⟩

/-- V-F-10. -/
theorem witness_UnansweredTransferBlocks :
    let s := demo 2 []
    s.accepting ∧ s.excl = false ∧ s.busyLevel = .high ∧ s.answers = [] ∧
      (∀ v, Instr.sendCommand 0x0001 = .setVcom v → -65535 / 1000 ≤ v ∧ v < 0) ∧
      (expansionOf s.cfg (.sendCommand 0x0001)).prims.head? = some (.sendCommand 0x0001) ∧
      (Primitive.sendCommand 0x0001).need ≤ s.cfg.capacity ∧
      (Primitive.sendCommand 0x0001).frames = [⟨[0x6000, 0x0001], 2⟩] :=
  ⟨by decide, rfl, rfl, rfl, fun _ h => absurd h (by simp), rfl, by decide, by decide⟩

theorem witness_WaitSuspendExits :
    0 < waiting.callers.length ∧ (waiting.caller 0).pos = .waitSuspend ∧ (waiting.caller 0).hnd = some 0 := by decide

/-- `waiting` with context 0 at another position. -/
def waitingAt (p : Pos) : State :=
  waiting.setCaller 0 { Caller.idle with req := some (.sendCommand 0x0002), pos := p }

theorem witness_DeregisterGoesToTransfer : ((waitingAt .waitDeregister).caller 0).pos = .waitDeregister := rfl

theorem witness_WaitSampleFastPath :
    ((waitingAt .waitSample).caller 0).pos = .waitSample ∧ (waitingAt .waitSample).busyLevel = .low ∧
      ({ waitingAt .waitSample with busyLevel := .high } : State).busyLevel = .high := by decide

theorem witness_WaitRegisterMakesHandle : ((waitingAt .waitRegister).caller 0).pos = .waitRegister := rfl

theorem witness_BuffersChangeOnlyUnderExclusivity :
    (waitingAt .acquire).holds 0 = false ∧ (waitingAt (.ret .ok)).holds 0 = false ∧
      (waitingAt .lineLow).holds 0 = false := by decide

theorem witness_InvokeRunsHandler :
    0 ∈ ({ waiting with edgeTargets := [0] } : State).edgeTargets ∧ waiting.handles[0]? = some ⟨false, false⟩ := by
  decide

theorem witness_InvokeDeliversOnce : 0 ∉ waiting.edgeTargets := by decide

theorem witness_StaleInvocationCannotWake :
    let s : State := { waitingAt .waitRegister with slot := .inert, edgeTargets := [0] }
    ((waiting.caller 0).hnd = some 0 ∧ 1 ≠ 0) ∧ s.handlesSound ∧ 0 < s.callers.length ∧
      (s.caller 0).pos = .waitRegister ∧ 0 ≠ s.handles.length := by
  refine ⟨by decide, ⟨by decide, by decide, fun h hs => ?_, fun c h hh => ?_, by decide⟩, by decide, rfl, by decide⟩
  · cases hs
  rcases c with _ | _ | c
  · cases hh
  · cases hh
  · rw [State.caller_absent (Nat.le_add_left 2 c)] at hh
    cases hh

theorem witness_RisingEdgeReachesHandle :
    waiting.busyLevel = .low ∧ waiting.slot = .handler 0 ∧ 0 ∈ (waiting.driveBusy .high).edgeTargets := by decide

theorem witness_SignalledWaitCompletes :
    let s : State := { demo 2 (oks 1) with busyLevel := .low }
    s.accepting ∧ s.excl = false ∧ s.busyLevel = .low ∧ Memory.wf s ∧ s.handlesSound ∧ s.answers = [⟨true, [0, 0]⟩] := by
  refine ⟨by decide, rfl, rfl, by decide, ⟨by decide, by decide, fun h hs => ?_, fun c h hh => ?_, by decide⟩, rfl⟩
  · cases hs
  rcases c with _ | _ | c
  · cases hh
  · cases hh
  · rw [State.caller_absent (Nat.le_add_left 2 c)] at hh
    cases hh

/-- V-E-3. -/
def racing : State :=
  { demo 2 [] with
    callers := [{ Caller.idle with req := some .wakeUp, pos := .acquire },
      { Caller.idle with req := some .sleep, pos := .acquire }]
    inputs := [.advance 1 .signal, .advance 0 .signal] }

theorem witness_FirstAcquirerWins :
    2 ≤ racing.cfg.capacity ∧ 0 < racing.callers.length ∧ 1 < racing.callers.length ∧
      (racing.caller 1).req = some .sleep ∧ (racing.caller 0).req = some .wakeUp ∧
      (racing.caller 1).pos = .acquire ∧ (racing.caller 0).pos = .acquire ∧ racing.excl = false ∧
      racing.inputs = [.advance 1 .signal, .advance 0 .signal] := by decide

/-- V-R-4: between the two sub-steps of a register read. -/
theorem witness_CompositeReleasesBetweenSubSteps :
    let e := expandReadRegister 0x1224
    0 < (waitingAt (.release .ok)).callers.length ∧ ((waitingAt (.release .ok)).caller 0).pos = .release .ok ∧
      ((waitingAt (.release .ok)).caller 0).sub + 1 < e.prims.length ∧
      ((waitingAt .acquire).caller 0).pos = .acquire ∧ (waitingAt .acquire).excl = true := by decide

theorem witness_ExecIsScheduleOfAtomicSteps : (demo 2 (oks 1)).accepting := by decide

theorem witness_ExecComesToRest : (demo 2 []).accepting ∧ ({ waiting with active := 1 } : State).accepting := by decide

theorem witness_ExecFrame :
    (∃ t, exec (.writeRegister 4 1) (demo 4 (oks 3)) = .next t) ∧
      (∀ f ∈ (expansionOf (cfg 4) (.writeRegister 4 1)).frames, f.words.length ≤ 2 ∧ f.len ≤ 2) ∧
      (expansionOf (cfg 4) (.writeRegister 4 1)).power = .keeps := ⟨⟨_, rfl⟩, by decide, rfl⟩

theorem witness_PowerTrackerFollowsStatus :
    (demo 2 (oks 1)).accepting ∧
      ∃ t, exec .wakeUp (demo 2 (oks 1)) = .next t ∧ (t.caller 0).req = none ∧ (t.caller 0).st = .ok :=
  ⟨by decide, _, rfl, rfl, rfl⟩

theorem witness_VcomWordExact :
    (-65535 / 1000 : Rat) ≤ -65535 / 1000 ∧ (-65535 / 1000 : Rat) < 0 ∧ (-65535 / 1000 : Rat) ≤ -15 / 10000 ∧
      (-15 / 10000 : Rat) < 0 := by decide +kernel

theorem witness_DeviceInfoFields : infoBlock.length = 20 := rfl

theorem witness_TextStopsAtTerminator : ([0x5746, 0x2E31] : List Word)[1]? = some 0x2E31 := rfl

theorem witness_TransferEffect :
    Memory.wf (demo 4 []) ∧ 4 ≤ (demo 4 []).cfg.capacity ∧ (⟨true, [1, 2, 3, 4]⟩ : Answer).words.length = 4 ∧
      (⟨true, [1, 2, 3, 4]⟩ : Answer).ok = true := by decide

/-- `waiting` with one move as its queue; its context 0 has a request in progress and its context 1 has none. -/
def moving (m : Move) : State := { waiting with inputs := [m] }

theorem witness_StepTakesOtherMoves :
    (∀ m, 2 ≤ (moving m).cfg.capacity ∧ (moving m).inputs = [m] ∧
      ((moving m).caller 0).req = some (.sendCommand 0x0002) ∧ ((moving m).caller 1).req = none ∧
      overruns (expansionOf (moving m).cfg (.sendCommand 0x0002)) 0 (moving m) = false) ∧
    waiting.inputs = [] ∧
    (let s := (moving (.run 0)).setCaller 0 { Caller.idle with req := some (.readData 9), pos := .fill };
      s.inputs = [.run 0] ∧ (s.caller 0).req = some (.readData 9) ∧
        overruns (expansionOf s.cfg (.readData 9)) 0 s = true) :=
  ⟨fun _ => ⟨show 2 ≤ 8 by decide, rfl, rfl, rfl, rfl⟩, rfl, rfl, rfl, by decide⟩

/-- R39, R157: the sub-step index and the position of context 1 through the line steps of `reset`. -/
theorem test_reset_counts_line_steps :
    let go (n : Nat) : Option (Pos × Nat) :=
      match Host.Core.run Sys2Proof.core (n + 1)
        { demo 2 [] with inputs := .start 1 .reset :: List.replicate n (.advance 1 .signal) } with
      | .next t => some ((t.caller 1).pos, (t.caller 1).sub)
      | .fault _ | .refused _ => none
    [go 0, go 1, go 2, go 3] =
      [some (.lineLow, 0), some (.hold, 1), some (.lineHigh, 2), some (.ret .ok, 2)] := by decide +kernel

theorem witness_ResetCountsLineSteps :
    1 < (demo 2 []).callers.length ∧ ((demo 2 []).caller 1).req = none ∧
      ((waitingAt .lineLow).caller 0).pos = .lineLow ∧ ((waitingAt .hold).caller 0).pos = .hold ∧
      ((waitingAt .lineHigh).caller 0).pos = .lineHigh := by decide

end Sys2Proof.Tests
end

section
/-! Proofs of the statements of 00_scope.md: what a step does with each of its moves (O6, O57), what every step keeps
(O15), and `exec` as a schedule of atomic steps (O49). -/

namespace Sys2Proof.Machine

variable {s t : State} {c : Nat} {i : Instr} {x : WaitExit} {e : Expansion} {rest : List Move}

/-! ## The moves of a context, by its request in progress -/

theorem advanceMove_idle (hr : (s.caller c).req = none) (x : WaitExit) : advanceMove c x s = .next s := by
  simp [advanceMove, hr]

theorem advanceMove_running (hr : (s.caller c).req = some i) (ho : overruns (expansionOf s.cfg i) c s = false)
    (x : WaitExit) : advanceMove c x s = .next (microStep (expansionOf s.cfg i) c x s) := by
  simp [advanceMove, hr, ho]

theorem advanceMove_overruns (hr : (s.caller c).req = some i) (ho : overruns (expansionOf s.cfg i) c s = true)
    (x : WaitExit) : advanceMove c x s = .fault .bufferIndex := by
  simp [advanceMove, hr, ho]

theorem runMove_idle (hr : (s.caller c).req = none) : runMove c s = .next s := by
  simp [runMove, hr]

theorem runMove_running (hr : (s.caller c).req = some i) (ho : overruns (expansionOf s.cfg i) c s = false) :
    runMove c s = .next (runSteps (expansionOf s.cfg i) c (expansionOf s.cfg i).budget s) := by
  simp [runMove, hr, ho]

theorem runMove_overruns (hr : (s.caller c).req = some i) (ho : overruns (expansionOf s.cfg i) c s = true) :
    runMove c s = .fault .bufferIndex := by
  simp [runMove, hr, ho]

theorem startMove_idle (hr : (s.caller c).req = none) (i : Instr) :
    startMove c i s =
      s.setCaller c { Caller.idle with req := some (asRequest i), pos := (expansionOf s.cfg i).start } := by
  simp [startMove, issue, hr]

theorem startMove_busy {j : Instr} (hr : (s.caller c).req = some j) (i : Instr) : startMove c i s = s := by
  simp [startMove, issue, hr]

/-! ## The step by its next input -/

theorem applyMove_line {text : List Byte} (h : decodeLine text = some (c, i)) (s : State) :
    applyMove (.line text) s = exec i { s with active := c } := by
  simp [applyMove, h]

theorem applyMove_line_unknown {text : List Byte} (h : decodeLine text = none) (s : State) :
    applyMove (.line text) s = .refused .unknownRequest := by
  simp [applyMove, h]

theorem applyMove_frame {ws : List Word} (h : decodeFrame ws = .ok i) (c : Nat) (s : State) :
    applyMove (.frame c ws) s = exec i { s with active := c } := by
  simp [applyMove, h]

theorem applyMove_frame_unknown {ws : List Word} {e : DecodeError} (h : decodeFrame ws = .error e) (c : Nat)
    (s : State) : applyMove (.frame c ws) s = .refused (.unknownFrame e) := by
  simp [applyMove, h]

/-- With no input the step is the step with the free move as its one input. -/
theorem step_of_no_input (h : s.inputs = []) :
    step s = step { s with inputs := [Config.freeMove s.ticks], ticks := s.ticks + 1 } := by
  simp [step, takeMove, h]

/-- R17: a context with no request in progress issues the one its move `start` names. -/
theorem step_start (hcap : 2 ≤ s.cfg.capacity) (h : s.inputs = .start c i :: rest) (hr : (s.caller c).req = none) :
    step s = .next (State.setCaller { s with inputs := rest } c
      { Caller.idle with req := some (asRequest i), pos := (expansionOf s.cfg i).start }) :=
  (step_of_input hcap h).trans (congrArg _ (startMove_idle (s := { s with inputs := rest }) hr i))

/-- R13, R37: a context with a request in progress takes one micro-step for a move `advance`. -/
theorem step_advance (hcap : 2 ≤ s.cfg.capacity) (h : s.inputs = .advance c x :: rest)
    (hr : (s.caller c).req = some i) (ho : overruns (expansionOf s.cfg i) c s = false) :
    step s = .next (microStep (expansionOf s.cfg i) c x { s with inputs := rest }) :=
  (step_of_input hcap h).trans (advanceMove_running (s := { s with inputs := rest }) hr ho x)

/-- Settles O6: the head of the queue is the move taken, and the decoder's answer says what the move is. -/
theorem stepRunsDecodedInstruction : Obligations.StepRunsDecodedInstruction := by
  intro s rest hcap
  refine ⟨fun c i h => ?request, fun text c i h hd => ?line, fun c ws i h hd => ?frame, fun text h hd => ?noLine,
    fun c ws e h hd => ?noFrame⟩ <;> rw [step_of_input hcap h]
  case request => rfl
  case line => exact applyMove_line hd _
  case frame => exact applyMove_frame hd c _
  case noLine => exact applyMove_line_unknown hd _
  case noFrame => exact applyMove_frame_unknown hd c _

/-- Settles O57: the head of the queue is the move taken, and the request in progress and the capacity say what the
move does; taking a move changes neither. -/
theorem stepTakesOtherMoves : Obligations.StepTakesOtherMoves := by
  intro s rest hcap
  have take {m : Move} (h : s.inputs = m :: rest) := step_of_input hcap h
  let r : State := { s with inputs := rest }
  refine ⟨fun l h => take h, fun a h => take h, fun g h => take h, fun c i h hr => step_start hcap h hr,
    fun c i j h hr => ?startBusy, fun c x i h hr ho => step_advance hcap h hr ho, fun c i h hr ho => ?run,
    fun c x h hr => ?idle, fun c x i h hr ho => ?overruns, step_of_no_input⟩
  case startBusy => exact (take h).trans (congrArg _ (startMove_busy (s := r) hr i))
  case run => exact (take h).trans (runMove_running (s := r) hr ho)
  case idle =>
    obtain h | h := h
    · exact (take h).trans (advanceMove_idle (s := r) hr x)
    · exact (take h).trans (runMove_idle (s := r) hr)
  case overruns =>
    obtain h | h := h
    · exact (take h).trans (advanceMove_overruns (s := r) hr ho x)
    · exact (take h).trans (runMove_overruns (s := r) hr ho)

/-! ## What every step keeps -/

/-- R14, R45: the same configuration and number of contexts, and a trace that has only grown. -/
def State.grownTo (s t : State) : Prop :=
  t.cfg = s.cfg ∧ t.callers.length = s.callers.length ∧ s.trace <+: t.trace

theorem State.grownTo.of_local {r : State} (h : s.grownTo t) (hl : Local c t r) : s.grownTo r := by
  obtain ⟨hcfg, hlen, htrace⟩ := h
  exact ⟨hl.cfg.trans hcfg, hl.length.trans hlen, htrace.trans hl.trace⟩

/-- Settles O15: a context's steps are local, and the moves of the environment, the notifier and the host touch none of
the three parts. -/
theorem stepKeepsConfiguration : Obligations.StepKeepsConfiguration := by
  intro s t hs
  have start : ∀ r c i, s.grownTo r → s.grownTo (startMove c i r) := fun _ _ _ h => h.of_local (issue_local ..)
  have micro : ∀ e c x r, s.grownTo r → s.grownTo (microStep e c x r) :=
    fun _ _ _ _ h => h.of_local (microStep_local ..)
  refine step_induction (P := s.grownTo) ?bookkeeping ?execs start ?micro ?runs ?busyLine ?answer ?invoke
    ⟨rfl, rfl, List.prefix_rfl⟩ hs
  case execs => exact fun _ _ _ => exec_induction start micro
  case micro => exact fun _ _ _ _ h _ _ => micro _ _ _ _ h
  case runs => exact fun _ _ _ _ h _ _ => h.of_local (runSteps_local ..)
  case bookkeeping => exact fun _ _ _ _ h => h
  case busyLine | answer => exact fun _ _ h => h
  case invoke =>
    intro r g h
    simpa only [State.grownTo, State.invoke_cfg, State.invoke_callers, State.invoke_trace] using h

/-! ## `exec` as a schedule -/

/-- A request just issued overruns nothing: no request begins past a capacity check. -/
theorem Expansion.sound.issued_overruns (h : e.sound) (hc : c < s.callers.length) (i : Instr) :
    overruns e c (s.setCaller c { Caller.idle with req := some i, pos := e.start }) = false := by
  apply overruns_of_pos
  rw [State.caller_setCaller_self hc]
  obtain ⟨hs | hs | hs, -⟩ | hs := h <;> rw [hs] <;> rfl

/-- R13, R37: the micro-steps of a run are steps of the machine, each for its own move `advance`. -/
theorem runSteps_is_schedule (n : Nat) (hcap : 2 ≤ s.cfg.capacity) (hr : (s.caller c).req = some i)
    (he : expansionOf s.cfg i = e) (ho : overruns e c s = false) :
    ∃ xs : List WaitExit,
      Host.Core.run Sys2Proof.core xs.length { s with inputs := xs.map (Move.advance c) ++ s.inputs } =
        .next (runSteps e c n s) := by
  induction n generalizing s with
  | zero => exact ⟨[], rfl⟩
  | succ n ih =>
    have hstep (m : List Move) : step { s with inputs := .advance c (s.firstExit c) :: m } =
        .next { microStep e c (s.firstExit c) s with inputs := m } := by
      subst he
      rw [← microStep_inputs]
      exact step_advance (s := { s with inputs := _ }) hcap rfl hr ho
    have hl := microStep_local e c (s.firstExit c) s
    rw [runSteps_succ, ← hl.inputs]
    obtain hreq | ⟨-, hidle⟩ := microStep_req e c (s.firstExit c) s
    · obtain ⟨xs, hxs⟩ := ih (hl.cfg ▸ hcap) (hreq.trans hr) (hl.cfg ▸ he) (microStep_overruns ho _)
      exact ⟨s.firstExit c :: xs, (core_run_next (hstep _) _).trans hxs⟩
    · exact ⟨[s.firstExit c], (core_run_next (hstep _) 0).trans (congrArg _ (runSteps_idle hidle n).symm)⟩

/-- Settles O49: the issue is the first step, and each micro-step of the burst one step more. -/
theorem execIsScheduleOfAtomicSteps : Obligations.ExecIsScheduleOfAtomicSteps := by
  intro s i h
  have ⟨hcap, hc, hr⟩ := h
  obtain ⟨xs, hxs⟩ := runSteps_is_schedule
    (s := s.setCaller s.active { Caller.idle with req := some (asRequest i), pos := (expansionOf s.cfg i).start })
    (expansionOf s.cfg i).budget hcap (by rw [State.caller_setCaller_self hc]) (expansionOf_asRequest s.cfg i)
    ((expansionOf_sound s.cfg i).issued_overruns hc _)
  refine ⟨xs, ?_⟩
  rw [exec_eq, runRequest_accepting h]
  exact (core_run_next (step_start (s := { s with inputs := .start s.active i :: _ }) hcap rfl hr) _).trans hxs

end Sys2Proof.Machine
end

section
/-! Proofs of the statements of 10_state.md: every request reads back from its tokens (O4); construction (O7), a
transfer (O56), the busy line's edge (O45) and the line steps of `reset` (O58); what every step keeps (O10, O11, O13);
what a context without `excl` leaves alone (O12); and what a request does as a whole: it comes to rest (O50), what it
leaves unchanged (O51), and its wait woken by an edge (O46). -/

namespace Sys2Proof

/-! ## The arguments of a request line -/

@[simp] theorem wordArg_toNat (w : Word) : wordArg w.toNat = some w := by
  simp [wordArg, w.isLt]

@[simp] theorem addrArg_toNat (a : Addr32) : addrArg a.toNat = some a := by
  simp [addrArg, a.isLt]

@[simp] theorem wordArgs_toNat (ws : List Word) : wordArgs (ws.map BitVec.toNat) = some ws := by
  induction ws with
  | nil => rfl
  | cons w ws ih => simp [wordArgs, ih]

@[simp] theorem areaArgs_toNat (f : Word → Word → Word → Word → Instr) (x y w h : Word) :
    areaArgs f x.toNat y.toNat w.toNat h.toNat = some (f x y w h) := by
  simp [areaArgs]

/-- The tokens of a non-empty word list are read up to its closing bracket. -/
theorem readWordList_tokensOfWords (w : Word) (ws : List Word) (rest : List Token) :
    readWordList (tokensOfWords (w :: ws) ++ rest) = some ((w :: ws).map BitVec.toNat, rest) := by
  induction ws generalizing w with
  | nil => rfl
  | cons v ws ih =>
    have hv := ih v
    simp only [tokensOfWords, List.cons_append, readWordList, hv]
    rfl

/-- A bracketed word list is one argument, empty or not. -/
theorem readArg_tokensOfWords (ws : List Word) (rest : List Token) :
    readArg (.lbracket :: (tokensOfWords ws ++ rest)) = some (.words (ws.map BitVec.toNat), rest) := by
  cases ws with
  | nil => rfl
  | cons w ws =>
    have h := readWordList_tokensOfWords w ws rest
    cases ws with
    | nil => rfl
    | cons v ws =>
      simp only [tokensOfWords, List.cons_append] at h
      simp only [tokensOfWords, List.cons_append, readArg, h]
      rfl

/-- The last argument of a list. -/
theorem readArgs_last {ts : List Token} {a : Arg} (h : readArg ts = some (a, [])) (n : Nat) :
    readArgs (n + 1) ts = some [a] := by
  simp [readArgs, h]

/-- An argument with others after it. -/
theorem readArgs_comma {ts rest : List Token} {a : Arg} (h : readArg ts = some (a, .comma :: rest)) (n : Nat) :
    readArgs (n + 1) ts = (readArgs n rest).map (a :: ·) := by
  simp [readArgs, h]

theorem readArgs_tokensOfArea (n : Nat) (x y w h : Word) :
    readArgs (n + 4) (tokensOfArea x y w h) = some [.num x.toNat, .num y.toNat, .num w.toNat, .num h.toNat] := rfl

theorem readArgs_tokensOfWords (n : Nat) (ws : List Word) :
    readArgs (n + 1) (.lbracket :: tokensOfWords ws) = some [.words (ws.map BitVec.toNat)] :=
  readArgs_last (by simpa using readArg_tokensOfWords ws []) n

/-- A request with arguments is the request of its name and the arguments read. -/
theorem requestOfTokens_of_readArgs {t : Token} {ts : List Token} {args : List Arg} (name : String)
    (h : readArgs (ts.length + 1) (t :: ts) = some args) : requestOfTokens name (t :: ts) = requestOf name args := by
  simp [requestOfTokens, h]

/-- The arguments of a `writeImage`: the address, the pixels, the area. -/
theorem readArgs_writeImage (addr : Addr32) (px : List Word) (x y w h : Word) :
    let ts := .comma :: .lbracket :: (tokensOfWords px ++ .comma :: tokensOfArea x y w h)
    readArgs (ts.length + 1) (.num addr.toNat :: ts) =
      some
        [.num addr.toNat, .words (px.map BitVec.toNat), .num x.toNat, .num y.toNat, .num w.toNat, .num h.toNat] := by
  obtain ⟨n, hn⟩ : ∃ n, (tokensOfWords px ++ .comma :: tokensOfArea x y w h).length = n + 4 :=
    ⟨(tokensOfWords px).length + 4, by simp [tokensOfArea]⟩
  dsimp only [List.length_cons]
  rw [readArgs_comma rfl, readArgs_comma (readArg_tokensOfWords ..), hn, readArgs_tokensOfArea (n + 1)]
  rfl

/-- R18: the tokens of a request are its name and tokens that make the request. -/
theorem requestOfTokens_of_encodeRequest {i : Instr} {ts : List Token} (hts : encodeRequest i = some ts) :
    ∃ name args, ts = .ident name :: args ∧ requestOfTokens name args = some i := by
  cases i <;> simp only [encodeRequest, Option.some.injEq, reduceCtorEq] at hts <;>
    refine ⟨_, _, hts.symm, ?_⟩
  case wakeUp | standby | sleep | reset | getDeviceInfo | getVcom | enableParameterPack | isDisplayReady => rfl
  case sendCommand | readRegister | readData | setVcom =>
    rw [requestOfTokens_of_readArgs _ (readArgs_last rfl _)]
    simp [requestOf]
  case writeRegister =>
    rw [requestOfTokens_of_readArgs _ rfl]
    simp [requestOf]
  case writeData ds =>
    rw [requestOfTokens_of_readArgs _ (readArgs_tokensOfWords ..)]
    simp [requestOf]
  case sendCommandParams op ps =>
    rw [requestOfTokens_of_readArgs _ ((readArgs_comma rfl _).trans (congrArg _ (readArgs_tokensOfWords ..)))]
    simp [requestOf]
  case display | clear =>
    rw [tokensOfArea, requestOfTokens_of_readArgs _ rfl]
    simp [requestOf]
  case writeImage =>
    rw [requestOfTokens_of_readArgs _ (readArgs_writeImage ..)]
    simp [requestOf]

/-- Settles O4: the tokens of a request are its name and arguments that read back, with a context before them or
without. -/
theorem requestTokensRoundTrip : Obligations.RequestTokensRoundTrip := by
  refine ⟨fun c i ts h => ?_, fun i ts h => ?_, fun c n => ⟨rfl, rfl⟩⟩
  · obtain ⟨us, hus, rfl⟩ := Option.map_eq_some_iff.mp h
    obtain ⟨name, args, rfl, hi⟩ := requestOfTokens_of_encodeRequest hus
    simp [decodeTokens, hi]
  · obtain ⟨name, args, rfl, hi⟩ := requestOfTokens_of_encodeRequest h
    simp [decodeTokens, hi]

end Sys2Proof

namespace Sys2Proof.Machine

variable {s t : State} {c : Nat} {i : Instr} {e : Expansion} {u : Caller}

/-! ## Construction, one transfer, one edge, the line steps -/

/-- Settles O7: each field is the one `State.construct` writes, and every context is a copy of the idle one. -/
theorem constructionState : Obligations.ConstructionState := by
  intro cfg _
  obtain ⟨hout, hin⟩ := Memory.wf_construct cfg
  refine ⟨rfl, hout, hin, rfl, rfl, rfl, rfl, rfl, List.length_replicate, fun u hu => ?_, rfl⟩
  rw [List.eq_of_mem_replicate hu]
  exact ⟨rfl, rfl⟩

/-- Settles O56: the answer fixes the whole response, and `in` is written from slot 0 with exactly `n` words. -/
theorem transferEffect : Obligations.TransferEffect := by
  intro s n a ⟨_, hin⟩ hn hlen
  have hr : response a.words s.draws n = a.words := response_of_length hlen
  refine ⟨by simp [memRead, hr], rfl, fun hok => ?_, fun j hj => ?_⟩
  · rw [State.transfer_inBuf, if_pos hok, hr, memWrite_zero (by omega), List.take_left' hlen]
  · rw [State.transfer_inBuf]
    refine memWrite_keeps _ _ (le_of_eq_of_le ?_ hj)
    split <;> simp

/-- R31: what an edge reaches: the handles of the record, and on a rising edge the registered one. -/
theorem mem_reachedBy {slot : Slot} {old new : Level} {targets : List Nat} {h : Nat} :
    h ∈ reachedBy slot old new targets ↔ h ∈ targets ∨ old = .low ∧ new = .high ∧ slot = .handler h := by
  unfold reachedBy
  split
  · split <;> grind
  all_goals simp

/-- R31: the record names each handle once. -/
theorem nodup_reachedBy {targets : List Nat} (h : targets.Nodup) (slot : Slot) (old new : Level) :
    (reachedBy slot old new targets).Nodup := by
  unfold reachedBy
  split
  · split
    · exact h
    · next hg => simpa using h.concat hg
  all_goals exact h

/-- Settles O45: the edge record after the change is `reachedBy`, and no other field but the line is written. -/
theorem risingEdgeReachesHandle : Obligations.RisingEdgeReachesHandle :=
  fun _ _ => ⟨rfl, fun _ => mem_reachedBy⟩

/-- Settles O58: `reset` begins at `LineLow`, and each line step is the one its position names. -/
theorem resetCountsLineSteps : Obligations.ResetCountsLineSteps := by
  refine ⟨fun s c hc hr => ?_, fun s c e x => ⟨fun h => ?_, fun h => ?_, fun h => ?_⟩⟩
  · rw [startMove_idle hr, State.caller_setCaller_self hc]
    exact ⟨rfl, rfl⟩
  all_goals rw [microStep, h]; rfl

/-! ## What every step keeps -/

/-- R13: what the model's bookkeeping, the issue of a request, every micro-step, the environment's moves and the
notifier's keep, every step keeps, however many micro-steps it takes. -/
theorem step_keeps {P : State → Prop}
    (book : ∀ s a m k, P s → P { s with active := a, inputs := m, ticks := k })
    (start : ∀ s c i, P s → P (startMove c i s)) (micro : ∀ e c x s, P s → P (microStep e c x s))
    (busy : ∀ s l, P s → P (s.driveBusy l)) (answer : ∀ s a, P s → P (s.pushAnswer a))
    (invoke : ∀ s h, P s → P (s.invoke h)) (h : P s) (hs : step s = .next t) : P t :=
  step_induction book (fun _ _ _ => exec_induction start micro) start (fun _ _ _ _ h _ _ => micro _ _ _ _ h)
    (fun _ _ _ _ h _ _ => runSteps_induction (P := P) (fun x r => micro _ _ x r) _ h) busy answer invoke h hs

/-- Settles O10: a context's steps are local, and no other move writes a buffer. -/
theorem stepKeepsBufferSizes : Obligations.StepKeepsBufferSizes := by
  intro s t h hs
  refine step_keeps (P := Memory.wf) ?bookkeeping ?start ?micro ?busyLine ?answer ?invoke h hs
  case start => exact fun _ _ _ h => (issue_local ..).memory_wf h
  case micro => exact fun _ _ _ _ h => (microStep_local ..).memory_wf h
  case bookkeeping => exact fun _ _ _ _ h => h
  case busyLine | answer => exact fun _ _ h => h
  case invoke =>
    intro r g h
    simpa only [Memory.wf, State.invoke_cfg, State.invoke_outBuf, State.invoke_inBuf] using h

/-- No request begins at a position that holds `excl`. -/
theorem Expansion.sound.start_holdsExcl (h : e.sound) : e.start.holdsExcl = false := by
  obtain ⟨hs | hs | hs, -⟩ | hs := h <;> rw [hs] <;> rfl

/-- Exclusivity rests on `excl` and the contexts alone. -/
theorem State.exclusive.of_eq (h : s.exclusive) (he : t.excl = s.excl) (hc : t.callers = s.callers) :
    t.exclusive := by
  have hh d : t.holds d = s.holds d := by rw [State.holds, State.caller_congr hc]; rfl
  simpa only [State.exclusive, he, hh] using h

/-- R17: the issue of a request keeps exclusivity. -/
theorem startMove_exclusive (h : s.exclusive) (c : Nat) (i : Instr) : (startMove c i s).exclusive := by
  obtain hm | ⟨-, hm⟩ := startMove_cases c i s <;> rw [hm]
  · exact h
  · refine h.of_local (.setCaller ..) rfl fun hh => ?_
    obtain hc | hc := Nat.lt_or_ge c s.callers.length
    · rw [State.holds, State.caller_setCaller_self hc] at hh
      simp [(expansionOf_sound s.cfg i).start_holdsExcl] at hh
    · rwa [State.setCaller_absent hc] at hh

/-- Settles O11: only a context's own steps acquire and release, and no other move touches `excl` or a position. -/
theorem stepKeepsExclusivity : Obligations.StepKeepsExclusivity := by
  intro s t h hs
  refine step_keeps (P := State.exclusive) ?bookkeeping ?start ?micro ?busyLine ?answer ?invoke h hs
  case start => exact fun _ _ _ h => startMove_exclusive h ..
  case micro => exact fun _ _ _ _ h => microStep_exclusive h _
  case bookkeeping => exact fun _ _ _ _ h => h
  case busyLine | answer => exact fun _ _ h => h
  case invoke => exact fun r g h => h.of_eq (r.invoke_excl g) (r.invoke_callers g)

/-- R17: the issue of a request keeps the handles sound. -/
theorem startMove_handlesSound (h : s.handlesSound) (c : Nat) (i : Instr) : (startMove c i s).handlesSound := by
  obtain hm | ⟨-, hm⟩ := startMove_cases c i s <;> rw [hm]
  · exact h
  · exact h.setCaller (.inr rfl)

/-- R31: an edge reaches only the handle of the slot, which was made. -/
theorem State.handlesSound.driveBusy (h : s.handlesSound) (l : Level) : (s.driveBusy l).handlesSound := by
  obtain ⟨hrec, hnodup, hslot, hwaits, hwoken⟩ := h
  refine ⟨fun g hg => ?_, nodup_reachedBy hnodup .., hslot, hwaits, hwoken⟩
  obtain hg | ⟨-, -, hg⟩ := mem_reachedBy.mp hg
  · exact hrec g hg
  · exact hslot g hg

/-- R136: the handles after an invocation. -/
theorem State.invoke_handles (s : State) (h : Nat) :
    (s.invoke h).handles = if h ∈ s.edgeTargets then s.handles.modify h Handle.deliver else s.handles := by
  unfold State.invoke; split <;> rfl

/-- R136, R137: an invocation makes no handle, and marks the one it wakes as delivered. -/
theorem State.handlesSound.invoke (h : s.handlesSound) (g : Nat) : (s.invoke g).handlesSound := by
  obtain ⟨hrec, hnodup, hslot, hwaits, hwoken⟩ := h
  have hlen : (s.invoke g).handles.length = s.handles.length := by rw [State.invoke_handles]; split <;> simp
  refine ⟨?_, by rwa [State.invoke_edgeTargets], ?_, ?_, fun w hw hsig => ?_⟩
  · rwa [State.invoke_edgeTargets, hlen]
  · rwa [State.invoke_slot, hlen]
  · simpa only [State.caller_invoke, hlen] using hwaits
  · rw [State.invoke_handles] at hw
    split at hw
    · obtain ⟨k, hk⟩ := List.mem_iff_getElem?.mp hw
      rw [List.getElem?_modify] at hk
      obtain ⟨v, hv, rfl⟩ := Option.map_eq_some_iff.mp hk
      by_cases hgk : g = k
      · rw [if_pos hgk]; rfl
      · rw [if_neg hgk] at hsig ⊢
        exact hwoken v (List.mem_of_getElem? hv) hsig
    · exact hwoken w hw hsig

/-- Settles O13: the wait and the slot name the handle just made, an edge reaches the slot's, and a handle is signalled
only as it is delivered. -/
theorem stepKeepsHandlesSound : Obligations.StepKeepsHandlesSound := by
  intro s t h hs
  refine step_keeps (P := State.handlesSound) ?bookkeeping ?start ?micro ?busyLine ?answer ?invoke h hs
  case start => exact fun _ _ _ h => startMove_handlesSound h ..
  case micro => exact fun _ _ _ _ h => microStep_handlesSound h _
  case busyLine => exact fun _ l h => h.driveBusy l
  case invoke => exact fun _ g h => h.invoke g
  case bookkeeping => exact fun _ _ _ _ h => h
  case answer => exact fun _ _ h => h

/-! ## A context without `excl` -/

/-- The buffers, the slot and the handles are as before, and the trace has grown by the events `es`. -/
structure OffBus (s t : State) (es : List Event) : Prop where
  outBuf : t.outBuf = s.outBuf
  inBuf : t.inBuf = s.inBuf
  slot : t.slot = s.slot
  handles : t.handles = s.handles
  trace : t.trace = s.trace ++ es

theorem OffBus.setCaller (s : State) (c : Nat) (u : Caller) : OffBus s (s.setCaller c u) [] :=
  ⟨rfl, rfl, rfl, rfl, (List.append_nil _).symm⟩

/-- An event of the reset line, of a delay or of a return. -/
def Event.offBus : Event → Bool
  | .line _ | .delay _ | .result _ _ _ => true
  | .xfer _ _ _ | .sample _ | .register _ | .deregister => false

theorem Event.offBus_iff (ev : Event) :
    ev.offBus = true ↔ (∃ l, ev = .line l) ∨ (∃ ms, ev = .delay ms) ∨ ∃ d r v, ev = .result d r v := by
  cases ev <;> simp [Event.offBus]

/-- R22, R69: a context that does not hold `excl` is at a position that touches at most `excl` itself, the reset line
and the power tracker, and records at most an event of the line, of a delay or of its return. -/
theorem microStep_offBus (e : Expansion) (h : s.holds c = false) (x : WaitExit) :
    ∃ es, OffBus s (microStep e c x s) es ∧ ∀ ev ∈ es, ev.offBus = true := by
  have hset (u : Caller) : ∃ es, OffBus s (s.setCaller c u) es ∧ ∀ ev ∈ es, ev.offBus = true :=
    ⟨[], .setCaller .., by simp⟩
  unfold State.holds at h
  unfold microStep
  cases hp : (s.caller c).pos with
  | idle => exact ⟨[], ⟨rfl, rfl, rfl, rfl, (List.append_nil _).symm⟩, by simp⟩
  | validate => dsimp only [stepValidate]; split <;> exact hset _
  | sub => exact hset _
  | acquire =>
    dsimp only
    cases hx : s.excl
    · rw [stepAcquire_free hx]
      exact ⟨[], ⟨rfl, rfl, rfl, rfl, (List.append_nil _).symm⟩, by simp⟩
    · rw [stepAcquire_held (State.exists_of_pos (by simp [hp])) hx]
      exact hset _
  | lineLow | hold | lineHigh | ret => exact ⟨[_], ⟨rfl, rfl, rfl, rfl, rfl⟩, by simp [Event.offBus]⟩
  | check | fill | waitSample | waitRegister | waitSuspend | waitDeregister | xfer | deliver | release =>
    simp [hp, Pos.holdsExcl] at h

/-- Settles O12: `microStep_offBus`, its events spelled out. -/
theorem buffersChangeOnlyUnderExclusivity : Obligations.BuffersChangeOnlyUnderExclusivity := by
  intro s e c x h
  obtain ⟨es, hs, hes⟩ := microStep_offBus e h x
  exact ⟨hs.outBuf, hs.inBuf, hs.slot, hs.handles, es, hs.trace, fun ev hev => ev.offBus_iff.mp (hes ev hev)⟩

/-! ## A request comes to rest -/

/-- Settles O50: an issued request is placed within its expansion, and the budget covers the steps it has left. -/
theorem execComesToRest : Obligations.ExecComesToRest := by
  intro s i h
  have ⟨_, hc, _⟩ := h
  obtain ⟨hplaced, hbudget⟩ := (expansionOf_sound s.cfg i).issued (asRequest i)
  rw [exec_eq, runRequest_accepting h]
  refine ⟨_, rfl, (runSteps_settled ?_ ?_).1⟩ <;> rwa [State.caller_setCaller_self hc]

/-! ## What an instruction leaves unchanged -/

/-- `exec` is local to the active context. -/
theorem exec_local (he : exec i s = .next t) : Local s.active s t := by
  rw [exec_eq] at he
  obtain ⟨-, h⟩ | ⟨-, r, h, hl⟩ := runRequest_cases (asRequest i) (expansionOf s.cfg i) s <;>
    rw [h] at he <;> cases he
  exact hl

/-- What the issue of an instruction and every micro-step within its own expansion keep, `exec` keeps. -/
theorem exec_keeps {P : State → Prop} (start : P s → P (startMove s.active i s))
    (micro : ∀ x r, P r → P (microStep (expansionOf s.cfg i) s.active x r)) (h : P s) (he : exec i s = .next t) :
    P t := by
  obtain ⟨-, h'⟩ | h' | ⟨-, h'⟩ := exec_cases i s <;> rw [h'] at he <;> cases he
  · exact h
  · exact runSteps_induction (P := P) micro _ (start h)

theorem startMove_outBuf (c : Nat) (i : Instr) (s : State) : (startMove c i s).outBuf = s.outBuf := by
  obtain h | ⟨-, h⟩ := startMove_cases c i s <;> rw [h]; rfl

theorem startMove_inBuf (c : Nat) (i : Instr) (s : State) : (startMove c i s).inBuf = s.inBuf := by
  obtain h | ⟨-, h⟩ := startMove_cases c i s <;> rw [h]; rfl

/-- R114: `exec` changes no slot of `out` past the words of the instruction's frames. -/
theorem exec_outBuf {j : Nat} (hj : ∀ f ∈ (expansionOf s.cfg i).frames, f.words.length ≤ j)
    (he : exec i s = .next t) : t.outBuf[j]? = s.outBuf[j]? :=
  exec_keeps (P := fun r => r.outBuf[j]? = s.outBuf[j]?) (fun _ => by rw [startMove_outBuf])
    (fun x _ h => (microStep_outBuf hj x).trans h) rfl he

/-- R64: `exec` changes no slot of `in` past the lengths of the instruction's frames. -/
theorem exec_inBuf {j : Nat} (hj : ∀ f ∈ (expansionOf s.cfg i).frames, f.len ≤ j) (he : exec i s = .next t) :
    t.inBuf[j]? = s.inBuf[j]? :=
  exec_keeps (P := fun r => r.inBuf[j]? = s.inBuf[j]?) (fun _ => by rw [startMove_inBuf])
    (fun x _ h => (microStep_inBuf hj x).trans h) rfl he

/-- Only `reset` begins at the reset line. -/
theorem expansionOf_start_offLine (cfg : Config) (hi : i ≠ .reset) :
    (expansionOf cfg i).start.onLine = false ∧ (expansionOf cfg i).start ≠ .idle := by
  cases i
  case reset => exact absurd rfl hi
  all_goals exact ⟨rfl, Pos.noConfusion⟩

/-- The record of an issued request's run away from the reset line, at its start. -/
theorem OffLine.issued (hc : c < s.callers.length) (hi : i ≠ .reset) :
    OffLine (expansionOf s.cfg i) c s.resetLevel s.power
      (s.setCaller c { Caller.idle with req := some (asRequest i), pos := (expansionOf s.cfg i).start }) := by
  obtain ⟨hline, hidle⟩ := expansionOf_start_offLine s.cfg hi
  constructor <;> simp [hc, hline, hidle]

/-- R186, R216: only `reset` changes the reset line, and a request whose effect is `keeps` leaves the tracker alone. -/
theorem exec_offLine (hi : i ≠ .reset) (he : exec i s = .next t) :
    t.resetLevel = s.resetLevel ∧ ((expansionOf s.cfg i).power = .keeps → t.power = s.power) := by
  obtain ⟨-, h'⟩ | h' | ⟨hr, h'⟩ := exec_cases i s <;> rw [h'] at he <;> cases he
  · exact ⟨rfl, fun _ => rfl⟩
  rw [startMove_idle hr]
  obtain hc | hc := Nat.lt_or_ge s.active s.callers.length
  · have h := runSteps_offLine (expansionOf s.cfg i).budget (OffLine.issued hc hi)
    refine ⟨h.line, fun hk => h.power.trans ?_⟩
    rw [hk]
    exact ite_self _
  · rw [State.setCaller_absent hc, runSteps_idle (by rw [State.caller_absent hc]; rfl)]
    exact ⟨rfl, fun _ => rfl⟩

/-- Settles O51: `exec` is local to its context, writes the buffers only within its frames, and only `reset` and the
power effects reach the reset line and the tracker. -/
theorem execFrame : Obligations.ExecFrame := by
  intro s t i he
  have hl := exec_local he
  exact ⟨hl.cfg, hl.busyLevel, hl.edgeTargets, hl.inputs, hl.active, hl.ticks, hl.length, hl.others, hl.trace,
    hl.handles, hl.answers, fun _ hj => exec_outBuf hj he, fun _ hj => exec_inBuf hj he,
    fun hi => (exec_offLine hi he).1, fun hi => (exec_offLine hi he).2⟩

/-! ## A wait that an edge wakes -/

/-- R114, R129, R130: the shared state once frame `f` has been filled and its wait on a busy line registered. -/
def State.awaiting (s : State) (f : Frame) : State :=
  { s with
    outBuf := memWrite s.outBuf 0 f.words
    excl := true
    slot := .handler s.handles.length
    handles := s.handles ++ [⟨false, false⟩]
    trace := s.trace ++ [.sample .low, .register s.handles.length] }

/-- R31, R136: the shared state of `State.awaiting` after a rising edge and the invocation of the handle. -/
def State.awoken (s : State) (f : Frame) : State :=
  { s.awaiting f with
    busyLevel := .high
    edgeTargets := s.edgeTargets ++ [s.handles.length]
    handles := s.handles ++ [⟨true, true⟩] }

/-- A context at the wait for handle `h`. -/
def Caller.waitFor (u : Caller) (h : Nat) : Caller := { u with pos := .waitSuspend, hnd := some h }

/-- A context whose command waits for handle `h`. -/
def Caller.commandWait (op : Word) (h : Nat) : Caller :=
  Caller.waitFor { Caller.idle with req := some (.sendCommand op) } h

/-- `s` with `m` as its queue of inputs. -/
def State.queue (s : State) (m : List Move) : State := { s with inputs := m }

/-- R130: `WaitRegister`, as a micro-step. -/
theorem microStep_waitRegister (hc : c < s.callers.length) (hpos : u.pos = .waitRegister) (x : WaitExit) :
    microStep e c x (s.setCaller c u) = s.registerHandle.setCaller c (u.waitFor s.handles.length) := by
  simp only [microStep, State.caller_setCaller_self hc, hpos, stepWaitRegister]
  simp [State.setCaller, State.registerHandle, State.log, Caller.waitFor]

/-- R129, R130: from the fill of a frame to its wait, on a busy line. -/
theorem runSteps_toWait {f : Frame} (hc : c < s.callers.length) (hf : e.frame u = some f) (hpos : u.pos = .fill)
    (hbusy : s.busyLevel = .low) :
    runSteps e c 3 (State.setCaller { s with excl := true } c u) =
      (s.awaiting f).setCaller c (u.waitFor s.handles.length) := by
  let t : State := { s with excl := true, outBuf := memWrite s.outBuf 0 f.words }
  have hline : ¬ t.lineIdle = true := by simp [State.lineIdle, t, hbusy, Config.busyIdleLevel]
  rw [runSteps_succ, microStep_fill (by exact hc) hpos hf, runSteps_succ,
    microStep_waitSample (s := t) (by exact hc) rfl, if_neg hline, runSteps_succ,
    microStep_waitRegister (s := t.sampleBusy) (by exact hc) rfl]
  simp [runSteps, State.awaiting, Caller.waitFor, State.registerHandle, State.sampleBusy, State.log, State.setCaller, t,
    hbusy]

/-- R211: a context at the wait it has just registered is blocked. -/
theorem awaiting_blocked (hc : c < s.callers.length) (hbusy : s.busyLevel = .low) (f : Frame) (u : Caller) :
    ((s.awaiting f).setCaller c (u.waitFor s.handles.length)).blocked c = true := by
  have hu := State.caller_setCaller_self (s := s.awaiting f) hc (u.waitFor s.handles.length)
  rw [State.blocked, hu]
  simp [Caller.waitFor, State.awaiting, State.woken, State.signalled, State.lineIdle, hbusy, Config.busyIdleLevel]

/-- R139: on a busy line a request whose first primitive fits stops at the wait of its first frame. -/
theorem exec_toWait {p : Primitive} {ps : List Primitive} {f : Frame} {fs : List Frame} (h : s.accepting)
    (hexcl : s.excl = false) (hbusy : s.busyLevel = .low) (hi : (expansionOf s.cfg i).begins)
    (hps : (expansionOf s.cfg i).prims = p :: ps) (hfit : p.need ≤ s.cfg.capacity) (hp : p.frames = f :: fs) :
    exec i s =
      .next ((s.awaiting f).setCaller s.active
        (Caller.waitFor { Caller.idle with req := some (asRequest i) } s.handles.length)) := by
  have ⟨_, hc, _⟩ := h
  let v : Caller := { Caller.idle with req := some (asRequest i), pos := .acquire }
  have hv : (expansionOf s.cfg i).primitive v = some p := by simp [Expansion.primitive, v, hps, Caller.idle]
  have hf : (expansionOf s.cfg i).frame { v with pos := .fill, k := 0 } = some f := by
    have : (expansionOf s.cfg i).primitive { v with pos := .fill, k := 0 } = some p := hv
    simp [Expansion.frame, this, hp]
  obtain ⟨m, hm⟩ := runSteps_toAcquire (asRequest i) [] ps p hi hps hc hexcl (by simp) (by simp)
    ⟨Nat.zero_le _, by simp⟩
  refine exec_reaches (m := m + 2 + 3) h ?_ (runSteps_blocked (awaiting_blocked hc hbusy f _))
  rw [runSteps_add, runSteps_add, hm]
  exact (congrArg _ (runSteps_enter (u := v) hc hv rfl hexcl hfit)).trans (runSteps_toWait hc hf rfl hbusy)

/-- R135, R136: an invocation of a handle an edge has reached. -/
theorem State.invoke_of_mem {h : Nat} (hm : h ∈ s.edgeTargets) :
    s.invoke h = { s with handles := s.handles.modify h Handle.deliver } := if_pos hm

/-- R31, R136: a rising edge reaches the handle of the wait, and its invocation delivers and signals it. -/
theorem awaiting_awoken (hs : s.handlesSound) (hbusy : s.busyLevel = .low) (f : Frame) (c : Nat) (u : Caller) :
    (((s.awaiting f).setCaller c u).driveBusy .high).invoke s.handles.length = (s.awoken f).setCaller c u := by
  obtain ⟨hrec, -⟩ := hs
  have hfresh : s.handles.length ∉ s.edgeTargets := fun hm => Nat.lt_irrefl _ (hrec _ hm)
  have hedge : (((s.awaiting f).setCaller c u).driveBusy .high).edgeTargets =
      s.edgeTargets ++ [s.handles.length] := by
    simp [State.awaiting, reachedBy, hbusy, hfresh]
  have hdeliver : (((s.awaiting f).setCaller c u).driveBusy .high).handles.modify s.handles.length Handle.deliver =
      s.handles ++ [⟨true, true⟩] := by
    simp [State.awaiting, List.modify_eq_take_cons_drop, Handle.deliver]
  rw [State.invoke_of_mem (hedge ▸ by simp), hdeliver]
  rw [State.driveBusy_edgeTargets] at hedge
  simp only [State.driveBusy, hedge]
  rfl

/-- R132, R133: the signal exit, then the deregistration. -/
theorem runSteps_woken {h : Nat} (hc : c < s.callers.length) (hw : s.signalled h = true) :
    runSteps e c 2 (s.setCaller c (u.waitFor h)) = s.deregister.setCaller c { u with hnd := none, pos := .xfer } := by
  have hx : (s.setCaller c (u.waitFor h)).firstExit c = .signal := by
    rw [State.firstExit, State.caller_setCaller_self hc]; exact if_pos hw
  have h1 : microStep e c .signal (s.setCaller c (u.waitFor h)) =
      s.setCaller c { u.waitFor h with pos := .waitDeregister } := by
    simp only [microStep, State.caller_setCaller_self hc, stepWaitSuspend, State.setCaller_setCaller]
    exact if_pos hw
  rw [runSteps_succ, hx, h1, runSteps_succ]
  simp only [runSteps, microStep, State.caller_setCaller_self hc, stepWaitDeregister]
  simp [State.setCaller, State.deregister, State.log, Caller.waitFor]

/-- R27: `Xfer` with an answer that succeeds, as a micro-step. -/
theorem microStep_xfer {p : Primitive} {f : Frame} {a : Answer} {as : List Answer} (hc : c < s.callers.length)
    (hpos : u.pos = .xfer) (hp : e.primitive u = some p) (hf : e.frame u = some f) (ha : s.answers = a :: as)
    (hok : a.ok = true) (x : WaitExit) :
    microStep e c x (s.setCaller c u) =
      State.setCaller { s.transfer f.len a with answers := as } c
        { u with pos := (p.afterFrame u.k).1, k := (p.afterFrame u.k).2 } := by
  simp only [microStep, State.caller_setCaller_self hc, hpos, stepXfer, hp, hf, State.setCaller_answers, ha, hok,
    if_true]
  simp [State.setCaller, State.transfer, State.log]

/-- R103: the release, as a micro-step. -/
theorem microStep_release {r : Status} (hc : c < s.callers.length) (hpos : u.pos = .release r) (x : WaitExit) :
    microStep e c x (s.setCaller c u) =
      s.releaseExcl.setCaller c
        { u with
          pos := (afterSubStep e.prims.length u.sub r).1
          sub := (afterSubStep e.prims.length u.sub r).2
          k := 0
          st := r } := by
  simp only [microStep, State.caller_setCaller_self hc, hpos, stepRelease, finishPrimitive, State.caller_releaseExcl]
  simp [State.setCaller, State.releaseExcl]

/-- R101, R132, R133: a command whose wait is signalled deregisters, transfers its frame and returns `ok`. -/
theorem runSteps_sendCommand_woken {h : Nat} {a : Answer} {as : List Answer} (op : Word)
    (hc : s.active < s.callers.length) (hw : s.signalled h = true) (ha : s.answers = a :: as) (hok : a.ok = true) :
    runSteps (expandSendCommand op) s.active 5 (s.setCaller s.active (.commandWait op h)) =
      returnOk
        { s.deregister.transfer 2 a with
          answers := as
          excl := false
          power := (rawPowerEffect op).apply .ok s.power } none := by
  let u : Caller := { Caller.idle with req := some (.sendCommand op) }
  let r : State := { s.deregister.transfer 2 a with answers := as }
  have hxfer := microStep_xfer (e := expandSendCommand op) (s := s.deregister) (u := { u with pos := .xfer })
    (p := .sendCommand op) (f := cmdFrame op) hc rfl rfl rfl ha hok
  have hrelease := microStep_release (e := expandSendCommand op) (s := r) (u := { u with pos := .release .ok }) hc rfl
  have hreturn := microStep_return (e := expandSendCommand op) (s := r.releaseExcl) (u := { u with pos := .ret .ok })
    rfl rfl rfl hc rfl rfl
  rw [Caller.commandWait, runSteps_add _ _ 2 3, runSteps_woken hc hw, runSteps_succ]
  refine (congrArg _ (hxfer _)).trans ?_
  rw [runSteps_succ]
  exact (congrArg _ (hrelease _)).trans (hreturn _)

/-- R31, R135, R139: a command on a busy line, the rising edge and the handle's invocation, as three steps. -/
theorem core_run_awoken (h : s.accepting) (hexcl : s.excl = false) (hbusy : s.busyLevel = .low) (hs : s.handlesSound)
    (op : Word) (rest : List Move) (k : Nat) :
    Host.Core.run Sys2Proof.core (k + 3)
        (s.queue (.request s.active (.sendCommand op) :: .busyLine .high :: .invoke s.handles.length :: rest)) =
      Host.Core.run Sys2Proof.core k
        (((s.queue rest).awoken (cmdFrame op)).setCaller s.active (.commandWait op s.handles.length)) := by
  have ⟨hcap, _⟩ := h
  have hrequest (m : List Move) : step (s.queue (.request s.active (.sendCommand op) :: m)) =
      .next (((s.queue m).awaiting (cmdFrame op)).setCaller s.active (.commandWait op s.handles.length)) := by
    refine (step_of_input (by exact hcap) rfl).trans ?_
    exact exec_toWait (s := s.queue m) (i := .sendCommand op) (p := .sendCommand op) h hexcl hbusy
      (expansionOf_begins _ (by simp) (by simp)) rfl hcap rfl
  have hedge (m : List Move) (u : Caller) :
      step (((s.queue (.busyLine .high :: m)).awaiting (cmdFrame op)).setCaller s.active u) =
        .next ((((s.queue m).awaiting (cmdFrame op)).setCaller s.active u).driveBusy .high) :=
    step_of_input (m := .busyLine .high) (by exact hcap) rfl
  have hinvoke (m : List Move) (u : Caller) :
      step ((((s.queue (.invoke s.handles.length :: m)).awaiting (cmdFrame op)).setCaller s.active u).driveBusy .high) =
        .next (((s.queue m).awoken (cmdFrame op)).setCaller s.active u) := by
    refine (step_of_input (by exact hcap) rfl).trans ?_
    exact congrArg _ (awaiting_awoken (s := s.queue m) hs hbusy ..)
  rw [core_run_next (hrequest _), core_run_next (hedge ..), core_run_next (hinvoke ..)]

/-- R132, R133: the run of a command whose wait is signalled, as a step. -/
theorem step_sendCommand_woken {h : Nat} {a : Answer} {as : List Answer} {rest : List Move} (op : Word)
    (hcap : 2 ≤ s.cfg.capacity) (hc : s.active < s.callers.length) (hw : s.signalled h = true)
    (ha : s.answers = a :: as) (hok : a.ok = true) (hin : s.inputs = .run s.active :: rest) :
    step (s.setCaller s.active (.commandWait op h)) =
      .next (returnOk
        { s.deregister.transfer 2 a with
          inputs := rest
          answers := as
          excl := false
          power := (rawPowerEffect op).apply .ok s.power } none) := by
  let r : State := (s.queue rest).setCaller s.active (.commandWait op h)
  have hu : r.caller s.active = .commandWait op h := State.caller_setCaller_self (s := s.queue rest) hc _
  have hfits : overruns (expandSendCommand op) s.active r = false := by
    rw [overruns, hu]
    exact Bool.and_eq_false_iff.mpr (.inr (decide_eq_false (Nat.not_lt.mpr hcap)))
  have hrun := runSteps_sendCommand_woken (s := s.queue rest) op hc hw ha hok
  refine (step_of_input (by exact hcap) (by exact hin)).trans ?_
  refine (runMove_running (i := .sendCommand op) (congrArg Caller.req hu) hfits).trans (congrArg _ ?_)
  refine runSteps_of_idle hrun (returnWith_idle rfl (by exact hc) ..) ?_
  show 5 ≤ 16
  decide

/-- Settles O46: the command stops at its wait, the edge and the invocation signal its handle, and the run of the
context wakes by it. -/
theorem signalledWaitCompletes : Obligations.SignalledWaitCompletes := by
  intro s op a as h hexcl hbusy ⟨hout, _⟩ hs ha hok
  have ⟨hcap, hc, _⟩ := h
  let r : State := (s.queue [.run s.active]).awoken (cmdFrame op)
  have hsignalled : r.signalled s.handles.length = true := by simp [r, State.awoken, State.queue, State.signalled]
  have hlast := step_sendCommand_woken (s := r) op hcap hc hsignalled ha hok rfl
  refine ⟨_, response a.words s.draws 2,
    (core_run_awoken h hexcl hbusy hs op _ 1).trans (core_run_next hlast 0), ?_, rfl, rfl, rfl, rfl, ?_⟩
  · have hsent : memRead (memWrite s.outBuf 0 [0x6000, op]) 0 2 = [0x6000, op] :=
      memRead_memWrite (ws := [0x6000, op]) (hout ▸ hcap)
    simpa [returnOk, returnWith, r, State.awoken, State.awaiting, State.queue, hok, cmdFrame, preambleWriteCommand]
      using hsent
  · exact returnWith_idle rfl (by exact hc) ..

end Sys2Proof.Machine
end

section
/-! Proofs of the statements of 20_memory.md: no step passes the buffers' end (O14), the race of two contexts for `excl`
(O47), and text up to its terminator (O55). -/

namespace Sys2Proof.Machine

variable {s t : State} {c : Nat} {e : Expansion}

/-! ## The capacity check guards the buffers -/

/-- R104: fitting the buffers rests on the configuration and the contexts alone. -/
theorem State.fits.of_eq (h : s.fits) (hcfg : t.cfg = s.cfg) (hc : t.callers = s.callers) : t.fits := by
  intro d j hj
  rw [State.caller_congr hc] at hj
  simpa only [overruns, State.caller_congr hc, hcfg] using h d j hj

/-- R17, R104: a request begins before any capacity check. -/
theorem startMove_fits (h : s.fits) (c : Nat) (i : Instr) : (startMove c i s).fits := by
  obtain hm | ⟨-, hm⟩ := startMove_cases c i s <;> rw [hm]
  · exact h
  obtain hc | hc := Nat.lt_or_ge c s.callers.length
  · intro d j hj
    by_cases hd : d = c
    · subst hd
      rw [State.caller_setCaller_self hc, Option.some.injEq] at hj
      subst hj
      rw [State.setCaller_cfg, expansionOf_asRequest]
      exact (expansionOf_sound s.cfg i).issued_overruns hc _
    · rw [(Local.setCaller c s _).overruns hd]
      rw [State.caller_setCaller_other _ (Ne.symm hd)] at hj
      exact h d j hj
  · rwa [State.setCaller_absent hc]

/-- R104: a request issued and run keeps every context within the buffers. -/
theorem exec_fits {i : Instr} (h : s.fits) (he : exec i s = .next t) : t.fits := by
  obtain ⟨-, h'⟩ | h' | ⟨hr, h'⟩ := exec_cases i s <;> rw [h'] at he <;> cases he
  · exact h
  have hstart := startMove_fits h s.active i
  rw [startMove_idle hr] at hstart ⊢
  obtain hc | hc := Nat.lt_or_ge s.active s.callers.length
  · have hrun := runSteps_fits (expansionOf s.cfg i).budget hstart
      (congrArg Caller.req (State.caller_setCaller_self hc _))
    rwa [State.setCaller_cfg, expansionOf_asRequest] at hrun
  · rw [State.setCaller_absent hc, runSteps_idle (congrArg Caller.pos (State.caller_absent hc))]
    exact h

/-- R47, R104: every step keeps every context within the buffers. -/
theorem step_fits (h : s.fits) (hs : step s = .next t) : t.fits := by
  refine step_induction (P := State.fits) ?bookkeeping ?execs ?start ?micro ?runs ?busyLine ?answer ?invoke h hs
  case execs => exact fun _ _ _ h he => exec_fits h he
  case start => exact fun _ c i h => startMove_fits h c i
  case micro => exact fun _ _ _ _ h hr _ => microStep_fits h hr _
  case runs => exact fun _ _ _ _ h hr _ => runSteps_fits _ h hr
  case bookkeeping => exact fun _ _ _ _ h => h
  case busyLine | answer => exact fun _ _ h => h
  case invoke => exact fun r g h => h.of_eq (r.invoke_cfg g) (r.invoke_callers g)

/-- R47, R211: a move faults only on a context that overruns the buffers. -/
theorem applyMove_no_fault (h : s.fits) (m : Move) (r : Fault) : applyMove m s ≠ .fault r := by
  cases m with
  | request c i => exact exec_no_fault _ _ _
  | line text =>
    cases hd : decodeLine text with
    | none => simp [applyMove_line_unknown hd]
    | some a => rw [applyMove_line hd]; exact exec_no_fault _ _ _
  | frame c ws =>
    cases hd : decodeFrame ws with
    | error e => simp [applyMove_frame_unknown hd]
    | ok i => rw [applyMove_frame hd]; exact exec_no_fault _ _ _
  | advance c x =>
    cases hr : (s.caller c).req with
    | none => simp [applyMove, advanceMove_idle hr]
    | some i => simp [applyMove, advanceMove_running hr (h c i hr)]
  | run c =>
    cases hr : (s.caller c).req with
    | none => simp [applyMove, runMove_idle hr]
    | some i => simp [applyMove, runMove_running hr (h c i hr)]
  | start | busyLine | answer | invoke => simp [applyMove]

/-- Taking the next move keeps every context within the buffers. -/
theorem takeMove_fits (h : s.fits) : (takeMove s).2.fits := by
  unfold takeMove
  split <;> exact h

/-- R47, R211: a step faults only where a context overruns the buffers. -/
theorem step_no_fault (h : s.fits) (r : Fault) : step s ≠ .fault r := by
  unfold step
  split
  · simp
  · exact applyMove_no_fault (takeMove_fits h) _ r

/-- Settles O14: no position past the capacity check is reached but through the check. -/
theorem capacityCheckGuards : Obligations.CapacityCheckGuards :=
  fun _ h => ⟨step_no_fault h, fun _ hs => step_fits h hs⟩

/-! ## Two contexts at `Acquire` -/

/-- R102: `Acquire` with `excl` free, as a micro-step. -/
theorem microStep_acquire_free (hpos : (s.caller c).pos = .acquire) (hexcl : s.excl = false) (x : WaitExit) :
    microStep e c x s = State.setCaller { s with excl := true } c { s.caller c with pos := .check } := by
  rw [microStep, hpos]
  exact stepAcquire_free hexcl

/-- R102: `Acquire` with `excl` held, as a micro-step. -/
theorem microStep_acquire_held (hc : c < s.callers.length) (hpos : (s.caller c).pos = .acquire)
    (hexcl : s.excl = true) (x : WaitExit) :
    microStep e c x s =
      s.setCaller c { s.caller c with pos := .ret .busy, k := 0, st := .busy, cause := some .exclHeld } := by
  rw [microStep, hpos]
  exact stepAcquire_held hc hexcl

/-- R70, R102: a step by `Acquire` with `excl` free takes it. -/
theorem step_acquire_free {i : Instr} {x : WaitExit} {rest : List Move} (hcap : 2 ≤ s.cfg.capacity)
    (hin : s.inputs = .advance c x :: rest) (hr : (s.caller c).req = some i) (hpos : (s.caller c).pos = .acquire)
    (hexcl : s.excl = false) :
    step s = .next (State.setCaller { s with excl := true, inputs := rest } c { s.caller c with pos := .check }) :=
  (step_advance hcap hin hr (overruns_of_pos (by rw [hpos]; rfl))).trans
    (congrArg _ (microStep_acquire_free (s := { s with inputs := rest }) hpos hexcl x))

/-- R70, R102: a step by `Acquire` with `excl` held turns to the return of `busy`. -/
theorem step_acquire_held {i : Instr} {x : WaitExit} {rest : List Move} (hcap : 2 ≤ s.cfg.capacity)
    (hc : c < s.callers.length) (hin : s.inputs = .advance c x :: rest) (hr : (s.caller c).req = some i)
    (hpos : (s.caller c).pos = .acquire) (hexcl : s.excl = true) :
    step s = .next (State.setCaller { s with inputs := rest } c
      { s.caller c with pos := .ret .busy, k := 0, st := .busy, cause := some .exclHeld }) :=
  (step_advance hcap hin hr (overruns_of_pos (by rw [hpos]; rfl))).trans
    (congrArg _ (microStep_acquire_held (s := { s with inputs := rest }) hc hpos hexcl x))

/-- Settles O47: the first `Acquire` finds `excl` free and sets it, so the second finds it held. -/
theorem firstAcquirerWins : Obligations.FirstAcquirerWins := by
  intro s c d i j x y rest hcap hcd hc hd hci hdj hcpos hdpos hexcl hin
  let t : State := State.setCaller { s with excl := true, inputs := .advance d y :: rest } c
    { s.caller c with pos := .check }
  have hdt : d < t.callers.length := by simpa [t] using hd
  have htc : t.caller c = { s.caller c with pos := .check } := State.caller_setCaller_self (by exact hc) _
  have htd : t.caller d = s.caller d := State.caller_setCaller_other _ hcd _
  have hfirst : step s = .next t := step_acquire_free hcap hin hci hcpos hexcl
  have hsecond := step_acquire_held (s := t) (x := y) hcap hdt rfl (htd ▸ hdj) (htd ▸ hdpos) rfl
  refine ⟨t, _, hfirst, hsecond, rfl, ?_, congrArg Caller.pos (State.caller_setCaller_self (by exact hdt) _)⟩
  rw [State.caller_setCaller_other _ hcd.symm]
  exact congrArg Caller.pos htc

/-! ## Text -/

/-- R55: a word of text is two bytes in the text byte order. -/
theorem textBytes_cons (o : ByteOrder) (w : Word) (ws : List Word) :
    textBytes o (w :: ws) =
      (if o = .lowByteFirst then w.extractLsb' 0 8 else w.extractLsb' 8 8) ::
        (if o = .lowByteFirst then w.extractLsb' 8 8 else w.extractLsb' 0 8) :: textBytes o ws := by
  cases o <;> rfl

/-- R55: word `j` of a text field is bytes `2j` and `2j + 1`. -/
theorem textBytes_getElem? (o : ByteOrder) {ws : List Word} {j : Nat} {w : Word} (h : ws[j]? = some w) :
    (textBytes o ws)[2 * j]? = some (if o = .lowByteFirst then w.extractLsb' 0 8 else w.extractLsb' 8 8) ∧
      (textBytes o ws)[2 * j + 1]? = some (if o = .lowByteFirst then w.extractLsb' 8 8 else w.extractLsb' 0 8) := by
  induction ws generalizing j with
  | nil => simp at h
  | cons v ws ih =>
    rw [textBytes_cons]
    cases j with
    | zero =>
      obtain rfl : v = w := by simpa using h
      exact ⟨rfl, rfl⟩
    | succ j => exact ih (by simpa using h)

@[simp] theorem textBytes_length (o : ByteOrder) (ws : List Word) : (textBytes o ws).length = 2 * ws.length := by
  induction ws with
  | nil => rfl
  | cons w ws ih => rw [textBytes_cons]; simp only [List.length_cons, ih]; omega

/-- R161: no terminator stands before the first. -/
theorem zero_notMem_upToTerminator (bs : List Byte) : (0 : Byte) ∉ upToTerminator bs := by
  fun_induction upToTerminator bs with
  | case1 => exact List.not_mem_nil
  | case2 => exact List.not_mem_nil
  | case3 b bs hb ih => exact fun hm => (List.mem_cons.mp hm).elim (Ne.symm hb) ih

/-- R161: the bytes up to the terminator are all of them, or a terminator follows. -/
theorem upToTerminator_cases (bs : List Byte) :
    upToTerminator bs = bs ∨ ∃ rest, bs = upToTerminator bs ++ 0 :: rest := by
  fun_induction upToTerminator bs with
  | case1 => exact .inl rfl
  | case2 bs => exact .inr ⟨bs, rfl⟩
  | case3 b bs hb ih =>
    obtain hall | ⟨rest, hrest⟩ := ih
    · exact .inl (congrArg _ hall)
    · exact .inr ⟨rest, congrArg _ hrest⟩

/-- Settles O55: two bytes for each word, cut at the first zero byte. -/
theorem textStopsAtTerminator : Obligations.TextStopsAtTerminator :=
  fun o ws => ⟨fun _ _ h => textBytes_getElem? o h, textBytes_length o ws, zero_notMem_upToTerminator _,
    upToTerminator_cases _⟩

end Sys2Proof.Machine
end

section
/-! Proofs of the statements of 30_encoding.md: the words and bytes of a frame and the decoder's answer for them (O1,
O2, O3), samples written out from the spec (O5), and the frame rows and `readData` run undisturbed (O17, O18, O22). -/

namespace Sys2Proof

variable {ws ds : List Word} {w : Word} {i : Instr}

/-! ## Words and bytes -/

/-- R53: a word is its two bytes, in either order. -/
theorem wordsOfBytes_bytesOfWord_append (o : ByteOrder) (w : Word) (bs : List Byte) :
    wordsOfBytes o (bytesOfWord o w ++ bs) = (wordsOfBytes o bs).map (w :: ·) := by
  have hw : w.extractLsb' 8 8 ++ w.extractLsb' 0 8 = w :=
    BitVec.extractLsb'_append_extractLsb'_eq_extractLsb' (by omega) |>.trans BitVec.extractLsb'_eq_self
  cases o <;> simp only [bytesOfWord, List.cons_append, List.nil_append, wordsOfBytes, wordOfBytes, hw]

/-- R53: words laid out as bytes read back, in either order. -/
@[simp] theorem wordsOfBytes_bytesOfWords (o : ByteOrder) (ws : List Word) :
    wordsOfBytes o (bytesOfWords o ws) = some ws := by
  induction ws with
  | nil => rfl
  | cons w ws ih => rw [bytesOfWords, wordsOfBytes_bytesOfWord_append, ih]; rfl

/-- R53: the bytes of words decode as the words do, in either order. -/
@[simp] theorem decodeBytes_bytesOfWords (o : ByteOrder) (ws : List Word) :
    decodeBytes o (bytesOfWords o ws) = decodeFrame ws := by
  simp [decodeBytes]

/-! ## The frames of the three preambles -/

/-- R81 CMD. -/
theorem decodeFrame_command (op : Word) : decodeFrame [preambleWriteCommand, op] = .ok (decodeCommand op) := rfl

/-- R96: a CMD frame of another length. -/
theorem decodeFrame_badCommandLength (h : ws.length ≠ 1) :
    decodeFrame (preambleWriteCommand :: ws) = .error .badCommandLength := by
  match ws with
  | [] => rfl
  | [_] => exact absurd rfl h
  | _ :: _ :: _ => rfl

/-- R81 PARAM. -/
theorem decodeFrame_param (p : Word) : decodeFrame [preambleWriteData, p] = .ok (.param p) := rfl

/-- R81 WDATA. -/
theorem decodeFrame_wdata (h : ds.length ≠ 1) : decodeFrame (preambleWriteData :: ds) = .ok (.wdata ds) := by
  match ds with
  | [] => rfl
  | [_] => exact absurd rfl h
  | _ :: _ :: _ => rfl

/-- R81, R63 RDATA: whatever its stale words are. -/
theorem decodeFrame_rdata (stale : List Word) :
    decodeFrame (preambleReadData :: Config.dummyWord :: stale) = .ok (.rdata stale.length) := rfl

/-- R81: an RDATA frame of one word. -/
theorem decodeFrame_truncatedRead : decodeFrame [preambleReadData] = .error .truncatedRead := rfl

/-- R81: an RDATA frame whose word 1 is not the dummy word. -/
theorem decodeFrame_badDummyWord (h : w ≠ Config.dummyWord) (stale : List Word) :
    decodeFrame (preambleReadData :: w :: stale) = .error (.badDummyWord w) := if_neg h

/-- R92: any other preamble. -/
theorem decodeFrame_unknownPreamble (hc : w ≠ preambleWriteCommand) (hd : w ≠ preambleWriteData)
    (hr : w ≠ preambleReadData) (ws : List Word) : decodeFrame (w :: ws) = .error (.unknownPreamble w) := by
  simp only [decodeFrame, if_neg hc, if_neg hd, if_neg hr]

/-- R81: a data write of one word is a PARAM, and of any other number of words a WDATA. -/
theorem decodeFrame_dataWrite_cases (h : decodeFrame (preambleWriteData :: ds) = .ok i) :
    (∃ p, ds = [p] ∧ i = .param p) ∨ ds.length ≠ 1 ∧ i = .wdata ds := by
  by_cases hlen : ds.length = 1
  · obtain ⟨p, rfl⟩ := List.length_eq_one_iff.mp hlen
    exact .inl ⟨p, rfl, (Except.ok.inj h).symm⟩
  · rw [decodeFrame_wdata hlen] at h
    exact .inr ⟨hlen, (Except.ok.inj h).symm⟩

/-- R81: a data read has the dummy word after its preamble. -/
theorem decodeFrame_dataRead_cases (h : decodeFrame (preambleReadData :: ws) = .ok i) :
    ∃ stale, ws = Config.dummyWord :: stale ∧ i = .rdata stale.length := by
  match ws with
  | [] => rw [decodeFrame_truncatedRead] at h; cases h
  | d :: stale =>
    by_cases hd : d = Config.dummyWord
    · subst hd
      exact ⟨stale, rfl, (Except.ok.inj h).symm⟩
    · rw [decodeFrame_badDummyWord hd] at h
      cases h

/-- R81, R92, R96: what words that decode are, said once. -/
theorem decodeFrame_cases (h : decodeFrame ws = .ok i) :
    (∃ op, ws = [preambleWriteCommand, op] ∧ i = decodeCommand op) ∨
    (∃ p, ws = [preambleWriteData, p] ∧ i = .param p) ∨
    (∃ ds, ds.length ≠ 1 ∧ ws = preambleWriteData :: ds ∧ i = .wdata ds) ∨
    ∃ stale, ws = preambleReadData :: Config.dummyWord :: stale ∧ i = .rdata stale.length := by
  match ws with
  | [] => cases h
  | w :: ws =>
    by_cases hc : w = preambleWriteCommand
    · subst hc
      by_cases hlen : ws.length = 1
      · obtain ⟨op, rfl⟩ := List.length_eq_one_iff.mp hlen
        exact .inl ⟨op, rfl, (Except.ok.inj h).symm⟩
      · rw [decodeFrame_badCommandLength hlen] at h
        cases h
    by_cases hd : w = preambleWriteData
    · subst hd
      obtain ⟨p, rfl, hi⟩ | ⟨hlen, hi⟩ := decodeFrame_dataWrite_cases h
      · exact .inr (.inl ⟨p, rfl, hi⟩)
      · exact .inr (.inr (.inl ⟨ws, hlen, rfl, hi⟩))
    by_cases hr : w = preambleReadData
    · subst hr
      obtain ⟨stale, rfl, hi⟩ := decodeFrame_dataRead_cases h
      exact .inr (.inr (.inr ⟨stale, rfl, hi⟩))
    · rw [decodeFrame_unknownPreamble hc hd hr] at h
      cases h

/-! ## The opcodes -/

/-- R85, R93: an opcode is encoded from the row it names, or from the raw command where it is in no row. -/
theorem encodeFrame_decodeCommand (op : Word) :
    encodeFrame (decodeCommand op) = some [preambleWriteCommand, op] := by
  fun_cases decodeCommand op with
  | case11 h1 h2 h3 h4 h5 h6 h7 h8 h9 h10 =>
    have hraw : decodeCommand op = .sendCommand op := by
      simp only [decodeCommand, h1, h2, h3, h4, h5, h6, h7, h8, h9, h10, if_false]
    rw [encodeFrame, if_pos hraw]
  | _ => subst op; rfl

/-- R81, R85: what a well-formed instruction with words is decoded to from them. -/
theorem decodeFrame_of_encodeFrame (hwf : i.wellFormed = true) (h : encodeFrame i = some ws) :
    decodeFrame ws = .ok i := by
  cases i with
  | wdata ds =>
    obtain rfl := Option.some.inj h
    exact decodeFrame_wdata (of_decide_eq_true hwf)
  | rdata len =>
    obtain rfl := Option.some.inj h
    rw [decodeFrame_rdata, List.length_replicate]
  | sendCommand op =>
    simp only [encodeFrame, Option.ite_none_right_eq_some, Option.some.injEq] at h
    obtain ⟨hraw, rfl⟩ := h
    rw [decodeFrame_command, hraw]
  | param | cmdWakeUp | cmdStandby | cmdSleep | cmdReadRegister | cmdWriteRegister | cmdLoadImageArea
  | cmdEndLoadImage | cmdDisplayArea | cmdSetVcom | cmdGetDeviceInfo =>
    obtain rfl := Option.some.inj h
    rfl
  | sendCommandParams | writeData | readData | writeRegister | readRegister | wakeUp | standby | sleep | reset
  | getDeviceInfo | setVcom | getVcom | enableParameterPack | isDisplayReady | writeImage | display | clear => cases h

/-- Settles O1: the bytes read back as the words, and the words decode by their preamble. -/
theorem frameRoundTrip : Obligations.FrameRoundTrip := by
  refine ⟨fun i ws hwf h => ?_, fun stale => ?_⟩
  · have hd := decodeFrame_of_encodeFrame hwf h
    exact ⟨hd, fun o => (decodeBytes_bytesOfWords o ws).trans hd⟩
  · have hd := decodeFrame_rdata stale
    exact ⟨hd, fun o => (decodeBytes_bytesOfWords o _).trans hd⟩

/-- Settles O3: the four forms that decode are each encoded back, and a read keeps the number of its stale words. -/
theorem decodeAcceptsOnlyFrames : Obligations.DecodeAcceptsOnlyFrames := by
  refine ⟨fun ws i h => ?_, fun w ws hc hd hr => decodeFrame_unknownPreamble hc hd hr ws,
    fun ws hlen => decodeFrame_badCommandLength hlen⟩
  obtain ⟨op, rfl, rfl⟩ | ⟨p, rfl, rfl⟩ | ⟨ds, -, rfl, rfl⟩ | hread := decodeFrame_cases h
  · exact .inl (encodeFrame_decodeCommand op)
  · exact .inl rfl
  · exact .inl rfl
  · exact .inr hread

/-- Settles O2: both are the write-data preamble and the word, and a data write of one word decodes as PARAM. -/
theorem oneWordWdataIsParam : Obligations.OneWordWdataIsParam := fun p => ⟨rfl, rfl, decodeFrame_param p⟩

/-! ## Samples -/

/-- A row's bits decode as the words they hold. -/
theorem decodeTableWord_of_tableWords {nbits n : Nat} (hws : tableWords nbits n = some ws)
    (hi : decodeFrame ws = .ok i) : decodeTableWord nbits n = some i := by
  simp [decodeTableWord, hws, hi]

/-- Settles O5: the frames through their words, the lines by running the decoder. -/
theorem sampleWordsDecode : Obligations.SampleWordsDecode :=
  ⟨decodeTableWord_of_tableWords (ws := [0x6000, 0x0001]) rfl rfl,
    decodeTableWord_of_tableWords (ws := [0x6000, 0x0302]) rfl rfl,
    decodeTableWord_of_tableWords (ws := [0x0000, 0x1234]) rfl (decodeFrame_param _),
    decodeTableWord_of_tableWords (ws := [0x1000, 0x0000]) rfl (decodeFrame_rdata []),
    by decide +kernel, by decide +kernel, by decide +kernel⟩

end Sys2Proof

namespace Sys2Proof.Machine

variable {s : State} {i : Instr}

/-! ## Raw requests run undisturbed -/

/-- R186: `runRequest_quiet_raw` where the request keeps the power tracker. -/
theorem runRequest_quiet_raw_keeps (i : Instr) (p : Primitive) (v : Conversion) (hfit : p.need ≤ s.cfg.capacity)
    (h : s.ready p.frames.length) :
    runRequest i (.raw p v .keeps) s =
      .next (returnOk (sendFrames s p.frames)
        (v.apply s.cfg (p.readInto (sendFrames s p.frames).inBuf []))) := by
  have hpower :
      { sendFrames s p.frames with power := PowerEffect.keeps.apply .ok s.power } = sendFrames s p.frames := by
    rw [PowerEffect.apply, ← (sendFrames_sent s p.frames).power]
  rw [runRequest_quiet_raw i p v .keeps hfit h, hpower]

/-- R108, R120: a command sent where nothing disturbs it, by any instruction that is issued as it. -/
theorem runRequest_sendCommand (i : Instr) (op : Word) (h : s.ready 1) :
    runRequest i (expandSendCommand op) s = .next (returnOk
      { sendFrame s (cmdFrame op) with
        power := if op = 0x0001 ∨ op = 0x0002 ∨ op = 0x0003 then .unknown else s.power } none) := by
  rw [expandSendCommand, runRequest_quiet_raw i (.sendCommand op) _ _ h.1.1 h, rawPowerEffect_ok]
  rfl

/-- R110: a data write that fits, sent where nothing disturbs it. -/
theorem runRequest_writeData (i : Instr) {ds : List Word} (h : s.ready 1) (hfit : ds.length + 1 ≤ s.cfg.capacity) :
    runRequest i (expandWriteData ds) s = .next (returnOk (sendFrame s (wdataFrame ds)) none) :=
  runRequest_quiet_raw_keeps i (.writeData ds) .none hfit h

/-- R90, R111: a data read that fits, sent where nothing disturbs it, returns the words after the first two. -/
theorem runRequest_readData (i : Instr) {len : Nat} {d0 d1 : Word} {ws : List Word} {as : List Answer} (h : s.ready 1)
    (hwf : Memory.wf s) (hfit : len + 2 ≤ s.cfg.capacity) (hlen : ws.length = len)
    (ha : s.answers = ⟨true, d0 :: d1 :: ws⟩ :: as) :
    runRequest i (expandReadData len) s =
      .next (returnOk (sendFrame s (rdataFrame len)) (some (.words ws))) := by
  have hread : memRead (sendFrame s (rdataFrame len)).inBuf 2 len = ws := sendFrame_read ha hlen (hwf.2 ▸ hfit) _ rfl
  calc runRequest i (expandReadData len) s
      = .next (returnOk (sendFrame s (rdataFrame len))
          (some (.words (memRead (sendFrame s (rdataFrame len)).inBuf 2 len)))) :=
        runRequest_quiet_raw_keeps i (.readData len) .words hfit h
    _ = .next (returnOk (sendFrame s (rdataFrame len)) (some (.words ws))) := by rw [hread]

/-- An instruction that stands for a command is that command sent. -/
theorem exec_of_expandSendCommand {op : Word} (hi : expansionOf s.cfg i = expandSendCommand op) (h : s.ready 1) :
    exec i s = .next (returnOk
      { sendFrame s (cmdFrame op) with
        power := if op = 0x0001 ∨ op = 0x0002 ∨ op = 0x0003 then .unknown else s.power } none) := by
  rw [exec_eq, hi, runRequest_sendCommand _ op h]

/-- Settles O17: each row stands for the command of its opcode. -/
theorem cmdRowsComplete : Obligations.CmdRowsComplete := by
  intro row hrow s h
  refine exec_of_expandSendCommand ?_ h
  revert row
  simp only [List.forall_mem_cons]
  exact ⟨rfl, rfl, rfl, rfl, rfl, rfl, rfl, rfl, rfl, rfl, List.forall_mem_nil _⟩

/-- Settles O18: a PARAM is the data write of its one word, and the two others are the data write and read. -/
theorem dataRowsComplete : Obligations.DataRowsComplete :=
  fun _ h => ⟨fun _ => runRequest_writeData _ h h.1.1, fun _ hfit => runRequest_writeData _ h hfit,
    fun _ _ _ _ _ hwf hfit hlen ha => runRequest_readData _ h hwf hfit hlen ha⟩

/-- Settles O22: the read's undisturbed run. -/
theorem readDataCompletes : Obligations.ReadDataCompletes :=
  fun _ _ _ _ _ _ h hwf hfit hlen ha => runRequest_readData _ h hwf hfit hlen ha

end Sys2Proof.Machine
end

section
/-! Proofs of the statements of 40_framer.md: the raw requests that write run undisturbed (O19, O20, O21); the requests
that end with `busy` (O31) or `error` (O33, O35); a primitive's end between two sub-steps (O48); and the power tracker
after a request has returned (O52). -/

namespace Sys2Proof.Machine

variable {s t : State} {c : Nat} {i : Instr} {e : Expansion} {u : Caller}

/-! ## The raw requests that write -/

/-- Settles O19: the command's undisturbed run. -/
theorem sendCommandCompletes : Obligations.SendCommandCompletes :=
  fun _ _ h => exec_of_expandSendCommand rfl h

/-- R109, R120: a command with parameters, sent where nothing disturbs it. -/
theorem runRequest_sendCommandParams (i : Instr) (op : Word) {ps : List Word} (h : s.ready (1 + ps.length)) :
    runRequest i (expandSendCommandParams op ps) s = .next (returnOk
      { sendFrames s (cmdFrame op :: ps.map paramFrame) with
        power := if op = 0x0001 ∨ op = 0x0002 ∨ op = 0x0003 then .unknown else s.power } none) := by
  have hready : s.ready (Primitive.sendCommandParams op ps).frames.length := by
    rwa [Primitive.frames, List.length_cons, List.length_map, Nat.add_comm]
  have ⟨⟨hcap, _⟩, _⟩ := h
  rw [expandSendCommandParams, runRequest_quiet_raw i (.sendCommandParams op ps) _ _ hcap hready, rawPowerEffect_ok]
  rfl

/-- Settles O20: the undisturbed run of the command and its parameters. -/
theorem sendCommandParamsCompletes : Obligations.SendCommandParamsCompletes :=
  fun _ op _ h => runRequest_sendCommandParams _ op h

/-- Settles O21: the data write's undisturbed run. -/
theorem writeDataCompletes : Obligations.WriteDataCompletes := fun _ _ h hfit => runRequest_writeData _ h hfit

/-! ## `excl` held -/

/-- R39, R101, R178: the run up to the first `Acquire`, whether or not `excl` is held. -/
theorem runSteps_toFirstAcquire (i : Instr) (hb : e.begins) (hc : c < s.callers.length) :
    ∃ m, runSteps e c m (s.setCaller c { Caller.idle with req := some i, pos := e.start }) =
      s.setCaller c { Caller.idle with req := some i, pos := .acquire } := by
  have hsub : runSteps e c 1 (s.setCaller c { Caller.idle with req := some i, pos := .sub }) =
      s.setCaller c { Caller.idle with req := some i, pos := .acquire } := by
    simp [runSteps, microStep, stepSub, hc]
  obtain ⟨hs, -⟩ | hs | ⟨hs, hv⟩ := hb <;> rw [hs]
  · exact ⟨0, rfl⟩
  · exact ⟨1, hsub⟩
  · have hvalidate : runSteps e c 1 (s.setCaller c { Caller.idle with req := some i, pos := .validate }) =
        s.setCaller c { Caller.idle with req := some i, pos := .sub } := by
      simp [runSteps, microStep, stepValidate, hv, hc]
    exact ⟨1 + 1, by rw [runSteps_add, hvalidate, hsub]⟩

/-- R102: `Acquire` with `excl` held, as one step of a run. -/
theorem runSteps_acquire_held (hc : c < s.callers.length) (hpos : u.pos = .acquire) (hexcl : s.excl = true) :
    runSteps e c 1 (s.setCaller c u) =
      s.setCaller c { u with pos := .ret .busy, k := 0, st := .busy, cause := some .exclHeld } := by
  have hu := State.caller_setCaller_self hc u
  have hstep := microStep_acquire_held (e := e) (s := s.setCaller c u) (by simpa using hc) (by rw [hu, hpos]) hexcl
  rw [hu, State.setCaller_setCaller] at hstep
  exact hstep _

/-- R120, R155: no request that returned `busy` has changed the tracker. -/
theorem PowerEffect.apply_busy (w : PowerEffect) (p : Power) : w.apply .busy p = p := by
  cases w <;> rfl

/-- Settles O31: the request comes to its first `Acquire` and finds `excl` held; `busy` leaves the tracker alone. -/
theorem busyWhileHeld : Obligations.BusyWhileHeld := by
  intro s i h hexcl hreset hvcom
  have ⟨_, hc, _⟩ := h
  obtain ⟨m, hm⟩ := runSteps_toFirstAcquire (asRequest i) (expansionOf_begins s.cfg hreset hvcom) hc
  have hbusy := exec_returns (m := m + 1) (t := s) h
    (by rw [runSteps_add, hm]; exact runSteps_acquire_held hc rfl hexcl) rfl rfl rfl (by decide)
  rwa [PowerEffect.apply_busy] at hbusy

/-! ## A primitive that does not fit, a transfer that fails -/

/-- R104, R119, R182: a request whose primitive `p` does not fit the buffers has sent the primitives before it and ends
with `error` at the capacity check of `p`. -/
theorem exec_tooLarge {pre post : List Primitive} {p : Primitive} (h : s.accepting) (hexcl : s.excl = false)
    (hb : (expansionOf s.cfg i).begins) (hps : (expansionOf s.cfg i).prims = pre ++ p :: post)
    (hfit : ∀ q ∈ pre, q.need ≤ s.cfg.capacity) (hp : s.cfg.capacity < p.need) (hidle : pre ≠ [] → s.lineIdle = true)
    (hbus : s.busAccepts (pre.flatMap Primitive.frames).length) :
    exec i s =
      .next (returnWith
        { sendFrames s (pre.flatMap Primitive.frames) with
          power := (expansionOf s.cfg i).power.apply .error s.power }
        .error (some .capacity) none) := by
  have ⟨_, hc, _⟩ := h
  have hs := sendFrames_sent s (pre.flatMap Primitive.frames)
  obtain ⟨m, hm⟩ := runSteps_toAcquire (asRequest i) pre post p hb hps hc hexcl hfit hidle hbus
  have herror := runSteps_tooLarge (e := expansionOf s.cfg i) (c := s.active)
    (s := sendFrames s (pre.flatMap Primitive.frames)) (p := p)
    (u := { Caller.idle with
      req := some (asRequest i), pos := .acquire, sub := pre.length, acc := (sendPrims (s, []) pre).2 })
    (by rw [hs.callers]; exact hc) (by simp [Expansion.primitive, hps]) rfl (hs.excl.trans hexcl) (by rwa [hs.cfg])
  rw [← hs.power]
  exact exec_returns (m := m + 3) h (by rw [runSteps_add, hm]; exact herror) hs.active hs.callers rfl (by decide)

/-- R104: a raw request that keeps the tracker and whose primitive does not fit has only returned its `error`. -/
theorem exec_raw_tooLarge {p : Primitive} {v : Conversion} (h : s.accepting) (hexcl : s.excl = false)
    (hi : expansionOf s.cfg i = .raw p v .keeps) (hp : s.cfg.capacity < p.need) :
    exec i s = .next (returnWith s .error (some .capacity) none) := by
  have herror := exec_tooLarge (i := i) (pre := []) (post := []) (p := p) h hexcl (hi ▸ .inl ⟨rfl, rfl⟩)
    (congrArg Expansion.prims hi) (by simp) hp (by simp) ⟨Nat.zero_le _, by simp⟩
  rwa [hi] at herror

/-- Settles O33: each of the four is a raw request of one primitive, which does not fit. -/
theorem oversizedDataErrors : Obligations.OversizedDataErrors :=
  fun _ h hexcl =>
    ⟨fun ds hds => ⟨exec_raw_tooLarge (p := .writeData ds) h hexcl rfl hds,
        exec_raw_tooLarge (p := .writeData ds) h hexcl rfl hds⟩,
      fun len hlen => ⟨exec_raw_tooLarge (p := .readData len) h hexcl rfl hlen,
        exec_raw_tooLarge (p := .readData len) h hexcl rfl hlen⟩⟩

/-- Settles O35: the run up to the fill of `f`, then the failing frame, its release and the return of `error`. -/
theorem firstFailureEndsRequest : Obligations.FirstFailureEndsRequest := by
  intro s i pre post p sent later f a as hvcom hps hframes hfit ⟨h, hexcl, hidle, hbus⟩ hans hok
  have ⟨_, hc, _⟩ := h
  have hreset : i ≠ .reset := by
    rintro rfl
    simp [expansionOf, expandReset] at hps
  let before : State := sendFrames s (pre.flatMap Primitive.frames ++ sent)
  have hs : Sent s before := sendFrames_sent ..
  have hsf : Sent s (sendFrame before f) := hs.trans (sendFrame_sent ..)
  obtain ⟨m, u, hm, hp, hf, hpos, hk, -⟩ := runSteps_toFrame (asRequest i) pre post p sent later f
    (expansionOf_begins s.cfg hreset hvcom) hps hframes hc hexcl hfit hidle hbus
  have hfail := runSteps_failingFrame (s := before) (c := s.active) (by rw [hs.callers]; exact hc) hp hf hpos
    (by rwa [State.lineIdle, hs.busyLevel]) (hs.excl.trans hexcl) ((sendFrames_answers ..).trans hans) hok
  have hret := exec_returns (m := m + 4) h (by rw [runSteps_add, hm]; exact hfail) hsf.active hsf.callers rfl
    (by decide)
  rwa [hsf.power, hk] at hret

/-! ## Between two sub-steps -/

/-- Settles O48: the release frees `excl` and the sub-step after it is next; `Acquire` with `excl` held turns to the
return of `busy`. -/
theorem compositeReleasesBetweenSubSteps : Obligations.CompositeReleasesBetweenSubSteps := by
  intro s c e x hc
  refine ⟨fun hpos hsub => ?release, fun hpos hexcl => ?held⟩
  case release =>
    have hafter : afterSubStep e.prims.length (s.caller c).sub .ok = (.sub, (s.caller c).sub + 1) := by
      simp [afterSubStep, hsub]
    rw [microStep, hpos]
    simp only [stepRelease]
    rw [finishPrimitive_caller (by exact hc), State.caller_releaseExcl, hafter]
    exact ⟨rfl, rfl, rfl⟩
  case held =>
    rw [microStep_acquire_held hc hpos hexcl, State.caller_setCaller_self hc]
    exact ⟨hexcl, rfl⟩

/-! ## The power tracker -/

/-- R157: the shared state after the three line steps of `reset`. -/
def State.lineCycled (s : State) : State :=
  { s with
    resetLevel := .driven .high
    power := s.cfg.powerAfterReset
    trace := s.trace ++ [.line .low, .delay 10, .line .high] }

/-- R157: the three line steps, from `LineLow` to the return of `ok`. -/
theorem runSteps_lineSteps (hc : c < s.callers.length) (hpos : u.pos = .lineLow) :
    runSteps e c 3 (s.setCaller c u) =
      s.lineCycled.setCaller c { u with pos := .ret .ok, sub := u.sub + 2, st := .ok } := by
  simp [runSteps, microStep, State.caller, State.setCaller, hc, hpos, stepLineLow, stepHold, stepLineHigh,
    State.writeLine, State.delay, State.log, Config.resetHoldMs, Caller.toLineStep, State.lineCycled]

/-- R157, R158: `reset` takes its line steps and returns `ok`, whatever `excl` and the busy line are. -/
theorem exec_reset (h : s.accepting) : exec .reset s = .next (returnOk s.lineCycled none) := by
  have ⟨_, hc, _⟩ := h
  have hreturn := microStep_return (s := s.lineCycled) (e := expandReset) (c := s.active)
    (u := { Caller.idle with req := some .reset, pos := .ret .ok, sub := 2 }) rfl rfl rfl hc rfl rfl
  rw [exec_eq, runRequest_accepting h]
  show Host.Outcome.next (runSteps expandReset s.active (3 + 1) _) = _
  rw [runSteps_add, runSteps_lineSteps hc rfl]
  exact congrArg _ (hreturn _)

/-- R120, R155, R186: the tracker after a request other than `reset` has returned, by the request's effect. -/
theorem exec_power (h : s.accepting) (hi : i ≠ .reset) (he : exec i s = .next t)
    (hr : (t.caller s.active).req = none) :
    t.power = (expansionOf s.cfg i).power.apply (t.caller s.active).st s.power := by
  have ⟨_, hc, _⟩ := h
  rw [exec_eq, runRequest_accepting h] at he
  cases he
  exact (runSteps_offLine _ (OffLine.issued hc hi)).power.trans (if_pos hr)

/-- R120: the tracker after a raw command that returned `error`. -/
theorem rawPowerEffect_error (op : Word) (p : Power) : (rawPowerEffect op).apply .error p =
    if op = 0x0001 ∨ op = 0x0002 ∨ op = 0x0003 then .unknown else p := by
  rw [← rawPowerEffect_ok]
  unfold rawPowerEffect
  split <;> rfl

/-- Settles O52: `reset` is run to its end; every other request's effect says what its status makes of the tracker. -/
theorem powerTrackerFollowsStatus : Obligations.PowerTrackerFollowsStatus := by
  intro s t i h he hr
  by_cases hi : i = .reset
  · subst hi
    rw [exec_reset h] at he
    cases he
    rfl
  rw [exec_power h hi he hr]
  cases i
  case reset => exact absurd rfl hi
  case sendCommand op | sendCommandParams op _ =>
    cases (t.caller s.active).st
    case ok => exact rawPowerEffect_ok op _
    case error => exact rawPowerEffect_error op _
    case busy => exact PowerEffect.apply_busy ..
  -- The effect of any other request does not depend on an argument, so the status alone decides.
  all_goals cases (t.caller s.active).st <;> rfl

end Sys2Proof.Machine
end

section
/-! Proofs of the statements of 41_busy_sync.md: the handler body and the handles it signals (O16, O42, O43, O44), the
positions of a wait (O38, O39, O40, O41), and a request that finds the line busy (O36). -/

namespace Sys2Proof.Machine

variable {s t : State} {c g h : Nat} {e : Expansion} {x : WaitExit} {v : Handle}

/-! ## The handler body -/

/-- R136: the exchange of `delivered` and the wake-up, as the two bits that result. -/
theorem Handle.deliver_eq (v : Handle) : v.deliver = ⟨true, v.signalled || !v.delivered⟩ := by
  rcases v with ⟨_ | _, _ | _⟩ <;> rfl

/-- R137: the exchange finds `delivered` set the second time. -/
theorem Handle.deliver_deliver (v : Handle) : v.deliver.deliver = v.deliver := rfl

theorem Handle.deliver_signalled (hv : v.signalled = true) : v.deliver.signalled = true := by
  rw [Handle.deliver_eq, hv, Bool.true_or]

/-- R135: an invocation of a handle no edge has reached. -/
theorem State.invoke_of_notMem (hm : h ∉ s.edgeTargets) : s.invoke h = s := if_neg hm

/-- Settles O42: the invocation delivers the one handle it names. -/
theorem invokeRunsHandler : Obligations.InvokeRunsHandler := by
  intro s h v hm hv
  obtain ⟨hlt, rfl⟩ := List.getElem?_eq_some_iff.mp hv
  rw [State.invoke_of_mem hm, List.modify_eq_set_get _ hlt, List.get_eq_getElem, Handle.deliver_eq]

/-- Settles O43: a handle no edge has reached is not delivered, and one delivered twice is as delivered once. -/
theorem invokeDeliversOnce : Obligations.InvokeDeliversOnce := by
  intro s h
  refine ⟨State.invoke_of_notMem, ?_⟩
  by_cases hm : h ∈ s.edgeTargets
  · have hm' : h ∈ (s.invoke h).edgeTargets := by rwa [State.invoke_edgeTargets]
    have htwice : Handle.deliver ∘ Handle.deliver = Handle.deliver := funext Handle.deliver_deliver
    rw [State.invoke_of_mem hm', State.invoke_of_mem hm, List.modify_modify_eq, htwice]
  · rw [State.invoke_of_notMem hm, State.invoke_of_notMem hm]

/-! ## Signalled handles -/

theorem State.signalled_iff : s.signalled h = true ↔ ∃ v, s.handles[h]? = some v ∧ v.signalled = true := by
  unfold State.signalled
  cases s.handles[h]? <;> simp

/-- R137: a handle signalled before is signalled where the handles made before are as they were. -/
theorem State.signalled_of_local (hl : Local c s t) (hs : s.signalled h = true) : t.signalled h = true := by
  obtain ⟨v, hv, hsig⟩ := State.signalled_iff.mp hs
  obtain ⟨made, hmade⟩ := hl.handles
  have hlt : h < s.handles.length := (List.getElem?_eq_some_iff.mp hv).1
  exact State.signalled_iff.mpr ⟨v, by rw [← hmade, List.getElem?_append_left hlt, hv], hsig⟩

/-- R136: an invocation touches no other handle. -/
theorem State.invoke_handles_other (hgh : h ≠ g) (s : State) : (s.invoke h).handles[g]? = s.handles[g]? := by
  rw [State.invoke_handles]
  split
  · simp [hgh]
  · rfl

theorem State.signalled_invoke_other (hgh : h ≠ g) (s : State) : (s.invoke h).signalled g = s.signalled g := by
  simp only [State.signalled, State.invoke_handles_other hgh]

/-- R137: no invocation takes a signal back. -/
theorem State.signalled_invoke (h : Nat) (hs : s.signalled g = true) : (s.invoke h).signalled g = true := by
  by_cases hgh : h = g
  · subst hgh
    by_cases hm : h ∈ s.edgeTargets
    · obtain ⟨v, hv, hsig⟩ := State.signalled_iff.mp hs
      exact State.signalled_iff.mpr
        ⟨v.deliver, by simp [State.invoke_of_mem hm, hv], Handle.deliver_signalled hsig⟩
    · rwa [State.invoke_of_notMem hm]
  · rwa [State.signalled_invoke_other hgh]

/-- Settles O16: a context's steps leave the handles made before as they were, and only the notifier writes one, which
keeps its signal. -/
theorem signalledForEver : Obligations.SignalledForEver := by
  intro s t h hs hsig
  refine step_keeps (P := fun r => r.signalled h = true) ?bookkeeping ?start ?micro ?busyLine ?answer ?invoke hsig hs
  case start => exact fun _ _ _ => State.signalled_of_local (issue_local ..)
  case micro => exact fun _ _ _ _ => State.signalled_of_local (microStep_local ..)
  case invoke => exact fun _ g => State.signalled_invoke g
  case bookkeeping => exact fun _ _ _ _ hr => hr
  case busyLine | answer => exact fun _ _ hr => hr

/-- R138: the signal exit of a wait for `g` does not see an invocation of another handle. -/
theorem State.woken_invoke_other {u : Caller} (hu : u.hnd = some g) (hgh : h ≠ g) (s : State) :
    (s.invoke h).woken u = s.woken u := by
  simp only [State.woken, hu, State.signalled_invoke_other hgh]

/-- R25: a handle just made is not signalled. -/
theorem State.signalled_registerHandle (s : State) : s.registerHandle.signalled s.handles.length = false := by
  simp [State.signalled]

/-! ## The positions of a wait -/

theorem State.lineIdle_iff : s.lineIdle = true ↔ s.busyLevel = .high := beq_iff_eq

/-- R29: the sample recorded is the line's level. -/
theorem State.sampleBusy_of_level {l : Level} (hl : s.busyLevel = l) : s.sampleBusy = s.log (.sample l) := by
  rw [State.sampleBusy, hl]

/-- R130: what a context at `WaitRegister` does. -/
theorem microStep_of_waitRegister (hpos : (s.caller c).pos = .waitRegister) (x : WaitExit) :
    microStep e c x s = s.registerHandle.setCaller c ((s.caller c).waitFor s.handles.length) := by
  rw [microStep, hpos]; rfl

/-- Settles O44: the wait reads its own handle only, and the handle just made has a name no edge record holds. -/
theorem staleInvocationCannotWake : Obligations.StaleInvocationCannotWake := by
  refine ⟨fun s c g h hg hgh => ⟨s.caller_invoke h c, s.woken_invoke_other hg hgh⟩,
    fun s c e x hs hc hpos => ?_⟩
  obtain ⟨hrec, -⟩ := hs
  have hu : (microStep e c x s).caller c = (s.caller c).waitFor s.handles.length := by
    rw [microStep_of_waitRegister hpos, State.caller_setCaller_self (by exact hc)]
  rw [hu, microStep_of_waitRegister hpos]
  refine ⟨rfl, rfl, fun hm => Nat.lt_irrefl _ (hrec _ hm), fun h hne => ?_⟩
  rw [State.woken_invoke_other rfl hne]
  exact s.signalled_registerHandle

/-- Settles O38: the sample taken is the line's level, and the level decides the next position. -/
theorem waitSampleFastPath : Obligations.WaitSampleFastPath := by
  intro s c e x hpos
  have hstep : microStep e c x s =
      s.sampleBusy.setCaller c { s.caller c with pos := if s.lineIdle then .xfer else .waitRegister } := by
    rw [microStep, hpos]; rfl
  refine ⟨fun hhigh => ?high, fun hlow => ?low⟩
  case high =>
    rw [hstep, if_pos (State.lineIdle_iff.mpr hhigh), State.sampleBusy_of_level hhigh]
    rfl
  case low =>
    have hbusy : ¬ s.lineIdle = true := by simp [State.lineIdle_iff, hlow]
    rw [hstep, if_neg hbusy, State.sampleBusy_of_level hlow]
    rfl

/-- Settles O39: the fresh handle is the next index of the list of handles. -/
theorem waitRegisterMakesHandle : Obligations.WaitRegisterMakesHandle := by
  intro s c e x hpos
  refine ⟨s.handles.length, s.handles ++ [⟨false, false⟩], List.getElem?_eq_none le_rfl,
    List.getElem?_concat_length, fun g hg => ?_, microStep_of_waitRegister hpos x⟩
  obtain hlt | hgt := Nat.lt_or_gt_of_ne hg
  · exact List.getElem?_append_left hlt
  · rw [List.getElem?_eq_none (by simpa using hgt), List.getElem?_eq_none hgt.le]

/-- Settles O40: each exit is the test of its own condition. -/
theorem waitSuspendExits : Obligations.WaitSuspendExits := by
  intro s c e h _ hpos hhnd
  refine ⟨?signal, ?observedIdle⟩ <;> rw [microStep, hpos]
  case signal => simp only [stepWaitSuspend, State.woken, hhnd]
  case observedIdle =>
    simp only [stepWaitSuspend, State.lineIdle_iff]
    split
    · next hhigh => rw [State.sampleBusy_of_level hhigh]
    · rfl

/-- Settles O41: the deregistration ends the wait and leaves the context's frame, sub-step and request. -/
theorem deregisterGoesToTransfer : Obligations.DeregisterGoesToTransfer := by
  intro s c e x hpos
  refine ⟨{ s.caller c with hnd := none, pos := .xfer }, ?_, rfl, rfl, rfl, rfl⟩
  rw [microStep, hpos]; rfl

/-! ## A request on a busy line -/

/-- R157: `reset` has no primitive, so a request that has one is another. -/
theorem ne_reset_of_prims {cfg : Config} {i : Instr} {p : Primitive} {ps : List Primitive}
    (hps : (expansionOf cfg i).prims = p :: ps) : i ≠ .reset := by
  rintro rfl
  simp [expansionOf, expandReset] at hps

/-- Settles O36: the request comes to the wait of its first frame, where neither exit is enabled. -/
theorem busyLineSuspends : Obligations.BusyLineSuspends := by
  intro s i p f fs h hexcl hbusy hvcom hhead hfit hp
  have ⟨_, hc, _⟩ := h
  obtain ⟨ps, hps⟩ := List.head?_eq_some_iff.mp hhead
  exact ⟨_, exec_toWait h hexcl hbusy (expansionOf_begins s.cfg (ne_reset_of_prims hps) hvcom) hps hfit hp, rfl,
    awaiting_blocked hc hbusy f _⟩

end Sys2Proof.Machine
end

section
/-! Proofs of the statements of 42_register_access.md: the register writes (O23) and the reads of one word (O24) run
undisturbed; and the composite requests whose data frame does not fit (O34). -/

namespace Sys2Proof.Machine

variable {s : State} {i : Instr}

/-! ## Composite requests run undisturbed -/

/-- R122, R175, R186: `runRequest_quiet_keeps` for an instruction, by the primitives of its expansion. -/
theorem exec_composite {ps : List Primitive} {v : Conversion} (hi : expansionOf s.cfg i = .composite ps v .keeps)
    (hne : ps ≠ []) (hfit : ∀ p ∈ ps, p.need ≤ s.cfg.capacity)
    (h : s.ready (ps.flatMap Primitive.frames).length) :
    exec i s = .next (returnOk (sendFrames s (ps.flatMap Primitive.frames))
      (v.apply s.cfg (sendPrims (s, []) ps).2)) := by
  rw [exec_eq, hi]
  exact runRequest_quiet_keeps _ hne (.inl rfl) hfit h rfl

/-- R146: an instruction that is one register write sends the command, the address and the value. -/
theorem exec_registerWrite {addr val : Word}
    (hi : expansionOf s.cfg i = .composite [writeRegisterPrim addr val] .none .keeps) (h : s.ready 3) :
    exec i s =
      .next (returnOk (sendFrames s [cmdFrame opWriteRegister, paramFrame addr, paramFrame val]) none) := by
  have ⟨⟨hcap, _⟩, _⟩ := h
  exact exec_composite hi (List.cons_ne_nil _ _) (List.forall_mem_singleton.mpr hcap) h

/-- Settles O23: the pack-mode write is the register write of `REG_PACK` and `VAL_PACK`. -/
theorem writeRegisterCompletes : Obligations.WriteRegisterCompletes :=
  fun _ h => ⟨fun _ _ => exec_registerWrite rfl h, exec_registerWrite rfl h⟩

/-! ## Reads of one word -/

/-- R147, R167: a command with one parameter, then a read of one data word. -/
def wordReadPrims (op arg : Word) : List Primitive := [.sendCommandParams op [arg], .readData 1]

/-- R90, R121: a word read whose third transfer is answered with the word `w` has read `w`. -/
theorem sendPrims_wordRead {op arg d0 d1 w : Word} {a0 a1 : Answer} {as : List Answer} (hin : 3 ≤ s.inBuf.length)
    (ha : s.answers = a0 :: a1 :: ⟨true, [d0, d1, w]⟩ :: as) :
    (sendPrims (s, []) (wordReadPrims op arg)).2 = [w] := by
  have hlen : 3 ≤ (sendFrames s [cmdFrame op, paramFrame arg]).inBuf.length := by simpa [sendFrames] using hin
  have hans : (sendFrames s [cmdFrame op, paramFrame arg]).answers = ⟨true, [d0, d1, w]⟩ :: as := by
    rw [sendFrames_answers, ha]; rfl
  exact sendFrame_read hans rfl hlen (rdataFrame 1) rfl

/-- R147, R167, R168, R170: an instruction that is a word read returns what its conversion makes of the word. -/
theorem exec_wordRead {op arg d0 d1 w : Word} {v : Conversion} {a0 a1 : Answer} {as : List Answer}
    (hi : expansionOf s.cfg i = .composite (wordReadPrims op arg) v .keeps) (h : s.ready 3) (hwf : Memory.wf s)
    (hfit : 3 ≤ s.cfg.capacity) (ha : s.answers = a0 :: a1 :: ⟨true, [d0, d1, w]⟩ :: as) :
    exec i s = .next (returnOk (sendFrames s [cmdFrame op, paramFrame arg, rdataFrame 1]) (v.apply s.cfg [w])) := by
  have ⟨⟨hcap, _⟩, _⟩ := h
  have hneeds : ∀ p ∈ wordReadPrims op arg, p.need ≤ s.cfg.capacity :=
    List.forall_mem_cons.mpr ⟨hcap, List.forall_mem_singleton.mpr hfit⟩
  rw [exec_composite hi (List.cons_ne_nil _ _) hneeds h, sendPrims_wordRead (hwf.2 ▸ hfit) ha]
  rfl

/-- Settles O24: the three are word reads that differ in opcode, parameter and conversion. -/
theorem readRequestsComplete : Obligations.ReadRequestsComplete :=
  fun _ _ _ _ _ _ _ h hwf hfit ha =>
    ⟨fun _ => exec_wordRead (v := .register) rfl h hwf hfit ha, exec_wordRead (v := .volts) rfl h hwf hfit ha,
      exec_wordRead (v := .ready) rfl h hwf hfit ha⟩

/-! ## Composite requests whose data frame does not fit -/

/-- R104, R182: `exec_tooLarge` for a composite request that keeps the power tracker. -/
theorem exec_composite_tooLarge {pre post : List Primitive} {p : Primitive} {v : Conversion}
    (hi : expansionOf s.cfg i = .composite (pre ++ p :: post) v .keeps) (hfit : ∀ q ∈ pre, q.need ≤ s.cfg.capacity)
    (hp : s.cfg.capacity < p.need) (h : s.ready (pre.flatMap Primitive.frames).length) :
    exec i s =
      .next (returnWith (sendFrames s (pre.flatMap Primitive.frames)) .error (some .capacity) none) := by
  have ⟨hacc, hexcl, hidle, hbus⟩ := h
  have herror := exec_tooLarge hacc hexcl (hi ▸ .inr (.inl rfl)) (congrArg Expansion.prims hi) hfit hp
    (fun _ => hidle) hbus
  rwa [hi, ← (sendFrames_sent s (pre.flatMap Primitive.frames)).power] at herror

/-- R149, R182: with `C < 3` a word read has sent its command and parameter when it returns `error`. -/
theorem exec_wordRead_tooLarge {op arg : Word} {v : Conversion}
    (hi : expansionOf s.cfg i = .composite (wordReadPrims op arg) v .keeps) (h : s.ready 2)
    (hcap : s.cfg.capacity < 3) :
    exec i s =
      .next (returnWith (sendFrames s [cmdFrame op, paramFrame arg]) .error (some .capacity) none) := by
  have ⟨⟨htwo, _⟩, _⟩ := h
  exact exec_composite_tooLarge (pre := [.sendCommandParams op [arg]]) hi (List.forall_mem_singleton.mpr htwo) hcap h

/-- R162, R182: with `C < 22` the device-information query has sent its command when it returns `error`. -/
theorem exec_getDeviceInfo_tooLarge (h : s.ready 1) (hcap : s.cfg.capacity < 22) :
    exec .getDeviceInfo s =
      .next (returnWith (sendFrame s (cmdFrame opGetDeviceInfo)) .error (some .capacity) none) := by
  have ⟨⟨htwo, _⟩, _⟩ := h
  exact exec_composite_tooLarge (pre := [.sendCommand opGetDeviceInfo]) (p := .readData Config.devInfoWords) rfl
    (List.forall_mem_singleton.mpr htwo) hcap h

/-- R171: the primitives of an image load before its payload. -/
def imageSetupPrims (cfg : Config) (addr : Addr32) (x y w h : Word) : List Primitive :=
  [writeRegisterPrim (regImgHigh cfg) (addrHigh addr), writeRegisterPrim cfg.regImgBase (addrLow addr),
    .sendCommandParams opLoadImageArea [cfg.imageFormat, x, y, w, h]]

/-- R104, R171, R182: an image load whose payload does not fit has sent the frames before it when it returns `error`. -/
theorem exec_writeImage_tooLarge {addr : Addr32} {px : List Word} {x y w h : Word} (hs : s.ready 12)
    (hcap : s.cfg.capacity < px.length + 1) :
    exec (.writeImage addr px x y w h) s =
      .next (returnWith (sendFrames s ((imageSetupPrims s.cfg addr x y w h).flatMap Primitive.frames)) .error
        (some .capacity) none) := by
  have ⟨⟨htwo, _⟩, _⟩ := hs
  have hfit : ∀ q ∈ imageSetupPrims s.cfg addr x y w h, q.need ≤ s.cfg.capacity :=
    List.forall_mem_cons.mpr ⟨htwo, List.forall_mem_cons.mpr ⟨htwo, List.forall_mem_singleton.mpr htwo⟩⟩
  exact exec_composite_tooLarge (p := .writeData px) rfl hfit hcap hs

/-- Settles O34: in each request a data frame follows primitives that need two words only. -/
theorem oversizedCompositeErrors : Obligations.OversizedCompositeErrors :=
  fun _ =>
    ⟨fun h hcap => ⟨fun _ => exec_wordRead_tooLarge rfl h hcap, exec_wordRead_tooLarge rfl h hcap,
        exec_wordRead_tooLarge rfl h hcap⟩,
      fun h hcap => exec_getDeviceInfo_tooLarge h hcap, fun _ _ _ _ _ _ h hcap => exec_writeImage_tooLarge h hcap⟩

end Sys2Proof.Machine
end

section
/-! Proofs of the statements of 43_command_set.md: the power-state commands and the reset (O25, O26), device information
(O27, O54), VCOM in range and out of it (O28, O32, O53), and the image load and the refresh (O29, O30). -/

namespace Sys2Proof.Machine

variable {s : State} {i : Instr} {v : Rat}

/-! ## Power-state commands and reset -/

/-- R152, R155: an instruction that is one command and enters a power state, run undisturbed. -/
theorem exec_powerCommand {op : Word} {q : Power}
    (hi : expansionOf s.cfg i = .composite [.sendCommand op] .none (.enters q)) (h : s.ready 1) :
    exec i s = .next (returnOk { sendFrame s (cmdFrame op) with power := q } none) := by
  have ⟨⟨hcap, _⟩, _⟩ := h
  rw [exec_eq, hi]
  exact runRequest_quiet _ (List.cons_ne_nil _ _) (.inl rfl) (List.forall_mem_singleton.mpr hcap) h

/-- Settles O25: the three differ in the opcode and in the state they enter. -/
theorem powerCommandsComplete : Obligations.PowerCommandsComplete :=
  fun _ h => ⟨exec_powerCommand rfl h, exec_powerCommand rfl h, exec_powerCommand rfl h⟩

/-- Settles O26: the three line steps and the return. -/
theorem resetCompletes : Obligations.ResetCompletes := fun _ h => exec_reset h

/-! ## Device information -/

/-- R90, R159: a device-information query whose second transfer is answered with the words `w` has read `w`. -/
theorem sendPrims_getDeviceInfo {a0 : Answer} {d0 d1 : Word} {w : List Word} {as : List Answer}
    (hin : 22 ≤ s.inBuf.length) (hw : w.length = 20) (ha : s.answers = a0 :: ⟨true, d0 :: d1 :: w⟩ :: as) :
    (sendPrims (s, []) expandGetDeviceInfo.prims).2 = w := by
  have hlen : 22 ≤ (sendFrame s (cmdFrame opGetDeviceInfo)).inBuf.length := by rwa [sendFrame_inBuf_length]
  have hans : (sendFrame s (cmdFrame opGetDeviceInfo)).answers = ⟨true, d0 :: d1 :: w⟩ :: as := by
    rw [sendFrame_of_answers ha]
  exact sendFrame_read hans hw hlen (rdataFrame Config.devInfoWords) rfl

/-- Settles O27: the query's undisturbed run, its value the block parsed. -/
theorem getDeviceInfoCompletes : Obligations.GetDeviceInfoCompletes := by
  intro s a0 d0 d1 w as d h hwf hfit hw ha hd
  have ⟨⟨hcap, _⟩, _⟩ := h
  have hneeds : ∀ p ∈ expandGetDeviceInfo.prims, p.need ≤ s.cfg.capacity :=
    List.forall_mem_cons.mpr ⟨hcap, List.forall_mem_singleton.mpr hfit⟩
  have hinfo : Conversion.info.apply s.cfg w = some (.info d) := congrArg (Option.map Value.info) hd
  have hrun := exec_composite (i := .getDeviceInfo) (ps := expandGetDeviceInfo.prims) rfl (List.cons_ne_nil _ _)
    hneeds h
  rwa [sendPrims_getDeviceInfo (hwf.2 ▸ hfit) hw ha, hinfo] at hrun

/-- R54, R160: the address with its high half first. -/
theorem toNat_append_word (hi lo : Word) : (hi ++ lo).toNat = hi.toNat * 65536 + lo.toNat := by
  rw [BitVec.toNat_append, ← Nat.shiftLeft_add_eq_or_of_lt lo.isLt, Nat.shiftLeft_eq]

/-- Settles O54: a block of 20 words has its four leading words. -/
theorem deviceInfoFields : Obligations.DeviceInfoFields := by
  intro o w hw
  obtain _ | ⟨w0, _ | ⟨w1, _ | ⟨lo, _ | ⟨hi, texts⟩⟩⟩⟩ := w
  case cons.cons.cons.cons =>
    exact ⟨_, rfl, rfl, rfl, ⟨lo, hi, rfl, rfl, toNat_append_word hi lo⟩, rfl, rfl⟩
  -- A shorter list is no block.
  all_goals simp at hw

/-! ## VCOM -/

/-- R164: what `Validate` finds of a VCOM value. -/
theorem vcomInRange_iff : vcomInRange v = true ↔ -65535 / 1000 ≤ v ∧ v < 0 := by
  rw [vcomInRange, Bool.and_eq_true, decide_eq_true_iff, decide_eq_true_iff, Config.vcomMin]

/-- Settles O28: `Validate` accepts the value, and the command and its two parameters are sent. -/
theorem setVcomCompletes : Obligations.SetVcomCompletes := by
  intro s v h hmin hneg
  have ⟨⟨hcap, _⟩, _⟩ := h
  rw [exec_eq]
  exact runRequest_quiet_keeps _ (List.cons_ne_nil _ _) (.inr ⟨rfl, vcomInRange_iff.mpr ⟨hmin, hneg⟩⟩)
    (List.forall_mem_singleton.mpr hcap) h rfl

/-- R164, R166, R178: `Validate` of an argument it does not accept, as one step of a run. -/
theorem runSteps_validate_rejects {e : Expansion} {c : Nat} {u : Caller} (hc : c < s.callers.length)
    (hpos : u.pos = .validate) (harg : e.argumentOk = false) :
    runSteps e c 1 (s.setCaller c u) =
      s.setCaller c { u with pos := .ret .error, st := .error, cause := some .invalidArgument } := by
  simp [runSteps, microStep, hc, hpos, stepValidate, harg]

/-- Settles O32: `Validate` rejects the value, and the return of `error` is next. -/
theorem setVcomOutOfRangeErrors : Obligations.SetVcomOutOfRangeErrors := by
  intro s v h hrange
  have ⟨_, hc, _⟩ := h
  have harg : (expansionOf s.cfg (.setVcom v)).argumentOk = false :=
    Bool.eq_false_iff.mpr (mt vcomInRange_iff.mp hrange)
  exact exec_returns (t := s) h (runSteps_validate_rejects hc rfl harg) rfl rfl rfl (by decide)

/-- R165: a value from zero up lies in the half-open interval of length one around the integer it rounds to. -/
theorem roundHalfAway_of_nonneg {x : Rat} (hx : 0 ≤ x) :
    (roundHalfAway x : Rat) - 1 / 2 ≤ x ∧ x < (roundHalfAway x : Rat) + 1 / 2 := by
  have hle := Rat.floor_le (x + 1 / 2)
  have hlt := Rat.lt_floor (x := x + 1 / 2)
  rw [roundHalfAway, if_pos hx]
  constructor <;> linarith

/-- R9: an integer that fits 16 bits is not truncated. -/
theorem toNat_truncTo16 {n : Int} (h0 : 0 ≤ n) (h : n < 65536) : ((truncTo16 n).toNat : Int) = n := by
  rw [truncTo16, BitVec.toNat_ofInt]
  omega

/-- R164, R165: in range, the VCOM word is the rounded value itself. -/
theorem vcomWord_toNat (hpos : 0 < v * -1000) (hmax : v * -1000 ≤ 65535) :
    ((vcomWord v).toNat : Rat) = (roundHalfAway (v * -1000) : Rat) := by
  obtain ⟨hlo, hhi⟩ := roundHalfAway_of_nonneg hpos.le
  have h0 : -1 < roundHalfAway (v * -1000) := by
    rw [← Int.cast_lt (R := Rat), Int.cast_neg, Int.cast_one]; linarith
  have h1 : roundHalfAway (v * -1000) < 65536 := by
    rw [← Int.cast_lt (R := Rat), Int.cast_ofNat]; linarith
  exact_mod_cast congrArg (Int.cast (R := Rat)) (toNat_truncTo16 (by omega) h1)

/-- Settles O53: the word is the rounded value, and rounding is to the nearest. -/
theorem vcomWordExact : Obligations.VcomWordExact := by
  intro v hmin hneg
  have hpos : 0 < v * -1000 := by linarith
  have hmax : v * -1000 ≤ 65535 := by linarith
  rw [vcomWord_toNat hpos hmax]
  exact ⟨hpos, hmax, roundHalfAway_of_nonneg hpos.le⟩

/-! ## Image load and refresh -/

/-- Settles O29: the primitives before the payload, and the one after it, need two words. -/
theorem writeImageCompletes : Obligations.WriteImageCompletes := by
  intro s addr px x y w h hs hpx
  have ⟨⟨hcap, _⟩, _⟩ := hs
  have hfit : ∀ p ∈ (expandWriteImage s.cfg addr px x y w h).prims, p.need ≤ s.cfg.capacity := by
    simp only [expandWriteImage, Expansion.composite, List.forall_mem_cons]
    exact ⟨hcap, hcap, hcap, hpx, hcap, List.forall_mem_nil _⟩
  exact exec_composite (i := .writeImage addr px x y w h) rfl (List.cons_ne_nil _ _) hfit hs

/-- R180: an instruction that is one DISPLAY_AREA command sends it with its area and its mode. -/
theorem exec_displayArea {x y w h mode : Word}
    (hi : expansionOf s.cfg i = .composite [.sendCommandParams opDisplayArea [x, y, w, h, mode]] .none .keeps)
    (hs : s.ready 6) :
    exec i s =
      .next (returnOk (sendFrames s (cmdFrame opDisplayArea :: [x, y, w, h, mode].map paramFrame)) none) := by
  have ⟨⟨hcap, _⟩, _⟩ := hs
  exact exec_composite hi (List.cons_ne_nil _ _) (List.forall_mem_singleton.mpr hcap) hs

/-- Settles O30: the two differ in the mode. -/
theorem refreshCompletes : Obligations.RefreshCompletes :=
  fun _ _ _ _ _ h => ⟨exec_displayArea rfl h, exec_displayArea rfl h⟩

end Sys2Proof.Machine
end

section
/-! Proofs of the statements of 60_exceptions.md: an instance with `C < 2` refuses every step and request (O8), and a
request whose first transfer has no answer blocks at it (O37). -/

namespace Sys2Proof.Machine

variable {s : State} {c : Nat} {i : Instr} {e : Expansion} {u : Caller}

/-! ## An instance with `C < 2` -/

/-- R193: no request runs on such an instance. -/
theorem runRequest_refused (h : s.cfg.capacity < 2) (i : Instr) (e : Expansion) :
    runRequest i e s = .refused .capacityBelowTwo := if_pos h

/-- R193: no move does either, whatever the next one is. -/
theorem step_refused (h : s.cfg.capacity < 2) : step s = .refused .capacityBelowTwo := if_pos h

/-- Settles O8: the step and the request each begin with the test of `C`. -/
theorem capacityBelowTwoRefused : Obligations.CapacityBelowTwoRefused :=
  fun s i h => ⟨step_refused h, (exec_eq i s).trans (runRequest_refused h _ _)⟩

/-! ## A first transfer with no answer -/

/-- R114, R129: the shared state once frame `f` has been filled and its sample taken on an idle line. -/
def State.askingBus (s : State) (f : Frame) : State :=
  { s with
    outBuf := memWrite s.outBuf 0 f.words
    excl := true
    trace := s.trace ++ [.sample .high] }

/-- R101, R102, R104: the run up to the fill of a request's first frame, whatever the line's level. -/
theorem runSteps_toFirstFill {p : Primitive} {ps : List Primitive} (i : Instr) (hb : e.begins)
    (hps : e.prims = p :: ps) (hc : c < s.callers.length) (hexcl : s.excl = false) (hfit : p.need ≤ s.cfg.capacity) :
    ∃ m, runSteps e c m (s.setCaller c { Caller.idle with req := some i, pos := e.start }) =
      State.setCaller { s with excl := true } c { Caller.idle with req := some i, pos := .fill } := by
  obtain ⟨m, hm⟩ := runSteps_toFirstAcquire i hb hc
  have hp : e.primitive { Caller.idle with req := some i, pos := .acquire } = some p := by
    rw [Expansion.primitive, hps]; rfl
  exact ⟨m + 2, by rw [runSteps_add, hm]; exact runSteps_enter hc hp rfl hexcl hfit⟩

/-- R129: from the fill of a frame to its transfer, on an idle line. -/
theorem runSteps_toXfer {f : Frame} (hc : c < s.callers.length) (hf : e.frame u = some f) (hpos : u.pos = .fill)
    (hidle : s.busyLevel = .high) :
    runSteps e c 2 (State.setCaller { s with excl := true } c u) =
      (s.askingBus f).setCaller c { u with pos := .xfer } := by
  let t : State := { s with excl := true, outBuf := memWrite s.outBuf 0 f.words }
  have hline : t.lineIdle = true := State.lineIdle_iff.mpr hidle
  rw [runSteps_succ, microStep_fill (by exact hc) hpos hf, runSteps_succ,
    microStep_waitSample (s := t) (by exact hc) rfl, if_pos hline, State.sampleBusy_of_level (s := t) hidle]
  rfl

/-- R211: a context at `Xfer` with no answer of the bus is blocked. -/
theorem State.blocked_of_xfer (hpos : (s.caller c).pos = .xfer) (hans : s.answers = []) : s.blocked c = true := by
  rw [State.blocked, hpos, hans]; rfl

/-- R211: the filling of the frame and the sample bring no answer of the bus. -/
theorem askingBus_blocked (hc : c < s.callers.length) (hpos : u.pos = .xfer) (hans : s.answers = []) (f : Frame) :
    ((s.askingBus f).setCaller c u).blocked c = true :=
  State.blocked_of_xfer (by rwa [State.caller_setCaller_self (by exact hc)]) hans

/-- R203, R212: on an idle line with no answer of the bus a request whose first primitive fits stops at the transfer of
its first frame. -/
theorem exec_toXfer {p : Primitive} {ps : List Primitive} {f : Frame} {fs : List Frame} (h : s.accepting)
    (hexcl : s.excl = false) (hidle : s.busyLevel = .high) (hans : s.answers = [])
    (hb : (expansionOf s.cfg i).begins) (hps : (expansionOf s.cfg i).prims = p :: ps) (hfit : p.need ≤ s.cfg.capacity)
    (hp : p.frames = f :: fs) :
    exec i s =
      .next ((s.askingBus f).setCaller s.active { Caller.idle with req := some (asRequest i), pos := .xfer }) := by
  have ⟨_, hc, _⟩ := h
  have hf : (expansionOf s.cfg i).frame { Caller.idle with req := some (asRequest i), pos := .fill } = some f := by
    simp [Expansion.frame, Expansion.primitive, hps, hp, Caller.idle]
  obtain ⟨m, hm⟩ := runSteps_toFirstFill (asRequest i) hb hps hc hexcl hfit
  refine exec_reaches (m := m + 2) h ?_ (runSteps_blocked (askingBus_blocked hc rfl hans f))
  rw [runSteps_add, hm]
  exact runSteps_toXfer hc hf rfl hidle

/-- Settles O37: the request comes to the transfer of its first frame, which waits for an answer. -/
theorem unansweredTransferBlocks : Obligations.UnansweredTransferBlocks := by
  intro s i p f fs h hexcl hidle hans hvcom hhead hfit hp
  have ⟨_, hc, _⟩ := h
  obtain ⟨ps, hps⟩ := List.head?_eq_some_iff.mp hhead
  exact ⟨_, exec_toXfer h hexcl hidle hans (expansionOf_begins s.cfg (ne_reset_of_prims hps) hvcom) hps hfit hp, rfl,
    askingBus_blocked hc rfl hans f⟩

end Sys2Proof.Machine
end

section
/-! Proofs of the statements of 70_reset_and_hazards.md: the state after construction is a clean launch state and meets
every invariant (O9). Exclusivity and the capacity check hold in every clean launch state, whose contexts are all idle. -/

namespace Sys2Proof.Machine

variable {s : State}

/-! ## Clean launch states -/

/-- R240: at a clean launch every context, existing or not, is idle with no request and no handle. -/
theorem State.cleanLaunch.caller (h : s.cleanLaunch) (c : Nat) :
    (s.caller c).req = none ∧ (s.caller c).pos = .idle ∧ (s.caller c).hnd = none := by
  obtain ⟨-, -, hidle⟩ := h
  obtain hc | hc := Nat.lt_or_ge c s.callers.length
  · rw [State.caller, List.getD_eq_getElem _ _ hc]
    exact hidle _ (List.getElem_mem hc)
  · rw [State.caller_absent hc]
    exact ⟨rfl, rfl, rfl⟩

/-- R240: no context holds `excl` at a clean launch. -/
theorem State.cleanLaunch.holds (h : s.cleanLaunch) (c : Nat) : s.holds c = false := by
  obtain ⟨-, hpos, -⟩ := h.caller c
  rw [State.holds, hpos]; rfl

/-- R23, R240: a clean launch state, where no context holds `excl`, is exclusive. -/
theorem State.cleanLaunch.exclusive (h : s.cleanLaunch) : s.exclusive :=
  ⟨by simp [h.holds], by simp [h.holds]⟩

/-- R104, R240: a clean launch state, where no context has a request, fits the buffers. -/
theorem State.cleanLaunch.fits (h : s.cleanLaunch) : s.fits := fun c i hi => by
  obtain ⟨hreq, -, -⟩ := h.caller c
  simp [hreq] at hi

/-- R25, R240: at a clean launch neither the slot nor a context names a handle, so before the first handle is made and
the first edge recorded the handles are sound. -/
theorem State.cleanLaunch.handlesSound (h : s.cleanLaunch) (hhandles : s.handles = []) (hedges : s.edgeTargets = []) :
    s.handlesSound := by
  have ⟨_, hslot, _⟩ := h
  refine ⟨?edges, ?once, ?slot, ?waits, ?signalled⟩
  case edges => simp [hedges]
  case once => simp [hedges]
  case slot => simp [hslot]
  case waits =>
    intro c g hg
    obtain ⟨-, -, hhnd⟩ := h.caller c
    simp [hhnd] at hg
  case signalled => simp [hhandles]

/-! ## Construction -/

/-- R44, R240: construction leaves a clean launch state, for every configuration. -/
theorem State.construct_cleanLaunch (cfg : Config) : (State.construct cfg).cleanLaunch := by
  refine ⟨rfl, rfl, fun u hu => ?_⟩
  rw [List.eq_of_mem_replicate hu]
  exact ⟨rfl, rfl, rfl⟩

/-- R7: the constructed instance has `C >= 2` and `N_CALLERS >= 1`, whatever its free parameters. -/
theorem Config.board_wellFormed : Config.board.wellFormed = true := by
  have hcapacity : 2 ≤ Config.board.capacity := Nat.le_add_left 2 _
  have hcallers : 1 ≤ Config.board.callers := Nat.le_add_left 1 _
  simp [Config.wellFormed, hcapacity, hcallers]

/-- Settles O9: reset is a clean launch state with no handle made, buffers of `C` words, and the board's configuration. -/
theorem resetMeetsInvariants : Obligations.ResetMeetsInvariants :=
  have h : State.reset.cleanLaunch := State.construct_cleanLaunch _
  ⟨h, Memory.wf_reset, h.exclusive, h.handlesSound rfl rfl, h.fits, Config.board_wellFormed⟩

end Sys2Proof.Machine
end
